-- ==== Sys2Proof/Word.lean ====
section
/-! DEFINITION. The encoder's plain value types: bytes, colour indices, colours and directions (spec/00_scope.md R9,
spec/42_text_scroll.md R93). -/

namespace Sys2Proof

/-- A byte of the stream, 0..255 (R9). -/
abbrev Byte := BitVec 8

/-- A 4-bit palette index, also called a colour index (R9). -/
abbrev ColorIndex := BitVec 4

/-- A 12-bit colour `0xRGB`: red in bits 11:8, green in bits 7:4, blue in bits 3:0 (R9). -/
abbrev Color := BitVec 12

/-- The `direction` operand: the way the content moves on the screen (R93). A fifth direction cannot be expressed. -/
inductive Direction where
  | up
  | down
  | left
  | right
deriving DecidableEq, Repr

end Sys2Proof
end

