-- ==== Sys2Proof/Config.lean ====
section
/-! DEFINITION. What is fixed for the life of the model (spec/00_scope.md R7, R8; spec/70_reset_and_hazards.md R127):
the constants the spec decides, and the three parameters it leaves OPEN (`MODE_BITS`, `PARITY`, `FONT`), which have no
body here, so that no proof can see what they are. No command changes any of them. The geometry of R7 (300×216 pixels,
18×50 tiles of 6×12, 24-byte packets with 16 payload bytes) stands as numerals where it is used, as in the spec's own
pseudocode. -/

namespace Sys2Proof

/-- The OPEN parameters of the model (spec/93_implementation_defined.md Part 2). Every operation of the machine takes
them as an argument, as the spec says a model does, so that a statement about an operation holds for every choice. -/
structure Params where
  /-- `MODE_BITS`: the fixed 2-bit mode marker of byte 0 (R8, R46, decision D4). -/
  modeBits : BitVec 2
  /-- `PARITY`: from byte 0 and the 16 payload bytes to exactly 7 bytes (R61, decision D5). -/
  parity : Byte → List Byte → Vector Byte 7
  /-- `FONT`: from a character code 0..255 to 12 pixel rows of 6 bits (R91, decision D18). -/
  font : Byte → Vector (BitVec 6) 12

namespace Config

/-- `MODE_BITS`, OPEN (D4): nothing is assumed of it. Log entry 1. -/
opaque MODE_BITS : BitVec 2

/-- `PARITY`, OPEN (D5): a total function of byte 0 and the payload with 7 bytes as its result, and nothing else is
assumed of it (R61). Log entry 2. -/
opaque PARITY : Byte → List Byte → Vector Byte 7

/-- `FONT`, OPEN (D18): a total function from character codes to glyphs of 12 six-bit rows, and nothing else is
assumed of it (R91). Log entry 3. -/
opaque FONT : Byte → Vector (BitVec 6) 12

/-- The parameters of the machine that `exec` and `step` run. -/
def live : Params where
  modeBits := MODE_BITS
  parity := PARITY
  font := FONT

/-! ### Instruction codes (spec/30_encoding.md R47, decision D6; all but NOOP's are the CD+G codes, GK1: log entry 4) -/

def NOOP : BitVec 6 := 0
def MEMORY_PRESET : BitVec 6 := 1
def BORDER_PRESET : BitVec 6 := 2
def TILE_NORMAL : BitVec 6 := 6
def SCROLL_PRESET : BitVec 6 := 20
def SCROLL_COPY : BitVec 6 := 24
def LOAD_CLUT_LOW : BitVec 6 := 30
def LOAD_CLUT_HIGH : BitVec 6 := 31
def TILE_XOR : BitVec 6 := 38

/-! ### Constants the spec decides (R8) and the tick rate (R7) -/

/-- Width of the text area in character cells, 294 / 6 (R8, D18). -/
@[simp] def TEXT_COLS : Nat := 49
/-- Height of the text area in character cells, 204 / 12 (R8, D18). -/
@[simp] def TEXT_ROWS : Nat := 17
/-- Tile column of the text area's left edge (R8, D18). -/
@[simp] def TEXT_COL0 : Nat := 0
/-- Tile row of the text area's top edge (R8, D18). -/
@[simp] def TEXT_ROW0 : Nat := 0
/-- Palette index of a glyph's 0 bits (R8, D18). -/
@[simp] def TEXT_BG : Nat := 0
/-- Palette index of a glyph's 1 bits (R8, D18). -/
@[simp] def TEXT_FG : Nat := 1
/-- Fill colour of the scroll that text triggers (R8, D19). -/
@[simp] def TEXT_SCROLL_FILL : Nat := 0
/-- Steps of a fade (R8, D17). -/
@[simp] def FADE_STEPS : Nat := 15
/-- Tile row into which `scrollImageUp` draws each image row (R8, D20). -/
@[simp] def IMAGE_ENTRY_ROW : Nat := 17
/-- Packet slots in a second, stated by the source (R7, R112). -/
@[simp] def TICKS_PER_SECOND : Nat := 150

end Config
end Sys2Proof
end

