-- ==== Sys2Proof/Syntax.lean ====
section
/-! DEFINITION. The instructions: one constructor for each row of spec/opcode_table.json. The nine packet instructions
carry the fields of their payload at the widths `decodeFields` gives them (spec/40_packet_codec.md R64). The 21 host
commands carry their operands as the typed call interface has them (spec/30_encoding.md R57): natural numbers, lists,
booleans and directions, which the command itself checks. -/

namespace Sys2Proof

/-- An instruction of the encoder: a packet instruction (R47) or a host command (R57). -/
inductive Instr where
  /-- NOOP, the padding packet (R49, R67). -/
  | noop
  /-- MEMORY_PRESET: fill the canvas (R50, R68). -/
  | memoryPreset (color : ColorIndex) (rep : BitVec 4)
  /-- BORDER_PRESET: set the border colour (R51, R69). -/
  | borderPreset (color : ColorIndex)
  /-- TILE_NORMAL: draw a tile, replacing its pixels (R52, R70). -/
  | tileNormal (a b : ColorIndex) (row : BitVec 5) (col : BitVec 6) (rows : Vector (BitVec 6) 12)
  /-- SCROLL_PRESET: scroll and fill the exposed strip (R53, R72). -/
  | scrollPreset (color : ColorIndex) (hCmd : BitVec 2) (hOff : BitVec 3) (vCmd : BitVec 2) (vOff : BitVec 4)
  /-- SCROLL_COPY: scroll and wrap the content around (R53, R73). -/
  | scrollCopy (color : ColorIndex) (hCmd : BitVec 2) (hOff : BitVec 3) (vCmd : BitVec 2) (vOff : BitVec 4)
  /-- LOAD_CLUT_LOW: load palette entries 0..7 (R54, R75). -/
  | loadClutLow (colors : Vector Color 8)
  /-- LOAD_CLUT_HIGH: load palette entries 8..15 (R54, R76). -/
  | loadClutHigh (colors : Vector Color 8)
  /-- TILE_XOR: draw a tile by exclusive-or into the canvas (R52, R71). -/
  | tileXor (a b : ColorIndex) (row : BitVec 5) (col : BitVec 6) (rows : Vector (BitVec 6) 12)
  /-- `encodePacket(instr, payload)` (R60). -/
  | encodePacket (instr : Nat) (payload : List Nat)
  /-- `setScreenColor(index)` (R81). -/
  | setScreenColor (index : Nat)
  /-- `setBorderColor(index)` (R82). -/
  | setBorderColor (index : Nat)
  /-- `writeTile(row, col, colorA, colorB, pixelBits, xor)` (R83). -/
  | writeTile (row col colorA colorB : Nat) (pixelBits : List Nat) (xor : Bool)
  /-- `tileBlit(row, col, colorA, colorB, pixelBits)` (R84). -/
  | tileBlit (row col colorA colorB : Nat) (pixelBits : List Nat)
  /-- `xorBlit(row, col, colorA, colorB, pixelBits)` (R85). -/
  | xorBlit (row col colorA colorB : Nat) (pixelBits : List Nat)
  /-- `setCursor(x, y)`: column x, row y (R86). -/
  | setCursor (x y : Nat)
  /-- `advanceCursor()` (R87). -/
  | advanceCursor
  /-- `textTile(character, x, y, xor)` (R91). -/
  | textTile (character x y : Nat) (xor : Bool)
  /-- `printScreen(text, xor)` (R92). -/
  | printScreen (text : List Nat) (xor : Bool)
  /-- `scroll(direction, color, step, wrap)`: coarse when `step` is none (R94), smooth when it is given (R95). -/
  | scroll (direction : Direction) (color : Nat) (step : Option Nat) (wrap : Bool)
  /-- `smoothScroll(direction)` (R96). -/
  | smoothScroll (direction : Direction)
  /-- `paletteLow(palette, duplicates)` (R100). -/
  | paletteLow (palette : List Nat) (duplicates : Bool)
  /-- `paletteHigh(palette, duplicates)` (R101). -/
  | paletteHigh (palette : List Nat) (duplicates : Bool)
  /-- `fadeIn(speed, palette)` (R104). -/
  | fadeIn (speed : Nat) (palette : List Nat)
  /-- `fadeOut(speed, palette)` (R105). -/
  | fadeOut (speed : Nat) (palette : List Nat)
  /-- `scrollImageUp(image, speed)`: the image is a list of lines of colour indices (R107, R108). -/
  | scrollImageUp (image : List (List Nat)) (speed : Nat)
  /-- `newBuffer()` (R109). -/
  | newBuffer
  /-- `getBuffer()` (R110). -/
  | getBuffer
  /-- `delayTicks(n)` (R111). -/
  | delayTicks (n : Nat)
  /-- `delaySeconds(s)`, a natural number of seconds (R112). -/
  | delaySeconds (seconds : Nat)
deriving DecidableEq, Repr

end Sys2Proof
end

