-- ==== Sys2Proof/WellFormed.lean ====
section
/-! DEFINITION. Which instructions are well-formed as data. A packet instruction is well-formed when its fields meet the
ranges of spec/30_encoding.md R55 that its field widths do not already give. A host command is well-formed whatever its
operands: they are naturals, lists, booleans and directions, and every check on them is the command's own (R57, D2). -/

namespace Sys2Proof

/-- The tile address of a tile packet lies in the 18×50 grid: `p[2] ≤ 17`, `p[3] ≤ 49` (R55). -/
def tileFieldsWf (row : BitVec 5) (col : BitVec 6) : Bool :=
  decide (row.toNat ≤ 17) && decide (col.toNat ≤ 49)

/-- The commands and offsets of a scroll packet are in range: commands at most 2, `hOff ≤ 5`, `vOff ≤ 11` (R55). -/
def scrollFieldsWf (hCmd : BitVec 2) (hOff : BitVec 3) (vCmd : BitVec 2) (vOff : BitVec 4) : Bool :=
  decide (hCmd.toNat ≤ 2) && decide (hOff.toNat ≤ 5) && decide (vCmd.toNat ≤ 2) && decide (vOff.toNat ≤ 11)

/-- Whether an instruction is well-formed (R55 for packet instructions, R57 for host commands). -/
def Instr.wf : Instr → Bool
  | .noop => true
  | .memoryPreset _ _ => true
  | .borderPreset _ => true
  | .tileNormal _ _ row col _ => tileFieldsWf row col
  | .scrollPreset _ hCmd hOff vCmd vOff => scrollFieldsWf hCmd hOff vCmd vOff
  | .scrollCopy _ hCmd hOff vCmd vOff => scrollFieldsWf hCmd hOff vCmd vOff
  | .loadClutLow _ => true
  | .loadClutHigh _ => true
  | .tileXor _ _ row col _ => tileFieldsWf row col
  | .encodePacket _ _ => true
  | .setScreenColor _ => true
  | .setBorderColor _ => true
  | .writeTile _ _ _ _ _ _ => true
  | .tileBlit _ _ _ _ _ => true
  | .xorBlit _ _ _ _ _ => true
  | .setCursor _ _ => true
  | .advanceCursor => true
  | .textTile _ _ _ _ => true
  | .printScreen _ _ => true
  | .scroll _ _ _ _ => true
  | .smoothScroll _ => true
  | .paletteLow _ _ => true
  | .paletteHigh _ _ => true
  | .fadeIn _ _ => true
  | .fadeOut _ _ => true
  | .scrollImageUp _ _ => true
  | .newBuffer => true
  | .getBuffer => true
  | .delayTicks _ => true
  | .delaySeconds _ => true

/-- Whether an instruction is one of the nine packet instructions (R47) and not a host command (R57). -/
def Instr.isPacket : Instr → Bool
  | .noop => true
  | .memoryPreset _ _ => true
  | .borderPreset _ => true
  | .tileNormal _ _ _ _ _ => true
  | .scrollPreset _ _ _ _ _ => true
  | .scrollCopy _ _ _ _ _ => true
  | .loadClutLow _ => true
  | .loadClutHigh _ => true
  | .tileXor _ _ _ _ _ => true
  | .encodePacket _ _ => false
  | .setScreenColor _ => false
  | .setBorderColor _ => false
  | .writeTile _ _ _ _ _ _ => false
  | .tileBlit _ _ _ _ _ => false
  | .xorBlit _ _ _ _ _ => false
  | .setCursor _ _ => false
  | .advanceCursor => false
  | .textTile _ _ _ _ => false
  | .printScreen _ _ => false
  | .scroll _ _ _ _ => false
  | .smoothScroll _ => false
  | .paletteLow _ _ => false
  | .paletteHigh _ _ => false
  | .fadeIn _ _ => false
  | .fadeOut _ _ => false
  | .scrollImageUp _ _ => false
  | .newBuffer => false
  | .getBuffer => false
  | .delayTicks _ => false
  | .delaySeconds _ => false

end Sys2Proof
end

