-- ==== Sys2Proof/Decode.lean ====
section
/-! DEFINITION. The packet format (spec/30_encoding.md R45 to R56) and the pure codec (spec/40_packet_codec.md R60 to
R64): field extraction, decoding (total on any bytes, rejecting by name), and after it the encoder. Host commands have no
binary encoding (R57), so only the nine packet instructions are ever decoded from or encoded to bytes. -/

namespace Sys2Proof

/-- Why a list of bytes is not a well-formed packet (R55, R63). -/
inductive PacketDefect where
  /-- Not 24 bytes, or a body whose payload is not 16 bytes. -/
  | length
  /-- The mode field is not `MODE_BITS`. -/
  | mode
  /-- The instruction code is one of the 55 reserved ones (R48): the field record is `Reserved{instr}` (R64). -/
  | reservedCode (code : BitVec 6)
  /-- A payload field or an unused bit is outside its range. -/
  | field
  /-- Bytes 17..23 are not `PARITY` of the bytes before them. -/
  | parity
deriving DecidableEq, Repr

/-- The vector of `f 0 … f (n-1)`. -/
def tabulate {α : Type} (n : Nat) (f : Nat → α) : Vector α n :=
  ⟨⟨(List.range n).map f⟩, by simp⟩

/-- Byte `k` of a list of bytes; a byte past the end reads as 0, as in `pad16` (R10). -/
def byteAt (p : List Byte) (k : Nat) : Byte := p.getD k 0

/-- `pad16`: zero-fill a payload to 16 bytes (R10). -/
def pad16 (p : List Byte) : List Byte := p ++ List.replicate (16 - p.length) 0

/-! ### The parts of a packet -/

/-- Byte 0: `(MODE_BITS << 6) | instr` (R46). -/
def byte0 (P : Params) (code : BitVec 6) : Byte :=
  (P.modeBits.setWidth 8 <<< 6) ||| code.setWidth 8

/-- The 24 bytes of a packet with a 16-byte payload: byte 0, payload, parity (R45). -/
def packetBytes (P : Params) (code : BitVec 6) (p : List Byte) : List Byte :=
  byte0 P code :: p ++ (P.parity (byte0 P code) p).toList

/-- `b[0][7:6]` (R46, R63). -/
def modeOf (b : List Byte) : BitVec 2 := (byteAt b 0).extractLsb' 6 2

/-- `b[0][5:0]` (R46, R63). -/
def codeOf (b : List Byte) : BitVec 6 := (byteAt b 0).setWidth 6

/-- `b[1..17)` (R45, R63). -/
def payloadOf (b : List Byte) : List Byte := (b.drop 1).take 16

/-- `b[17..24) = PARITY(b[0], b[1..17))` (R63). -/
def parityOk (P : Params) (b : List Byte) : Bool :=
  (b.drop 17).take 7 == (P.parity (byteAt b 0) (payloadOf b)).toList

/-- `decodePacket(b)`: mode, instruction, payload and whether the parity holds; refused for a list that is not 24 bytes
long, and never failing on 24 bytes (R63). -/
def decodePacket (P : Params) (b : List Byte) : Option (BitVec 2 × BitVec 6 × List Byte × Bool) :=
  if b.length = 24 then some (modeOf b, codeOf b, payloadOf b, parityOk P b) else none

/-! ### The fields of a payload (R64) -/

/-- `p[0][3:0]`: colour, or colour A. -/
def fieldColor (p : List Byte) : ColorIndex := (byteAt p 0).setWidth 4
/-- `p[1][3:0]`: colour B, or a memory preset's repeat count. -/
def fieldSecond (p : List Byte) : BitVec 4 := (byteAt p 1).setWidth 4
/-- `p[2][4:0]`: tile row. -/
def fieldRow (p : List Byte) : BitVec 5 := (byteAt p 2).setWidth 5
/-- `p[3][5:0]`: tile column. -/
def fieldCol (p : List Byte) : BitVec 6 := (byteAt p 3).setWidth 6
/-- `p[4+j][5:0]`, j = 0..11: pixel rows. -/
def fieldRows (p : List Byte) : Vector (BitVec 6) 12 := tabulate 12 fun j => (byteAt p (4 + j)).setWidth 6
/-- `p[1][5:4]`: horizontal scroll command. -/
def fieldHCmd (p : List Byte) : BitVec 2 := (byteAt p 1).extractLsb' 4 2
/-- `p[1][2:0]`: horizontal fine offset. -/
def fieldHOff (p : List Byte) : BitVec 3 := (byteAt p 1).setWidth 3
/-- `p[2][5:4]`: vertical scroll command. -/
def fieldVCmd (p : List Byte) : BitVec 2 := (byteAt p 2).extractLsb' 4 2
/-- `p[2][3:0]`: vertical fine offset. -/
def fieldVOff (p : List Byte) : BitVec 4 := (byteAt p 2).setWidth 4
/-- `(hi[5:0] << 6) | lo[5:0]`: a 12-bit colour from its two bytes, high part first (R35, R54). -/
def joinColor (hi lo : Byte) : Color := ((hi.setWidth 6).setWidth 12 <<< 6) ||| (lo.setWidth 6).setWidth 12
/-- `c[i] = (p[2i][5:0] << 6) | p[2i+1][5:0]`, i = 0..7. -/
def fieldColors (p : List Byte) : Vector Color 8 :=
  tabulate 8 fun i => joinColor (byteAt p (2 * i)) (byteAt p (2 * i + 1))

/-- What a payload is read as (R64): the fields of its instruction, or for a reserved code the code alone. -/
inductive FieldRecord where
  /-- One of the nine packet instructions, with its fields. -/
  | instr (i : Instr)
  /-- `Reserved{instr}`. -/
  | reserved (code : BitVec 6)
deriving DecidableEq, Repr

/-- `decodeFields(instr, p)`: the field record of the payload (R64). -/
def decodeFields (code : BitVec 6) (p : List Byte) : FieldRecord :=
  if code = Config.NOOP then .instr .noop
  else if code = Config.MEMORY_PRESET then .instr (.memoryPreset (fieldColor p) (fieldSecond p))
  else if code = Config.BORDER_PRESET then .instr (.borderPreset (fieldColor p))
  else if code = Config.TILE_NORMAL then
    .instr (.tileNormal (fieldColor p) (fieldSecond p) (fieldRow p) (fieldCol p) (fieldRows p))
  else if code = Config.SCROLL_PRESET then
    .instr (.scrollPreset (fieldColor p) (fieldHCmd p) (fieldHOff p) (fieldVCmd p) (fieldVOff p))
  else if code = Config.SCROLL_COPY then
    .instr (.scrollCopy (fieldColor p) (fieldHCmd p) (fieldHOff p) (fieldVCmd p) (fieldVOff p))
  else if code = Config.LOAD_CLUT_LOW then .instr (.loadClutLow (fieldColors p))
  else if code = Config.LOAD_CLUT_HIGH then .instr (.loadClutHigh (fieldColors p))
  else if code = Config.TILE_XOR then
    .instr (.tileXor (fieldColor p) (fieldSecond p) (fieldRow p) (fieldCol p) (fieldRows p))
  else .reserved code

/-! ### Well-formed packets (R55) -/

/-- Every byte of the list is 0: a payload's unused bytes. -/
def allZero (p : List Byte) : Bool := p.all (· == 0)

/-- The payload constraint of TILE_NORMAL and TILE_XOR (R55). -/
def tilePayloadOk (p : List Byte) : Bool :=
  decide ((byteAt p 0).toNat ≤ 15) && decide ((byteAt p 1).toNat ≤ 15) && decide ((byteAt p 2).toNat ≤ 17) &&
    decide ((byteAt p 3).toNat ≤ 49) && (p.drop 4).all fun x => decide (x.toNat ≤ 63)

/-- The payload constraint of SCROLL_PRESET and SCROLL_COPY (R55). -/
def scrollPayloadOk (p : List Byte) : Bool :=
  decide ((byteAt p 0).toNat ≤ 15) &&
    ((byteAt p 1).extractLsb' 6 2 == 0) && decide ((fieldHCmd p).toNat ≤ 2) &&
    ((byteAt p 1).extractLsb' 3 1 == 0) && decide ((fieldHOff p).toNat ≤ 5) &&
    ((byteAt p 2).extractLsb' 6 2 == 0) && decide ((fieldVCmd p).toNat ≤ 2) &&
    decide ((fieldVOff p).toNat ≤ 11) && allZero (p.drop 3)

/-- The payload constraint of LOAD_CLUT_LOW and LOAD_CLUT_HIGH (R55). -/
def clutPayloadOk (p : List Byte) : Bool := p.all fun x => decide (x.toNat ≤ 63)

/-- The payload meets its instruction's constraint in R55's table; false for a reserved code. -/
def payloadOk (code : BitVec 6) (p : List Byte) : Bool :=
  if code = Config.NOOP then allZero p
  else if code = Config.MEMORY_PRESET then
    decide ((byteAt p 0).toNat ≤ 15) && decide ((byteAt p 1).toNat ≤ 15) && allZero (p.drop 2)
  else if code = Config.BORDER_PRESET then decide ((byteAt p 0).toNat ≤ 15) && allZero (p.drop 1)
  else if code = Config.TILE_NORMAL then tilePayloadOk p
  else if code = Config.SCROLL_PRESET then scrollPayloadOk p
  else if code = Config.SCROLL_COPY then scrollPayloadOk p
  else if code = Config.LOAD_CLUT_LOW then clutPayloadOk p
  else if code = Config.LOAD_CLUT_HIGH then clutPayloadOk p
  else if code = Config.TILE_XOR then tilePayloadOk p
  else false

/-- `wellFormed(b)` (R55). A reserved code meets no payload constraint, so it is not well-formed. -/
def wellFormed (P : Params) (b : List Byte) : Bool :=
  b.length == 24 && modeOf b == P.modeBits && parityOk P b && payloadOk (codeOf b) (payloadOf b)

/-! ### Decoding -/

/-- Decode a packet body, an instruction code and 16 payload bytes, whose mode and parity are not looked at. -/
def decodeBody (code : BitVec 6) (p : List Byte) : Except PacketDefect Instr :=
  if p.length = 16 then
    match decodeFields code p with
    | .reserved r => .error (.reservedCode r)
    | .instr i => if payloadOk code p then .ok i else .error .field
  else .error .length

/-- The instruction of a 24-byte packet, whatever its mode and parity. -/
def decode (b : List Byte) : Except PacketDefect Instr :=
  if b.length = 24 then decodeBody (codeOf b) (payloadOf b) else .error .length

/-- The instruction of a well-formed packet, its mode and parity checked too (R55, R66). -/
def decodeSealed (P : Params) (b : List Byte) : Except PacketDefect Instr :=
  match decode b with
  | .error d => .error d
  | .ok i =>
    if modeOf b = P.modeBits then (if parityOk P b then .ok i else .error .parity) else .error .mode

/-! ### Encoding -/

/-- The two bytes of a colour: `c[11:6]`, then `c[5:0]` (R54). -/
def splitColor (c : Color) : List Byte := [(c.extractLsb' 6 6).setWidth 8, (c.setWidth 6).setWidth 8]

/-- A scroll command beside its fine offset: `(cmd << 4) | off` (R53, D7). -/
def scrollByte (cmd off : Byte) : Byte := (cmd <<< 4) ||| off

/-- The payload of a tile packet (R52). -/
def tilePayload (a b : ColorIndex) (row : BitVec 5) (col : BitVec 6) (rows : Vector (BitVec 6) 12) : List Byte :=
  a.setWidth 8 :: b.setWidth 8 :: row.setWidth 8 :: col.setWidth 8 :: rows.toList.map (·.setWidth 8)

/-- The payload of a scroll packet, before its zero bytes (R53). -/
def scrollPayload (color : ColorIndex) (hCmd : BitVec 2) (hOff : BitVec 3) (vCmd : BitVec 2) (vOff : BitVec 4) :
    List Byte :=
  [color.setWidth 8, scrollByte (hCmd.setWidth 8) (hOff.setWidth 8), scrollByte (vCmd.setWidth 8) (vOff.setWidth 8)]

/-- The payload of a palette load (R54). -/
def clutPayload (colors : Vector Color 8) : List Byte := colors.toList.flatMap splitColor

/-- The code and the 16 payload bytes of a packet instruction (R47, R49 to R54); none for a host command (R57). -/
def encodeBody : Instr → Option (BitVec 6 × List Byte)
  | .noop => some (Config.NOOP, pad16 [])
  | .memoryPreset color rep => some (Config.MEMORY_PRESET, pad16 [color.setWidth 8, rep.setWidth 8])
  | .borderPreset color => some (Config.BORDER_PRESET, pad16 [color.setWidth 8])
  | .tileNormal a b row col rows => some (Config.TILE_NORMAL, tilePayload a b row col rows)
  | .scrollPreset color hCmd hOff vCmd vOff =>
    some (Config.SCROLL_PRESET, pad16 (scrollPayload color hCmd hOff vCmd vOff))
  | .scrollCopy color hCmd hOff vCmd vOff =>
    some (Config.SCROLL_COPY, pad16 (scrollPayload color hCmd hOff vCmd vOff))
  | .loadClutLow colors => some (Config.LOAD_CLUT_LOW, clutPayload colors)
  | .loadClutHigh colors => some (Config.LOAD_CLUT_HIGH, clutPayload colors)
  | .tileXor a b row col rows => some (Config.TILE_XOR, tilePayload a b row col rows)
  | .encodePacket _ _ => none
  | .setScreenColor _ => none
  | .setBorderColor _ => none
  | .writeTile _ _ _ _ _ _ => none
  | .tileBlit _ _ _ _ _ => none
  | .xorBlit _ _ _ _ _ => none
  | .setCursor _ _ => none
  | .advanceCursor => none
  | .textTile _ _ _ _ => none
  | .printScreen _ _ => none
  | .scroll _ _ _ _ => none
  | .smoothScroll _ => none
  | .paletteLow _ _ => none
  | .paletteHigh _ _ => none
  | .fadeIn _ _ => none
  | .fadeOut _ _ => none
  | .scrollImageUp _ _ => none
  | .newBuffer => none
  | .getBuffer => none
  | .delayTicks _ => none
  | .delaySeconds _ => none

/-- The 24 bytes of a packet instruction (R45); none for a host command (R57). -/
def encode (P : Params) (i : Instr) : Option (List Byte) :=
  (encodeBody i).map fun cp => packetBytes P cp.1 cp.2

/-! ### The table's numbering -/

/-- The 24 bytes whose bits are the low `nbits` bits of `w`, byte 0 holding bits 7..0, and every bit above them 0. -/
def tableBytes (nbits w : Nat) : List Byte :=
  (List.range 24).map fun k => BitVec.ofNat 8 ((w % 2 ^ nbits) >>> (8 * k))

/-- What the decoder reads from an instruction whose bits are `w`, numbered as spec/opcode_table.json numbers them. The
table fixes only byte 0's low six bits (mask 63): mode and parity are the stream's own and are not looked at here. -/
def decodeTableWord (nbits w : Nat) : Option Instr := (decode (tableBytes nbits w)).toOption

end Sys2Proof
end

