-- ==== Sys2Proof/Machine/State.lean ====
section
/-! DEFINITION. The state of a session (spec/10_state.md R13), the model's own host port beside it, the reasons a step
can stop, the state right after reset (R28) and one setter for each group of fields. -/

namespace Sys2Proof.Machine

/-- A canvas cell: `undef` (none) or a 4-bit palette index (R16, R17). -/
abbrev Cell := Option ColorIndex

/-- The framebuffer's cells, `canvas[y][x]` for line y in 0..215 and column x in 0..299 (R13, R16). Every cell has one
place, so equal canvases are equal data (log entry 8). -/
abbrev Canvas := Vector (Vector Cell 300) 216

/-- The palette register file: 16 entries of `undef` (none) or a 12-bit colour (R20). -/
abbrev Palette := Vector (Option Color) 16

/-- `FB(S)`, the framebuffer state: the first eight fields of R13. -/
structure Framebuffer where
  /-- The framebuffer (R16). -/
  canvas : Canvas
  /-- The last colour of a MEMORY_PRESET (R18). -/
  screenColor : Option ColorIndex
  /-- The border colour (R19). -/
  border : Option ColorIndex
  /-- The active palette (R20). -/
  palette : Palette
  /-- Horizontal fine scroll offset, 0..5 pixels (R21). -/
  hOff : Fin 6
  /-- Vertical fine scroll offset, 0..11 pixels (R21). -/
  vOff : Fin 12
  /-- Horizontal coarse scroll offset, 0..49 tiles (R22). -/
  hTile : Fin 50
  /-- Vertical coarse scroll offset, 0..17 tiles (R22). -/
  vTile : Fin 18
deriving DecidableEq, Repr

/-- The four errors of a host command (R114). -/
inductive CommandError where
  /-- Payload exceeds the packet, or a malformed pixel list or character. -/
  | invalidPayload
  /-- A tile, cursor, step or image outside its grid. -/
  | outOfBounds
  /-- A colour index, a colour or a palette length outside its range. -/
  | paletteRangeError
  /-- Fewer colours than required and no way to fill the rest. -/
  | ambiguousFill
deriving DecidableEq, Repr

/-- What a host command returns (R11 `return`, R26, R114). -/
inductive Result where
  /-- The command succeeded and has no value. -/
  | ok
  /-- The command succeeded and returned bytes (`encodePacket` R60, `getBuffer` R110). -/
  | bytes (value : List Byte)
  /-- The command raised an error. -/
  | error (e : CommandError)
deriving DecidableEq, Repr

/-- A host command: an instruction of the command set (R57), never one of the nine packet instructions. -/
structure Command where
  /-- The command with its operands. -/
  instr : Instr
  /-- It is no packet instruction. -/
  isCommand : instr.isPacket = false
deriving DecidableEq, Repr

/-- A packet of a foreign stream, for replay (R77). -/
inductive ForeignPacket where
  /-- A packet given by its code and its 16 payload bytes; mode and parity are the stream's own. -/
  | body (code : BitVec 6) (payload : List Byte)
  /-- A packet given by its 24 bytes. -/
  | whole (bytes : List Byte)
deriving DecidableEq, Repr

/-- What the outside asks of the machine, oldest first (log entry 5). A session has a host, and a host can issue commands
and do nothing else (R6). A model that replays a foreign stream by `Apply` (R66, R77) is no session. -/
inductive Pending where
  /-- A session: the commands its host has issued. -/
  | host (commands : List Command)
  /-- A replay: the packets of the foreign stream. -/
  | replay (packets : List ForeignPacket)
deriving DecidableEq, Repr

/-- The state of one session (R13, R124), and the two fields of the model's own that stand for the call interface. A
replay of a foreign stream uses the first field and has the others as they stood (R66). -/
structure State where
  /-- `FB(S)` (R13). -/
  fb : Framebuffer
  /-- Text cursor column, 0..48 (R24). -/
  cursorCol : Fin 49
  /-- Text cursor row, 0..16 (R24). -/
  cursorRow : Fin 17
  /-- The output buffer, a list of bytes in emission order (R25). -/
  buffer : List Byte
  /-- MODEL'S OWN: the commands a session's host has issued, or the packets of a replay (log entry 5). -/
  pending : Pending
  /-- MODEL'S OWN: what the last host command returned (log entry 6). -/
  result : Option Result
deriving DecidableEq, Repr

/-- The faults of the machine: there are none. The encoder takes no trap and never stops (R119, R120); an error is a
result, after which the host may issue any command (R113, R120). -/
inductive Fault
deriving DecidableEq, Repr

/-- Why a step has no next state. -/
inductive Refusal where
  /-- Raised by `exec` alone, for an instruction without a meaning. Safe: the run stops. No arm raises it. -/
  | notModelled (mnemonic : String)
  /-- Raised when a packet that is not well-formed is replayed; the spec refuses it too (R77, D25). Safe: the run stops. -/
  | notWellFormed (d : PacketDefect)
deriving DecidableEq, Repr

/-- `FB(S0)` (R28): everything the source calls "undefined/black" is `undef`, and the offsets are 0 (D10). -/
def Framebuffer.reset : Framebuffer where
  canvas := Vector.replicate 216 (Vector.replicate 300 none)
  screenColor := none
  border := none
  palette := Vector.replicate 16 none
  hOff := 0
  vOff := 0
  hTile := 0
  vTile := 0

/-- `S0` (R28, R126): a session of which nothing is asked and which has returned nothing yet. -/
def State.reset : State where
  fb := Framebuffer.reset
  cursorCol := 0
  cursorRow := 0
  buffer := []
  pending := .host []
  result := none

/-- Replace the framebuffer state. -/
def State.setFb (s : State) (fb : Framebuffer) : State := { s with fb := fb }

/-- Replace the text cursor. -/
def State.setCursor (s : State) (col : Fin 49) (row : Fin 17) : State := { s with cursorCol := col, cursorRow := row }

/-- Replace the output buffer. -/
def State.setBuffer (s : State) (buffer : List Byte) : State := { s with buffer := buffer }

/-- Replace what the outside still asks. -/
def State.setPending (s : State) (pending : Pending) : State := { s with pending := pending }

/-- Replace what the last host command returned. -/
def State.setResult (s : State) (result : Option Result) : State := { s with result := result }

/-- The form of the one memory that grows: the buffer holds whole packets only (R25, R30, R36). The canvas and the
palette have their form by their types. -/
abbrev Memory.wf (s : State) : Prop := s.buffer.length % 24 = 0

end Sys2Proof.Machine
end

