-- ==== Sys2Proof/Machine/Ops.lean ====
section
/-! DEFINITION. The named operations over the canvas, the palette and the buffer; the effect of each packet on the
framebuffer (spec/40_packet_codec.md R66 to R76); `Issue` (R65) and `Pad` (spec/44_stream.md R111); how a command answers,
an error among them (spec/60_exceptions.md R113 to R120), which is all the encoder has for taking an exception; and how
a packet of a foreign stream is turned into an instruction. -/

namespace Sys2Proof.Machine

/-! ### Canvas and tile indexer -/

/-- `canvas[y][x]`; there is no cell outside the 300×216 canvas (R16, R33). -/
def pixelAt (c : Canvas) (y x : Nat) : Cell :=
  if h : y < 216 ∧ x < 300 then (c.get ⟨y, h.1⟩).get ⟨x, h.2⟩ else none

/-- The canvas whose cell `canvas[y][x]` is `f y x`: "for y in 0..215, x in 0..299". -/
def canvasOf (f : Nat → Nat → Cell) : Canvas := tabulate 216 fun y => tabulate 300 fun x => f y x

/-- `tilePixel(r, c, i, j)`: the pixel (x, y) at column offset i and line offset j of tile (r, c) (R79). -/
def tilePixel (r c i j : Nat) : Nat × Nat := (6 * c + i, 12 * r + j)

/-- `tileOf(x, y)`: tile row, tile column, column offset and line offset of a pixel (R79). -/
def tileOf (x y : Nat) : Nat × Nat × Nat × Nat := (y / 12, x / 6, x % 6, y % 12)

/-- The linear index of pixel (x, y) (R33). -/
def linearIndex (x y : Nat) : Nat := y * 300 + x

/-- The bit of the pixel at column offset i and line offset j: `rows[j][5 - i]`, bit 5 the leftmost pixel (R80). -/
def pixelBit (rows : Vector (BitVec 6) 12) (i j : Nat) : Bool := (rows.toList.getD j 0).getLsbD (5 - i)

/-- `view(S)[y][x]`, the visible content (R23). -/
def view (fb : Framebuffer) (y x : Nat) : Cell :=
  pixelAt fb.canvas ((y + fb.vOff.val) % 216) ((x + fb.hOff.val) % 300)

/-! ### Scrolling (R74) -/

/-- The mode of a shift: fill the exposed strip with a colour, or wrap the content around. -/
inductive Edge where
  | fill (color : ColorIndex)
  | wrap
deriving DecidableEq, Repr

/-- `edge(C, yy, xx, m)` (R74). -/
def edgeCell (c : Canvas) (yy xx : Nat) (m : Edge) : Cell :=
  match m with
  | .wrap => pixelAt c yy xx
  | .fill color => some color

/-- The horizontal half of `Shift`: command 2 moves the content left, 1 right, by 6 pixels (R74). -/
def shiftH (c : Canvas) (hCmd : BitVec 2) (m : Edge) : Canvas :=
  if hCmd = 2 then
    canvasOf fun y x => if x < 294 then pixelAt c y (x + 6) else edgeCell c y (x - 294) m
  else if hCmd = 1 then
    canvasOf fun y x => if 6 ≤ x then pixelAt c y (x - 6) else edgeCell c y (x + 294) m
  else c

/-- The vertical half of `Shift`: command 2 moves the content up, 1 down, by 12 lines (R74). -/
def shiftV (c : Canvas) (vCmd : BitVec 2) (m : Edge) : Canvas :=
  if vCmd = 2 then
    canvasOf fun y x => if y < 204 then pixelAt c (y + 12) x else edgeCell c (y - 204) x m
  else if vCmd = 1 then
    canvasOf fun y x => if 12 ≤ y then pixelAt c (y - 12) x else edgeCell c (y + 204) x m
  else c

/-- `Shift(C, hCmd, vCmd, m)`: the horizontal move first, then the vertical one (R74). -/
def shiftCanvas (c : Canvas) (hCmd vCmd : BitVec 2) (m : Edge) : Canvas := shiftV (shiftH c hCmd m) vCmd m

/-- `UpdateCounters`, horizontal (R22, R74). -/
def nextHTile (hTile : Fin 50) (hCmd : BitVec 2) : Fin 50 :=
  if hCmd = 2 then Fin.ofNat 50 (hTile.val + 1) else if hCmd = 1 then Fin.ofNat 50 (hTile.val + 49) else hTile

/-- `UpdateCounters`, vertical (R22, R74). -/
def nextVTile (vTile : Fin 18) (vCmd : BitVec 2) : Fin 18 :=
  if vCmd = 2 then Fin.ofNat 18 (vTile.val + 1) else if vCmd = 1 then Fin.ofNat 18 (vTile.val + 17) else vTile

/-! ### The effect of each packet on the framebuffer (R67 to R76) -/

/-- Apply NOOP: no field changes (R67). -/
def applyNoop (fb : Framebuffer) : Framebuffer := fb

/-- Apply MEMORY_PRESET: every cell and the screen colour become `color`; the repeat count changes nothing (R68). -/
def applyMemoryPreset (color : ColorIndex) (_rep : BitVec 4) (fb : Framebuffer) : Framebuffer :=
  { fb with canvas := canvasOf fun _ _ => some color, screenColor := some color }

/-- Apply BORDER_PRESET (R69). -/
def applyBorderPreset (color : ColorIndex) (fb : Framebuffer) : Framebuffer := { fb with border := some color }

/-- The colour a pixel's bit selects: A for 0 and B for 1 (R80). -/
def tileColor (a b : ColorIndex) (rows : Vector (BitVec 6) 12) (i j : Nat) : ColorIndex :=
  if pixelBit rows i j then b else a

/-- Rewrite the 72 cells of tile (row, col) with `f old color`, `color` the one each pixel's bit selects; no other cell
changes. A cell belongs to the tile its `tileOf` names (R79). -/
def drawCells (f : Cell → ColorIndex → Cell) (a b : ColorIndex) (row col : Nat) (rows : Vector (BitVec 6) 12)
    (c : Canvas) : Canvas :=
  canvasOf fun y x =>
    if y / 12 = row ∧ x / 6 = col then f (pixelAt c y x) (tileColor a b rows (x % 6) (y % 12)) else pixelAt c y x

/-- Apply TILE_NORMAL: the selected colours replace the tile's cells (R70). -/
def applyTileNormal (a b : ColorIndex) (row : BitVec 5) (col : BitVec 6) (rows : Vector (BitVec 6) 12)
    (fb : Framebuffer) : Framebuffer :=
  { fb with canvas := drawCells (fun _ v => some v) a b row.toNat col.toNat rows fb.canvas }

/-- Apply TILE_XOR: the selected colours are XORed into the tile's cells, and `undef` stays `undef` (R71). -/
def applyTileXor (a b : ColorIndex) (row : BitVec 5) (col : BitVec 6) (rows : Vector (BitVec 6) 12)
    (fb : Framebuffer) : Framebuffer :=
  { fb with canvas := drawCells (fun old v => old.map (· ^^^ v)) a b row.toNat col.toNat rows fb.canvas }

/-- What SCROLL_PRESET and SCROLL_COPY share: shift, counters, fine offsets (R72, R73). -/
def applyScroll (m : Edge) (hCmd : BitVec 2) (hOff : BitVec 3) (vCmd : BitVec 2) (vOff : BitVec 4)
    (fb : Framebuffer) : Framebuffer :=
  { fb with
    canvas := shiftCanvas fb.canvas hCmd vCmd m
    hTile := nextHTile fb.hTile hCmd
    vTile := nextVTile fb.vTile vCmd
    hOff := Fin.ofNat 6 hOff.toNat
    vOff := Fin.ofNat 12 vOff.toNat }

/-- Apply SCROLL_PRESET: the exposed strip is filled with the packet's colour (R72). -/
def applyScrollPreset (color : ColorIndex) (hCmd : BitVec 2) (hOff : BitVec 3) (vCmd : BitVec 2) (vOff : BitVec 4)
    (fb : Framebuffer) : Framebuffer :=
  applyScroll (.fill color) hCmd hOff vCmd vOff fb

/-- Apply SCROLL_COPY: the content wraps around, and the colour is carried but unused (R73). -/
def applyScrollCopy (_color : ColorIndex) (hCmd : BitVec 2) (hOff : BitVec 3) (vCmd : BitVec 2) (vOff : BitVec 4)
    (fb : Framebuffer) : Framebuffer :=
  applyScroll .wrap hCmd hOff vCmd vOff fb

/-- Load the eight palette entries from `base` on; the other eight are unchanged (R75, R76). -/
def loadHalf (base : Nat) (colors : Vector Color 8) (pal : Palette) : Palette :=
  tabulate 16 fun k => if base ≤ k ∧ k < base + 8 then some (colors.toList.getD (k - base) 0) else pal.toList.getD k none

/-- Apply LOAD_CLUT_LOW: entries 0..7 (R75). -/
def applyLoadClutLow (colors : Vector Color 8) (fb : Framebuffer) : Framebuffer :=
  { fb with palette := loadHalf 0 colors fb.palette }

/-- Apply LOAD_CLUT_HIGH: entries 8..15 (R76). -/
def applyLoadClutHigh (colors : Vector Color 8) (fb : Framebuffer) : Framebuffer :=
  { fb with palette := loadHalf 8 colors fb.palette }

/-- The dispatch of `Apply` on a packet's instruction code and payload (R66), for a payload already known to be
well-formed. -/
def applyPayload (code : BitVec 6) (p : List Byte) (fb : Framebuffer) : Framebuffer :=
  if code = Config.NOOP then applyNoop fb
  else if code = Config.MEMORY_PRESET then applyMemoryPreset (fieldColor p) (fieldSecond p) fb
  else if code = Config.BORDER_PRESET then applyBorderPreset (fieldColor p) fb
  else if code = Config.TILE_NORMAL then
    applyTileNormal (fieldColor p) (fieldSecond p) (fieldRow p) (fieldCol p) (fieldRows p) fb
  else if code = Config.SCROLL_PRESET then
    applyScrollPreset (fieldColor p) (fieldHCmd p) (fieldHOff p) (fieldVCmd p) (fieldVOff p) fb
  else if code = Config.SCROLL_COPY then
    applyScrollCopy (fieldColor p) (fieldHCmd p) (fieldHOff p) (fieldVCmd p) (fieldVOff p) fb
  else if code = Config.LOAD_CLUT_LOW then applyLoadClutLow (fieldColors p) fb
  else if code = Config.LOAD_CLUT_HIGH then applyLoadClutHigh (fieldColors p) fb
  else if code = Config.TILE_XOR then
    applyTileXor (fieldColor p) (fieldSecond p) (fieldRow p) (fieldCol p) (fieldRows p) fb
  else fb

/-- `Apply(S, b)` on the framebuffer state: none where it refuses, which is when `b` is not well-formed (R66, R77). -/
def applyPacket (P : Params) (fb : Framebuffer) (b : List Byte) : Option Framebuffer :=
  if wellFormed P b then some (applyPayload (codeOf b) (payloadOf b) fb) else none

/-! ### Buffer -/

/-- `BufRead(off, n)`: the bytes `S.buffer[off..off+n)` (R32). -/
def bufRead (s : State) (off n : Nat) : List Byte := (s.buffer.drop off).take n

/-- The packets of the stream, packet k the bytes 24k..24k+23 (R25, R29, R56). -/
def packetsOf (s : State) : List (List Byte) := (List.range (s.buffer.length / 24)).map fun k => bufRead s (24 * k) 24

/-- The elapsed time of a session in ticks: the number of packets in the buffer (R122). -/
def elapsedTicks (s : State) : Nat := s.buffer.length / 24

/-- `Issue(instr, payload)`: encode one packet, apply it to the framebuffer and append it to the buffer (R65). It never
fails: commands pass at most 16 bytes, which make a well-formed packet (R78). -/
def issue (P : Params) (code : BitVec 6) (payload : List Byte) (s : State) : State :=
  (s.setFb (applyPayload code (pad16 payload) s.fb)).setBuffer (s.buffer ++ packetBytes P code (pad16 payload))

/-- `Pad(n)`: n times `Issue(NOOP, [])` (R111). -/
def padSlots (P : Params) : Nat → State → State
  | 0, s => s
  | n + 1, s => padSlots P n (issue P Config.NOOP [] s)

/-! ### How a command answers -/

/-- Report an error: the state is left as it was and the error is the command's result (R113, R115, R119). This is all
that raising an error does, and there is no return from it (R120). -/
def raise (e : CommandError) (s : State) : Host.Outcome State Fault Refusal := .next (s.setResult (some (.error e)))

/-- End a command without a value: with its new state and `ok`, or with the error it raised (R11, R115). -/
def answer (s : State) (r : Except CommandError State) : Host.Outcome State Fault Refusal :=
  match r with
  | .ok t => .next (t.setResult (some .ok))
  | .error e => raise e s

/-- End a command that returns bytes and writes no state (R60, R110). -/
def answerBytes (s : State) (r : Except CommandError (List Byte)) : Host.Outcome State Fault Refusal :=
  match r with
  | .ok bytes => .next (s.setResult (some (.bytes bytes)))
  | .error e => raise e s

/-- Run a packet instruction: it reads and writes the framebuffer state only (R66), and one whose fields are out of range
is refused (R77). -/
def runPacket (fieldsOk : Bool) (f : Framebuffer → Framebuffer) (s : State) : Host.Outcome State Fault Refusal :=
  if fieldsOk then .next (s.setFb (f s.fb)) else .refused (.notWellFormed .field)

/-! ### Fetching -/

/-- The instruction of a packet of a foreign stream, or why it is not well-formed. -/
def fetch (P : Params) : ForeignPacket → Except PacketDefect Instr
  | .body code payload => decodeBody code payload
  | .whole bytes => decodeSealed P bytes

/-- The packet of an instruction whose bits are `w`, numbered as spec/opcode_table.json numbers them: its code and
payload. The table's bits hold no mode and no parity, which a body takes from the stream. -/
def tablePacket (nbits w : Nat) : ForeignPacket := .body (codeOf (tableBytes nbits w)) (payloadOf (tableBytes nbits w))

/-- The packets a state still has to replay; a session has none. -/
def State.replayed (s : State) : List ForeignPacket :=
  match s.pending with
  | .host _ => []
  | .replay packets => packets

end Sys2Proof.Machine
end

