-- ==== Sys2Proof/Machine/Operands.lean ====
section
/-! DEFINITION. The operand forms of the commands and the checks on them, each in the order of spec/60_exceptions.md R116
and R117: the first check that fails is the error the command reports. -/

namespace Sys2Proof.Machine

/-! ### Default operands (R57): an optional operand that is omitted takes the default shown -/

/-- `scroll direction, color` with `step` none and `wrap` false unless they are given. -/
def scrollCall (direction : Direction) (color : Nat) (step : Option Nat := none) (wrap : Bool := false) : Instr :=
  .scroll direction color step wrap

/-- `paletteLow palette` with `duplicates` false unless it is given. -/
def paletteLowCall (palette : List Nat) (duplicates : Bool := false) : Instr := .paletteLow palette duplicates

/-- `paletteHigh palette` with `duplicates` false unless it is given. -/
def paletteHighCall (palette : List Nat) (duplicates : Bool := false) : Instr := .paletteHigh palette duplicates

/-! ### Fields of packet instructions -/

/-- The tile address of a packet lies in the grid (R55, R70). -/
def tileFieldsOk (row : BitVec 5) (col : BitVec 6) : Bool := decide (row.toNat ≤ 17 ∧ col.toNat ≤ 49)

/-- The scroll fields of a packet are in range (R55). -/
def scrollFieldsOk (hCmd : BitVec 2) (hOff : BitVec 3) (vCmd : BitVec 2) (vOff : BitVec 4) : Bool :=
  decide (hCmd.toNat ≤ 2 ∧ hOff.toNat ≤ 5 ∧ vCmd.toNat ≤ 2 ∧ vOff.toNat ≤ 11)

/-! ### Checks of command operands -/

/-- The checks of `encodePacket`: length, then elements (R60). -/
def checkPayload (payload : List Nat) : Except CommandError Unit :=
  if 16 < payload.length then .error .invalidPayload
  else if payload.all fun v => decide (v ≤ 255) then .ok ()
  else .error .invalidPayload

/-- A colour index operand (R34, R81). -/
def checkIndex (index : Nat) : Except CommandError Unit :=
  if 15 < index then .error .paletteRangeError else .ok ()

/-- The checks of `writeTile`: tile address, colours, pixel list (R83). -/
def checkTile (row col colorA colorB : Nat) (pixelBits : List Nat) : Except CommandError Unit :=
  if 17 < row ∨ 49 < col then .error .outOfBounds
  else if 15 < colorA ∨ 15 < colorB then .error .paletteRangeError
  else if pixelBits.length = 12 then
    (if pixelBits.all fun v => decide (v ≤ 63) then .ok () else .error .invalidPayload)
  else .error .invalidPayload

/-- The check of `setCursor` (R86). -/
def checkCursor (x y : Nat) : Except CommandError Unit :=
  if Config.TEXT_COLS ≤ x ∨ Config.TEXT_ROWS ≤ y then .error .outOfBounds else .ok ()

/-- A character code operand (R91, R92). -/
def checkChar (character : Nat) : Except CommandError Unit :=
  if 255 < character then .error .invalidPayload else .ok ()

/-- Every character code of a text (R92). -/
def checkText (text : List Nat) : Except CommandError Unit :=
  if text.all fun ch => decide (ch ≤ 255) then .ok () else .error .invalidPayload

/-- The palette operand of a fade: fewer than 16 colours, more than 16, a colour above 0xFFF (R104). -/
def checkFade (palette : List Nat) : Except CommandError Unit :=
  if palette.length < 16 then .error .ambiguousFill
  else if 16 < palette.length then .error .paletteRangeError
  else if palette.all fun v => decide (v ≤ 0xFFF) then .ok ()
  else .error .paletteRangeError

/-- The image operand of `scrollImageUp`: its shape, then its pixels (R107). -/
def checkImage (image : List (List Nat)) : Except CommandError Unit :=
  if image.length = 0 ∨ image.length % 12 ≠ 0 then .error .outOfBounds
  else if image.all fun line => decide (line.length = 300) then
    (if image.all fun line => line.all fun v => decide (v ≤ 15) then .ok () else .error .paletteRangeError)
  else .error .outOfBounds

/-! ### Directions (R93) -/

/-- `hCmd` and `vCmd` of a direction (R93). -/
def scrollCommand : Direction → Nat × Nat
  | .left => (2, 0)
  | .right => (1, 0)
  | .up => (0, 2)
  | .down => (0, 1)

/-- Whether a direction's axis is the horizontal one (R95). -/
def isHorizontal : Direction → Bool
  | .left => true
  | .right => true
  | .up => false
  | .down => false

/-- `hCmd`, `hOff`, `vCmd` and `vOff` of a smooth scroll: one pixel in the direction, with a coarse wrap move where the
fine offset passes the end of its range (R96). -/
def smoothFields (direction : Direction) (hOff vOff : Nat) : Nat × Nat × Nat × Nat :=
  match direction with
  | .left => if hOff < 5 then (0, hOff + 1, 0, vOff) else (2, 0, 0, vOff)
  | .right => if 0 < hOff then (0, hOff - 1, 0, vOff) else (1, 5, 0, vOff)
  | .up => if vOff < 11 then (0, hOff, 0, vOff + 1) else (0, hOff, 2, 0)
  | .down => if 0 < vOff then (0, hOff, 0, vOff - 1) else (0, hOff, 1, 11)

/-- The payload of a scroll packet from natural numbers: `[color, (hc << 4) | ho, (vc << 4) | vo]` (R94, R96). -/
def scrollBytes (color hc ho vc vo : Nat) : List Byte :=
  [BitVec.ofNat 8 color, BitVec.ofNat 8 ((hc <<< 4) ||| ho), BitVec.ofNat 8 ((vc <<< 4) ||| vo)]

/-! ### Colours -/

/-- The prior value of palette entry `k` (R102); none when it is `undef`. -/
def paletteEntry (pal : Palette) (k : Nat) : Option Nat := (pal.toList.getD k none).map (·.toNat)

/-- The entries `base + n .. base + 7` that a short list retains (R102). -/
def retained (pal : Palette) (base n : Nat) : List (Option Nat) :=
  ((List.range 8).drop n).map fun k => paletteEntry pal (base + k)

/-- `HalfSlots(palette, duplicates, base)`: the eight colours of a half load, or the error (R102). -/
def halfSlots (pal : Palette) (palette : List Nat) (duplicates : Bool) (base : Nat) : Except CommandError (List Nat) :=
  if 8 < palette.length then .error .paletteRangeError
  else if palette.all fun v => decide (v ≤ 0xFFF) then
    if palette.length = 8 then .ok palette
    else if duplicates then
      if palette.length = 0 then .error .ambiguousFill
      else .ok ((List.range 8).map fun k => palette.getD (k % palette.length) 0)
    else if (retained pal base palette.length).all (·.isSome) then
      .ok (palette ++ (retained pal base palette.length).filterMap id)
    else .error .ambiguousFill
  else .error .paletteRangeError

/-- `PackColors(c)`: two bytes a colour, `c >> 6` and `c & 0x3F` (R99). -/
def packColors (colors : List Nat) : List Byte :=
  colors.flatMap fun c => [BitVec.ofNat 8 (c >>> 6), BitVec.ofNat 8 (c &&& 0x3F)]

/-- `Scale(v, num, den)`: each 4-bit channel by num/den, rounding down (R103). -/
def scaleColor (v num den : Nat) : Nat :=
  ((((v >>> 8) % 16) * num / den) <<< 8) ||| ((((v >>> 4) % 16) * num / den) <<< 4) ||| ((v % 16) * num / den)

/-- The pixel rows of a character's glyph as natural numbers (R91). -/
def glyphRows (P : Params) (character : Nat) : List Nat := (P.font (BitVec.ofNat 8 character)).toList.map (·.toNat)

end Sys2Proof.Machine
end

