-- ==== Sys2Proof/Machine/Codec.lean ====
section
/-! DEFINITION. The codec command `encodePacket` (spec/40_packet_codec.md R60). -/

namespace Sys2Proof.Machine

/-- `encodePacket(instr, payload)`: one packet from an instruction, masked to 6 bits and never checked, and a payload of
at most 16 bytes, zero-filled to 16 (R60). -/
def encodePacket (P : Params) (instr : Nat) (payload : List Nat) : Except CommandError (List Byte) :=
  match checkPayload payload with
  | .error e => .error e
  | .ok _ => .ok (packetBytes P (BitVec.ofNat 6 instr) (pad16 (payload.map (BitVec.ofNat 8))))

/-- As a host command it returns the 24 bytes, appends nothing and writes no state (R60). -/
def execEncodePacket (instr : Nat) (payload : List Nat) (s : State) : Host.Outcome State Fault Refusal :=
  answerBytes s (encodePacket Config.live instr payload)

end Sys2Proof.Machine
end

