-- ==== Sys2Proof/Machine/Scroll.lean ====
section
/-! DEFINITION. The scroll commands (spec/42_text_scroll.md R93 to R96). -/

namespace Sys2Proof.Machine

/-- The packet a scroll emits: SCROLL_COPY when it wraps and SCROLL_PRESET when it does not (R94). -/
def scrollCode (wrap : Bool) : BitVec 6 := if wrap then Config.SCROLL_COPY else Config.SCROLL_PRESET

/-- The coarse scroll: one tile in the direction, the fine offsets carried over (R94). -/
def coarseScroll (P : Params) (direction : Direction) (color : Nat) (wrap : Bool) (s : State) : State :=
  issue P (scrollCode wrap)
    (scrollBytes color (scrollCommand direction).1 s.fb.hOff.val (scrollCommand direction).2 s.fb.vOff.val) s

/-- `scroll(direction, color, step, wrap)`: coarse without a step (R94); with one, the fine offset of the direction's
axis becomes the step and nothing moves (R95). -/
def scroll (P : Params) (direction : Direction) (color : Nat) (step : Option Nat) (wrap : Bool) (s : State) :
    Except CommandError State :=
  match checkIndex color with
  | .error e => .error e
  | .ok _ =>
    match step with
    | none => .ok (coarseScroll P direction color wrap s)
    | some n =>
      if isHorizontal direction then
        if 5 < n then .error .outOfBounds
        else .ok (issue P (scrollCode wrap) (scrollBytes color 0 n 0 s.fb.vOff.val) s)
      else if 11 < n then .error .outOfBounds
      else .ok (issue P (scrollCode wrap) (scrollBytes color 0 s.fb.hOff.val 0 n) s)

/-- `smoothScroll(direction)`: one SCROLL_COPY with fill byte 0 (R96). -/
def smoothScroll (P : Params) (direction : Direction) (s : State) : State :=
  let (hc, ho, vc, vo) := smoothFields direction s.fb.hOff.val s.fb.vOff.val
  issue P Config.SCROLL_COPY (scrollBytes 0 hc ho vc vo) s

/-- The meaning of `scroll` (R94, R95). -/
def execScroll (direction : Direction) (color : Nat) (step : Option Nat) (wrap : Bool) (s : State) :
    Host.Outcome State Fault Refusal :=
  answer s (scroll Config.live direction color step wrap s)

/-- The meaning of `smoothScroll`; it raises no error (R96). -/
def execSmoothScroll (direction : Direction) (s : State) : Host.Outcome State Fault Refusal :=
  answer s (.ok (smoothScroll Config.live direction s))

end Sys2Proof.Machine
end

