-- ==== Sys2Proof/Machine/Screen.lean ====
section
/-! DEFINITION. The colour, tile and cursor commands (spec/41_screen_tile.md R81 to R89). -/

namespace Sys2Proof.Machine

/-- `setScreenColor(index)`: one MEMORY_PRESET with repeat 0 (R81). -/
def setScreenColor (P : Params) (index : Nat) (s : State) : Except CommandError State :=
  match checkIndex index with
  | .error e => .error e
  | .ok _ => .ok (issue P Config.MEMORY_PRESET [BitVec.ofNat 8 index, 0] s)

/-- `setBorderColor(index)`: one BORDER_PRESET (R82). -/
def setBorderColor (P : Params) (index : Nat) (s : State) : Except CommandError State :=
  match checkIndex index with
  | .error e => .error e
  | .ok _ => .ok (issue P Config.BORDER_PRESET [BitVec.ofNat 8 index] s)

/-- The one packet of a tile write whose operands are in range (R83). -/
def drawTile (P : Params) (row col colorA colorB : Nat) (pixelBits : List Nat) (xor : Bool) (s : State) : State :=
  issue P (if xor then Config.TILE_XOR else Config.TILE_NORMAL)
    (([colorA, colorB, row, col] ++ pixelBits).map (BitVec.ofNat 8)) s

/-- `writeTile(row, col, colorA, colorB, pixelBits, xor)` (R83). -/
def writeTile (P : Params) (row col colorA colorB : Nat) (pixelBits : List Nat) (xor : Bool) (s : State) :
    Except CommandError State :=
  match checkTile row col colorA colorB pixelBits with
  | .error e => .error e
  | .ok _ => .ok (drawTile P row col colorA colorB pixelBits xor s)

/-- `setCursor(x, y)`: bookkeeping only, no packet (R86). -/
def setCursor (x y : Nat) (s : State) : Except CommandError State :=
  match checkCursor x y with
  | .error e => .error e
  | .ok _ => .ok (s.setCursor (Fin.ofNat 49 x) (Fin.ofNat 17 y))

/-- `TextScroll()`: the coarse scroll up with colour `TEXT_SCROLL_FILL` (R89). -/
def textScroll (P : Params) (s : State) : State := coarseScroll P .up Config.TEXT_SCROLL_FILL false s

/-- `NewLine()`: to column 0 of the next row, scrolling when there is none (R88). -/
def newLine (P : Params) (s : State) : State :=
  if s.cursorRow.val + 1 < Config.TEXT_ROWS then s.setCursor 0 (Fin.ofNat 17 (s.cursorRow.val + 1))
  else textScroll P (s.setCursor 0 s.cursorRow)

/-- `advanceCursor()`: one cell forward, to a new line after the last column (R87). -/
def advanceCursor (P : Params) (s : State) : State :=
  if s.cursorCol.val + 1 < Config.TEXT_COLS then s.setCursor (Fin.ofNat 49 (s.cursorCol.val + 1)) s.cursorRow
  else newLine P s

/-- The meaning of `setScreenColor` (R81). -/
def execSetScreenColor (index : Nat) (s : State) : Host.Outcome State Fault Refusal :=
  answer s (setScreenColor Config.live index s)

/-- The meaning of `setBorderColor` (R82). -/
def execSetBorderColor (index : Nat) (s : State) : Host.Outcome State Fault Refusal :=
  answer s (setBorderColor Config.live index s)

/-- The meaning of `writeTile` (R83). -/
def execWriteTile (row col colorA colorB : Nat) (pixelBits : List Nat) (xor : Bool) (s : State) :
    Host.Outcome State Fault Refusal :=
  answer s (writeTile Config.live row col colorA colorB pixelBits xor s)

/-- The meaning of `tileBlit`: `writeTile` with `xor` false (R84). -/
def execTileBlit (row col colorA colorB : Nat) (pixelBits : List Nat) (s : State) : Host.Outcome State Fault Refusal :=
  answer s (writeTile Config.live row col colorA colorB pixelBits false s)

/-- The meaning of `xorBlit`: `writeTile` with `xor` true (R85). -/
def execXorBlit (row col colorA colorB : Nat) (pixelBits : List Nat) (s : State) : Host.Outcome State Fault Refusal :=
  answer s (writeTile Config.live row col colorA colorB pixelBits true s)

/-- The meaning of `setCursor` (R86). -/
def execSetCursor (x y : Nat) (s : State) : Host.Outcome State Fault Refusal := answer s (setCursor x y s)

/-- The meaning of `advanceCursor`; it raises no error (R87). -/
def execAdvanceCursor (s : State) : Host.Outcome State Fault Refusal := answer s (.ok (advanceCursor Config.live s))

end Sys2Proof.Machine
end

