-- ==== Sys2Proof/Machine/Image.lean ====
section
/-! DEFINITION. The dominant-colour reduction and `scrollImageUp` (spec/43_palette_fade_image.md R106 to R108). -/

namespace Sys2Proof.Machine

/-- The pixels of a 6×12 block of colour indices, line by line (R106). -/
def blockPixels (block : Nat → Nat → Nat) : List Nat :=
  (List.range 12).flatMap fun j => (List.range 6).map fun i => block j i

/-- `count[v]`: how many pixels of the block are `v` (R106). -/
def countColor (block : Nat → Nat → Nat) (v : Nat) : Nat := (blockPixels block).count v

/-- Among the colours of a list, the one with the largest count; among equal counts the first in the list. -/
def mostFrequent (count : Nat → Nat) : List Nat → Option Nat
  | [] => none
  | v :: rest =>
    match mostFrequent count rest with
    | none => some v
    | some w => if count w ≤ count v then some v else some w

/-- Colour A: the most frequent of 0..15, ties to the smallest (R106). -/
def dominantColor (block : Nat → Nat → Nat) : Nat := (mostFrequent (countColor block) (List.range 16)).getD 0

/-- Colour B: A itself for a one-colour block, else the most frequent colour present other than A, ties to the smallest
(R106). -/
def secondColor (block : Nat → Nat → Nat) : Nat :=
  let a := dominantColor block
  if countColor block a = 72 then a
  else
    (mostFrequent (countColor block)
      ((List.range 16).filter fun v => decide (v ≠ a) && decide (0 < countColor block v))).getD a

/-- `rows[j]`: bit 5 − i is 0 where the pixel is A and 1 elsewhere (R106). -/
def reducedRows (block : Nat → Nat → Nat) : List Nat :=
  let a := dominantColor block
  (List.range 12).map fun j =>
    ((List.range 6).map fun i => (if block j i = a then 0 else 1) <<< (5 - i)).sum

/-- `Reduce(block)`: the two colours and the pixel rows of a two-colour tile (R106). -/
def reduce (block : Nat → Nat → Nat) : Nat × Nat × List Nat := (dominantColor block, secondColor block, reducedRows block)

/-- `imageTile(image, k, c)[j][i] = image[12k + j][6c + i]` (R107). -/
def imageTile (image : List (List Nat)) (k c : Nat) : Nat → Nat → Nat :=
  fun j i => (image.getD (12 * k + j) []).getD (6 * c + i) 0

/-- Draw the reduction of image tile (k, c) into tile (`IMAGE_ENTRY_ROW`, c) (R108). -/
def drawImageTile (P : Params) (image : List (List Nat)) (k : Nat) (s : State) (c : Nat) : State :=
  let (a, b, rows) := reduce (imageTile image k c)
  drawTile P Config.IMAGE_ENTRY_ROW c a b rows false s

/-- `n` times: one smooth scroll up, then padding to `max(speed, 1)` slots (R108). -/
def scrollLines (P : Params) (speed : Nat) : Nat → State → State
  | 0, s => s
  | n + 1, s => scrollLines P speed n (padSlots P (max speed 1 - 1) (smoothScroll P .up s))

/-- One tile row of the image: its 50 tiles, then 12 scroll lines (R108). -/
def showImageRow (P : Params) (image : List (List Nat)) (speed : Nat) (s : State) (k : Nat) : State :=
  scrollLines P speed 12 ((List.range 50).foldl (drawImageTile P image k) s)

/-- `scrollImageUp(image, speed)`: the image is checked before any packet; then its tile rows in order (R108). -/
def scrollImageUp (P : Params) (image : List (List Nat)) (speed : Nat) (s : State) : Except CommandError State :=
  match checkImage image with
  | .error e => .error e
  | .ok _ => .ok ((List.range (image.length / 12)).foldl (showImageRow P image speed) s)

/-- The meaning of `scrollImageUp` (R108). -/
def execScrollImageUp (image : List (List Nat)) (speed : Nat) (s : State) : Host.Outcome State Fault Refusal :=
  answer s (scrollImageUp Config.live image speed s)

end Sys2Proof.Machine
end

