-- ==== Sys2Proof/Machine/Packets.lean ====
section
/-! DEFINITION. The meanings of the nine packet instructions: `Apply` on the session's framebuffer state
(spec/40_packet_codec.md R66 to R77). None of them touches the buffer, the cursor or what the host port holds. -/

namespace Sys2Proof.Machine

/-- NOOP (R67). -/
def execNoop (s : State) : Host.Outcome State Fault Refusal := runPacket true applyNoop s

/-- MEMORY_PRESET (R68). -/
def execMemoryPreset (color : ColorIndex) (rep : BitVec 4) (s : State) : Host.Outcome State Fault Refusal :=
  runPacket true (applyMemoryPreset color rep) s

/-- BORDER_PRESET (R69). -/
def execBorderPreset (color : ColorIndex) (s : State) : Host.Outcome State Fault Refusal :=
  runPacket true (applyBorderPreset color) s

/-- TILE_NORMAL (R70); a tile address outside the grid is refused (R77). -/
def execTileNormal (a b : ColorIndex) (row : BitVec 5) (col : BitVec 6) (rows : Vector (BitVec 6) 12) (s : State) :
    Host.Outcome State Fault Refusal :=
  runPacket (tileFieldsOk row col) (applyTileNormal a b row col rows) s

/-- TILE_XOR (R71); a tile address outside the grid is refused (R77). -/
def execTileXor (a b : ColorIndex) (row : BitVec 5) (col : BitVec 6) (rows : Vector (BitVec 6) 12) (s : State) :
    Host.Outcome State Fault Refusal :=
  runPacket (tileFieldsOk row col) (applyTileXor a b row col rows) s

/-- SCROLL_PRESET (R72); a reserved command or an offset outside its range is refused (R77). -/
def execScrollPreset (color : ColorIndex) (hCmd : BitVec 2) (hOff : BitVec 3) (vCmd : BitVec 2) (vOff : BitVec 4)
    (s : State) : Host.Outcome State Fault Refusal :=
  runPacket (scrollFieldsOk hCmd hOff vCmd vOff) (applyScrollPreset color hCmd hOff vCmd vOff) s

/-- SCROLL_COPY (R73); a reserved command or an offset outside its range is refused (R77). -/
def execScrollCopy (color : ColorIndex) (hCmd : BitVec 2) (hOff : BitVec 3) (vCmd : BitVec 2) (vOff : BitVec 4)
    (s : State) : Host.Outcome State Fault Refusal :=
  runPacket (scrollFieldsOk hCmd hOff vCmd vOff) (applyScrollCopy color hCmd hOff vCmd vOff) s

/-- LOAD_CLUT_LOW (R75). -/
def execLoadClutLow (colors : Vector Color 8) (s : State) : Host.Outcome State Fault Refusal :=
  runPacket true (applyLoadClutLow colors) s

/-- LOAD_CLUT_HIGH (R76). -/
def execLoadClutHigh (colors : Vector Color 8) (s : State) : Host.Outcome State Fault Refusal :=
  runPacket true (applyLoadClutHigh colors) s

/-- The replay of a list of packets from a framebuffer state, `foldl Apply` (R29); none where a packet is refused. -/
def replay (P : Params) : Framebuffer → List (List Byte) → Option Framebuffer
  | fb, [] => some fb
  | fb, b :: rest =>
    match applyPacket P fb b with
    | none => none
    | some fb' => replay P fb' rest

end Sys2Proof.Machine
end

