-- ==== Sys2Proof/Machine/PaletteCmd.lean ====
section
/-! DEFINITION. The palette loads and the fades (spec/43_palette_fade_image.md R99 to R105). -/

namespace Sys2Proof.Machine

/-- The LOAD_CLUT_LOW packet of eight colours (R100). -/
def loadLow (P : Params) (colors : List Nat) (s : State) : State := issue P Config.LOAD_CLUT_LOW (packColors colors) s

/-- The LOAD_CLUT_HIGH packet of eight colours (R101). -/
def loadHigh (P : Params) (colors : List Nat) (s : State) : State := issue P Config.LOAD_CLUT_HIGH (packColors colors) s

/-- `paletteLow(palette, duplicates)` (R100). -/
def paletteLow (P : Params) (palette : List Nat) (duplicates : Bool) (s : State) : Except CommandError State :=
  match halfSlots s.fb.palette palette duplicates 0 with
  | .error e => .error e
  | .ok slots => .ok (loadLow P slots s)

/-- `paletteHigh(palette, duplicates)` (R101). -/
def paletteHigh (P : Params) (palette : List Nat) (duplicates : Bool) (s : State) : Except CommandError State :=
  match halfSlots s.fb.palette palette duplicates 8 with
  | .error e => .error e
  | .ok slots => .ok (loadHigh P slots s)

/-- One step of a fade: the padding first, then all 16 entries in two packets (R104). -/
def fadeStep (P : Params) (speed : Nat) (colors : List Nat) (s : State) : State :=
  loadHigh P (colors.drop 8) (loadLow P (colors.take 8) (padSlots P (max speed 2 - 2) s))

/-- The colours of a fade step: the palette scaled to `level` of `FADE_STEPS` (R103, R104). -/
def fadeColors (palette : List Nat) (level : Nat) : List Nat := palette.map fun v => scaleColor v level Config.FADE_STEPS

/-- The steps of a fade through the given levels (R104, R105). -/
def fadeThrough (P : Params) (speed : Nat) (palette levels : List Nat) (s : State) : State :=
  levels.foldl (fun s level => fadeStep P speed (fadeColors palette level) s) s

/-- Levels 1 .. `FADE_STEPS`: step k of a fade-in scales by k (R104). -/
def fadeInLevels : List Nat := (List.range Config.FADE_STEPS).map (· + 1)

/-- Levels `FADE_STEPS` − 1 .. 0: step k of a fade-out scales by `FADE_STEPS` − k (R105). -/
def fadeOutLevels : List Nat := (List.range Config.FADE_STEPS).map fun k => Config.FADE_STEPS - (k + 1)

/-- A fade whose palette operand is checked before the first packet (R104, R105). -/
def fade (P : Params) (levels : List Nat) (speed : Nat) (palette : List Nat) (s : State) : Except CommandError State :=
  match checkFade palette with
  | .error e => .error e
  | .ok _ => .ok (fadeThrough P speed palette levels s)

/-- The meaning of `paletteLow` (R100). -/
def execPaletteLow (palette : List Nat) (duplicates : Bool) (s : State) : Host.Outcome State Fault Refusal :=
  answer s (paletteLow Config.live palette duplicates s)

/-- The meaning of `paletteHigh` (R101). -/
def execPaletteHigh (palette : List Nat) (duplicates : Bool) (s : State) : Host.Outcome State Fault Refusal :=
  answer s (paletteHigh Config.live palette duplicates s)

/-- The meaning of `fadeIn` (R104). -/
def execFadeIn (speed : Nat) (palette : List Nat) (s : State) : Host.Outcome State Fault Refusal :=
  answer s (fade Config.live fadeInLevels speed palette s)

/-- The meaning of `fadeOut` (R105). -/
def execFadeOut (speed : Nat) (palette : List Nat) (s : State) : Host.Outcome State Fault Refusal :=
  answer s (fade Config.live fadeOutLevels speed palette s)

end Sys2Proof.Machine
end

