-- ==== Sys2Proof/Machine/Stream.lean ====
section
/-! DEFINITION. The Stream Assembler's commands (spec/44_stream.md R109 to R112). -/

namespace Sys2Proof.Machine

/-- `newBuffer()`: `S <- S0`, every field of the session (R109, R126). What the outside still asks is no field of the
session and stays (log entry 7). -/
def newSession (s : State) : State := State.reset.setPending s.pending

/-- The meaning of `newBuffer` (R109). -/
def execNewBuffer (s : State) : Host.Outcome State Fault Refusal := answer s (.ok (newSession s))

/-- The meaning of `getBuffer`: a copy of the accumulated bytes, `BufRead(0, len(S.buffer))` (R110). -/
def execGetBuffer (s : State) : Host.Outcome State Fault Refusal :=
  answerBytes s (.ok (bufRead s 0 s.buffer.length))

/-- The meaning of `delayTicks`: n no-op packets (R111). -/
def execDelayTicks (n : Nat) (s : State) : Host.Outcome State Fault Refusal :=
  answer s (.ok (padSlots Config.live n s))

/-- The meaning of `delaySeconds`: `TICKS_PER_SECOND` no-op packets a second (R112). -/
def execDelaySeconds (seconds : Nat) (s : State) : Host.Outcome State Fault Refusal :=
  answer s (.ok (padSlots Config.live (seconds * Config.TICKS_PER_SECOND) s))

end Sys2Proof.Machine
end

