-- ==== Sys2Proof/Machine/Text.lean ====
section
/-! DEFINITION. The text commands (spec/42_text_scroll.md R91, R92, R98). -/

namespace Sys2Proof.Machine

/-- The packet of a character whose cell is in the grid: its glyph in `TEXT_BG` and `TEXT_FG` at the tile of text cell
(x, y) (R91). -/
def drawGlyph (P : Params) (character x y : Nat) (xor : Bool) (s : State) : State :=
  drawTile P (y + Config.TEXT_ROW0) (x + Config.TEXT_COL0) Config.TEXT_BG Config.TEXT_FG (glyphRows P character) xor s

/-- `textTile(character, x, y, xor)`: the character is checked first, then `writeTile` checks the tile address (R91). -/
def textTile (P : Params) (character x y : Nat) (xor : Bool) (s : State) : Except CommandError State :=
  match checkChar character with
  | .error e => .error e
  | .ok _ =>
    writeTile P (y + Config.TEXT_ROW0) (x + Config.TEXT_COL0) Config.TEXT_BG Config.TEXT_FG (glyphRows P character) xor s

/-- One character of `printScreen`: 0x0A is a newline and renders nothing; any other code is drawn at the cursor, which
then advances (R92). -/
def printChar (P : Params) (xor : Bool) (s : State) (ch : Nat) : State :=
  if ch = 0x0A then newLine P s
  else advanceCursor P (drawGlyph P ch s.cursorCol.val s.cursorRow.val xor s)

/-- `printScreen(text, xor)`: every code is checked before any packet; then the characters in order, each in strict
stream order before the scroll it triggers (R92, R98). -/
def printScreen (P : Params) (text : List Nat) (xor : Bool) (s : State) : Except CommandError State :=
  match checkText text with
  | .error e => .error e
  | .ok _ => .ok (text.foldl (printChar P xor) s)

/-- The meaning of `textTile` (R91). -/
def execTextTile (character x y : Nat) (xor : Bool) (s : State) : Host.Outcome State Fault Refusal :=
  answer s (textTile Config.live character x y xor s)

/-- The meaning of `printScreen` (R92). -/
def execPrintScreen (text : List Nat) (xor : Bool) (s : State) : Host.Outcome State Fault Refusal :=
  answer s (printScreen Config.live text xor s)

end Sys2Proof.Machine
end

