-- ==== Sys2Proof/Machine/Dispatch.lean ====
section
/-! DEFINITION. `exec`: one arm per instruction, each one direct call of its meaning. -/

namespace Sys2Proof.Machine

/-- One instruction on a state. -/
def exec (i : Instr) (s : State) : Host.Outcome State Fault Refusal :=
  match i with
  | .noop => Sys2Proof.Machine.execNoop s
  | .memoryPreset color rep => Sys2Proof.Machine.execMemoryPreset color rep s
  | .borderPreset color => Sys2Proof.Machine.execBorderPreset color s
  | .tileNormal a b row col rows => Sys2Proof.Machine.execTileNormal a b row col rows s
  | .scrollPreset color hCmd hOff vCmd vOff => Sys2Proof.Machine.execScrollPreset color hCmd hOff vCmd vOff s
  | .scrollCopy color hCmd hOff vCmd vOff => Sys2Proof.Machine.execScrollCopy color hCmd hOff vCmd vOff s
  | .loadClutLow colors => Sys2Proof.Machine.execLoadClutLow colors s
  | .loadClutHigh colors => Sys2Proof.Machine.execLoadClutHigh colors s
  | .tileXor a b row col rows => Sys2Proof.Machine.execTileXor a b row col rows s
  | .encodePacket instr payload => Sys2Proof.Machine.execEncodePacket instr payload s
  | .setScreenColor index => Sys2Proof.Machine.execSetScreenColor index s
  | .setBorderColor index => Sys2Proof.Machine.execSetBorderColor index s
  | .writeTile row col colorA colorB px xor => Sys2Proof.Machine.execWriteTile row col colorA colorB px xor s
  | .tileBlit row col colorA colorB px => Sys2Proof.Machine.execTileBlit row col colorA colorB px s
  | .xorBlit row col colorA colorB px => Sys2Proof.Machine.execXorBlit row col colorA colorB px s
  | .setCursor x y => Sys2Proof.Machine.execSetCursor x y s
  | .advanceCursor => Sys2Proof.Machine.execAdvanceCursor s
  | .textTile character x y xor => Sys2Proof.Machine.execTextTile character x y xor s
  | .printScreen text xor => Sys2Proof.Machine.execPrintScreen text xor s
  | .scroll direction color step wrap => Sys2Proof.Machine.execScroll direction color step wrap s
  | .smoothScroll direction => Sys2Proof.Machine.execSmoothScroll direction s
  | .paletteLow palette duplicates => Sys2Proof.Machine.execPaletteLow palette duplicates s
  | .paletteHigh palette duplicates => Sys2Proof.Machine.execPaletteHigh palette duplicates s
  | .fadeIn speed palette => Sys2Proof.Machine.execFadeIn speed palette s
  | .fadeOut speed palette => Sys2Proof.Machine.execFadeOut speed palette s
  | .scrollImageUp image speed => Sys2Proof.Machine.execScrollImageUp image speed s
  | .newBuffer => Sys2Proof.Machine.execNewBuffer s
  | .getBuffer => Sys2Proof.Machine.execGetBuffer s
  | .delayTicks n => Sys2Proof.Machine.execDelayTicks n s
  | .delaySeconds seconds => Sys2Proof.Machine.execDelaySeconds seconds s

end Sys2Proof.Machine
end

