-- ==== Sys2Proof/Machine/Step.lean ====
section
/-! DEFINITION. One step of the machine. In a session the sequencer takes the oldest command of the host and runs it to
completion as one atomic step (spec/00_scope.md R5, R6); in a replay the oldest packet of the foreign stream is applied
(spec/40_packet_codec.md R66, R77). -/

namespace Sys2Proof.Machine

/-- One step. With nothing asked of it the sequencer waits, which changes nothing (R39, R126). A command or a packet
leaves `pending` when it is taken; a packet that is not well-formed is refused (R77). -/
def step (s : State) : Host.Outcome State Fault Refusal :=
  match s.pending with
  | .host [] => .next s
  | .host (k :: rest) => exec k.instr (s.setPending (.host rest))
  | .replay [] => .next s
  | .replay (b :: rest) =>
    match fetch Config.live b with
    | .error d => .refused (.notWellFormed d)
    | .ok i => exec i (s.setPending (.replay rest))

/-- `s` with the packet whose bits are `w` as the next one of its replay. Only packets have bits (R57), so a session is
turned into a replay of that one packet, from the framebuffer it has (log entry 14). -/
def State.withFetchWord (s : State) (nbits w : Nat) : State :=
  s.setPending (.replay (tablePacket nbits w :: s.replayed))

end Sys2Proof.Machine
end

