-- ==== Sys2Proof/Machine/Listing.lean ====
section
/-! DEFINITION. The written forms of spec/30_encoding.md: commands (R58), packets (R59) and the pseudo-commands'
expansions (R59). The machine itself takes instructions as data and reads no text; these forms are how a program or a
stream is written down. -/

namespace Sys2Proof.Machine

/-! ### Pseudo-commands -/

/-- What a pseudo-command expands to; any other instruction stands for itself (R59). `FONT` is defined on character codes
up to 255 alone, so a `textTile` of a larger code, which is an error (R91), has no expansion. -/
def expandPseudo (P : Params) : Instr → Instr
  | .tileBlit r c a b px => .writeTile r c a b px false
  | .xorBlit r c a b px => .writeTile r c a b px true
  | .textTile ch x y xor =>
    if ch ≤ 255 then
      .writeTile (y + Config.TEXT_ROW0) (x + Config.TEXT_COL0) Config.TEXT_BG Config.TEXT_FG (glyphRows P ch) xor
    else .textTile ch x y xor
  | .delaySeconds seconds => .delayTicks (seconds * Config.TICKS_PER_SECOND)
  | i => i

/-! ### Numbers, lists and booleans (R58) -/

/-- A hexadecimal digit. -/
def hexDigit (n : Nat) : Char := "0123456789ABCDEF".toList.getD (n % 16) '0'

/-- The last `width` hexadecimal digits of a number, most significant first. -/
def hexDigits : Nat → Nat → List Char
  | 0, _ => []
  | width + 1, n => hexDigits width (n / 16) ++ [hexDigit n]

/-- A number in `0x` hex with two digits, for a byte; a larger number is written in decimal, which R58 allows too. -/
def byteText (n : Nat) : String := if n < 256 then "0x" ++ String.ofList (hexDigits 2 n) else toString n

/-- A colour in `0x` hex with three digits; a larger number is written in decimal. -/
def colorText (n : Nat) : String := if n < 4096 then "0x" ++ String.ofList (hexDigits 3 n) else toString n

/-- A list: `[v x n]` for n > 1 copies of one element, and its elements one by one otherwise. -/
def listText (xs : List String) : String :=
  match xs with
  | v :: _ :: _ =>
    if xs.all (· == v) then "[" ++ v ++ " x " ++ toString xs.length ++ "]"
    else "[" ++ String.intercalate ", " xs ++ "]"
  | _ => "[" ++ String.intercalate ", " xs ++ "]"

/-- A boolean. -/
def boolText (b : Bool) : String := if b then "true" else "false"

/-- A direction. -/
def directionText : Direction → String
  | .up => "up"
  | .down => "down"
  | .left => "left"
  | .right => "right"

/-- A smooth scroll's step, or `none` for the coarse form. -/
def stepText : Option Nat → String
  | none => "none"
  | some n => toString n

/-- The operands of a command, separated by commas, after its name. -/
def commandText (name : String) (operands : List String) : String :=
  if operands.isEmpty then name else name ++ " " ++ String.intercalate ", " operands

/-! ### Packets (R59) -/

/-- The pixel rows of a tile packet. -/
def rowsText (rows : Vector (BitVec 6) 12) : String := listText (rows.toList.map fun r => byteText r.toNat)

/-- The colours of a palette load. -/
def colorsText (colors : Vector Color 8) : String := listText (colors.toList.map fun v => colorText v.toNat)

/-- A tile packet: its mnemonic and its decoded fields. -/
def tileText (mnemonic : String) (a b : ColorIndex) (row : BitVec 5) (col : BitVec 6) (rows : Vector (BitVec 6) 12) :
    String :=
  mnemonic ++ " a=" ++ toString a.toNat ++ " b=" ++ toString b.toNat ++ " row=" ++ toString row.toNat ++ " col=" ++
    toString col.toNat ++ " rows=" ++ rowsText rows

/-- A scroll packet: its mnemonic and its decoded fields. -/
def scrollText (mnemonic : String) (color : ColorIndex) (hCmd : BitVec 2) (hOff : BitVec 3) (vCmd : BitVec 2)
    (vOff : BitVec 4) : String :=
  mnemonic ++ " color=" ++ toString color.toNat ++ " hcmd=" ++ toString hCmd.toNat ++ " hoff=" ++ toString hOff.toNat ++
    " vcmd=" ++ toString vCmd.toNat ++ " voff=" ++ toString vOff.toNat

/-- Bytes in hex, separated by blanks. -/
def bytesText (bytes : List Byte) : String :=
  String.intercalate " " (bytes.map fun b => String.ofList (hexDigits 2 b.toNat))

/-- A packet as its 24 bytes in hex, with bars between byte 0, the payload and the parity (R59). -/
def packetHexText (b : List Byte) : String :=
  bytesText (b.take 1) ++ " | " ++ bytesText (payloadOf b) ++ " | " ++ bytesText (b.drop 17)

/-- The listing of an instruction: a packet as its mnemonic and decoded fields (R59), a command in the syntax of R58. -/
def listing : Instr → String
  | .noop => "NOOP"
  | .memoryPreset color rep => "MEMORY_PRESET color=" ++ toString color.toNat ++ " repeat=" ++ toString rep.toNat
  | .borderPreset color => "BORDER_PRESET color=" ++ toString color.toNat
  | .tileNormal a b row col rows => tileText "TILE_NORMAL" a b row col rows
  | .scrollPreset color hCmd hOff vCmd vOff => scrollText "SCROLL_PRESET" color hCmd hOff vCmd vOff
  | .scrollCopy color hCmd hOff vCmd vOff => scrollText "SCROLL_COPY" color hCmd hOff vCmd vOff
  | .loadClutLow colors => "LOAD_CLUT_LOW colors=" ++ colorsText colors
  | .loadClutHigh colors => "LOAD_CLUT_HIGH colors=" ++ colorsText colors
  | .tileXor a b row col rows => tileText "TILE_XOR" a b row col rows
  | .encodePacket instr payload => commandText "encodePacket" [toString instr, listText (payload.map byteText)]
  | .setScreenColor index => commandText "setScreenColor" [toString index]
  | .setBorderColor index => commandText "setBorderColor" [toString index]
  | .writeTile row col a b px xor =>
    commandText "writeTile"
      [toString row, toString col, toString a, toString b, listText (px.map byteText), boolText xor]
  | .tileBlit row col a b px =>
    commandText "tileBlit" [toString row, toString col, toString a, toString b, listText (px.map byteText)]
  | .xorBlit row col a b px =>
    commandText "xorBlit" [toString row, toString col, toString a, toString b, listText (px.map byteText)]
  | .setCursor x y => commandText "setCursor" [toString x, toString y]
  | .advanceCursor => commandText "advanceCursor" []
  | .textTile character x y xor =>
    commandText "textTile" [byteText character, toString x, toString y, boolText xor]
  | .printScreen text xor => commandText "printScreen" [listText (text.map byteText), boolText xor]
  | .scroll direction color step wrap =>
    commandText "scroll" [directionText direction, toString color, stepText step, boolText wrap]
  | .smoothScroll direction => commandText "smoothScroll" [directionText direction]
  | .paletteLow palette duplicates =>
    commandText "paletteLow" [listText (palette.map colorText), boolText duplicates]
  | .paletteHigh palette duplicates =>
    commandText "paletteHigh" [listText (palette.map colorText), boolText duplicates]
  | .fadeIn speed palette => commandText "fadeIn" [toString speed, listText (palette.map colorText)]
  | .fadeOut speed palette => commandText "fadeOut" [toString speed, listText (palette.map colorText)]
  | .scrollImageUp image speed =>
    commandText "scrollImageUp" [listText (image.map fun line => listText (line.map toString)), toString speed]
  | .newBuffer => commandText "newBuffer" []
  | .getBuffer => commandText "getBuffer" []
  | .delayTicks n => commandText "delayTicks" [toString n]
  | .delaySeconds seconds => commandText "delaySeconds" [toString seconds]

end Sys2Proof.Machine
end

