-- ==== Sys2Proof/Safety.lean ====
section
/-! DEFINITION. The terms claims are stated in: sequences of instructions, what counts as a safe step, the buffer's
invariant (spec/10_state.md R25, R30) and the replay law (R29). -/

namespace Sys2Proof.Machine

/-- Run instructions one after another, stopping at the first that has no next state. -/
def runAll : List Instr → State → Host.Outcome State Fault Refusal
  | [], s => .next s
  | i :: rest, s =>
    match exec i s with
    | .next t => runAll rest t
    | .fault r => .fault r
    | .refused r => .refused r

/-- The packet that `Issue(code, payload)` appends (R60, R65). -/
def emitted (code : BitVec 6) (payload : List Byte) : List Byte := packetBytes Config.live code (pad16 payload)

/-- The commands that draw a tile by replacing its cells, and by exclusive-or (R83 to R85). -/
def tileCommands (row col colorA colorB : Nat) (pixelBits : List Nat) (xor : Bool) : List Instr :=
  [.writeTile row col colorA colorB pixelBits xor,
    if xor then .xorBlit row col colorA colorB pixelBits else .tileBlit row col colorA colorB pixelBits]

/-- The scrolls that `printScreen` causes from a cursor at the given column and row: one for each newline, or step past
the last column, on the last row (R87 to R89, R92). -/
def textScrolls (col row : Nat) : List Nat → Nat
  | [] => 0
  | ch :: rest =>
    if ch = 0x0A ∨ col = 48 then
      if row = 16 then 1 + textScrolls 0 16 rest else textScrolls 0 (row + 1) rest
    else textScrolls (col + 1) row rest

/-- The packet slots that a command takes when it succeeds: the table of R135. -/
def slotsTaken (s : State) : Instr → Nat
  | .setScreenColor _ => 1
  | .setBorderColor _ => 1
  | .writeTile _ _ _ _ _ _ => 1
  | .tileBlit _ _ _ _ _ => 1
  | .xorBlit _ _ _ _ _ => 1
  | .textTile _ _ _ _ => 1
  | .scroll _ _ _ _ => 1
  | .smoothScroll _ => 1
  | .paletteLow _ _ => 1
  | .paletteHigh _ _ => 1
  | .advanceCursor => if s.cursorCol.val = 48 ∧ s.cursorRow.val = 16 then 1 else 0
  | .printScreen text _ =>
    (text.filter fun ch => decide (ch ≠ 0x0A)).length + textScrolls s.cursorCol.val s.cursorRow.val text
  | .fadeIn speed _ => 15 * max speed 2
  | .fadeOut speed _ => 15 * max speed 2
  | .scrollImageUp image speed => image.length / 12 * (50 + 12 * max speed 1)
  | .delayTicks n => n
  | .delaySeconds seconds => 150 * seconds
  | .noop => 0
  | .memoryPreset _ _ => 0
  | .borderPreset _ => 0
  | .tileNormal _ _ _ _ _ => 0
  | .scrollPreset _ _ _ _ _ => 0
  | .scrollCopy _ _ _ _ _ => 0
  | .loadClutLow _ => 0
  | .loadClutHigh _ => 0
  | .tileXor _ _ _ _ _ => 0
  | .encodePacket _ _ => 0
  | .setCursor _ _ => 0
  | .newBuffer => 0
  | .getBuffer => 0

/-- The commands that `scrollImageUp` runs: for each tile row of the image its 50 tiles drawn into tile row 17, then
twelve times one smooth scroll up and the padding that paces it (R108). -/
def imageScript (image : List (List Nat)) (speed : Nat) : List Instr :=
  (List.range (image.length / 12)).flatMap fun k =>
    ((List.range 50).map fun c =>
      .writeTile 17 c (dominantColor (imageTile image k c)) (secondColor (imageTile image k c))
        (reducedRows (imageTile image k c)) false) ++
    (List.replicate 12 [.smoothScroll .up, .delayTicks (max speed 1 - 1)]).flatten

/-- The two payload bytes of each colour of a palette load: `c >> 6`, then `c & 0x3F` (R54, R99). -/
def colorBytes (colors : List Nat) : List Byte :=
  colors.flatMap fun v => [BitVec.ofNat 8 (v / 64), BitVec.ofNat 8 (v % 64)]

/-- The bytes that the steps of a fade through the given levels append: the padding, then the low and the high half of
the palette scaled to the level (R104, R105). -/
def fadeBytes (speed : Nat) (palette levels : List Nat) : List Byte :=
  levels.flatMap fun k =>
    (List.replicate (max speed 2 - 2) (emitted Config.NOOP [])).flatten ++
      emitted Config.LOAD_CLUT_LOW (colorBytes ((palette.take 8).map fun v => scaleColor v k 15)) ++
      emitted Config.LOAD_CLUT_HIGH (colorBytes ((palette.drop 8).map fun v => scaleColor v k 15))

/-- A step is safe when it has a next state: the only step that has none replays a packet that is not well-formed, and no
step of a session does. -/
def SafeStep (s : State) : Prop := ∃ t, step s = .next t

/-- The buffer holds whole packets and every one of them is well-formed (R30, R55, R78). -/
def BufferOk (P : Params) (s : State) : Prop := Memory.wf s ∧ ∀ b ∈ packetsOf s, wellFormed P b = true

/-- The framebuffer state is the replay of the stream from reset (R29). -/
def Mirrors (P : Params) (s : State) : Prop := replay P Framebuffer.reset (packetsOf s) = some s.fb

/-- The state is one of a session, whose host issues commands (R6), and not of the replay of a foreign stream. -/
def IsSession (s : State) : Prop := ∃ commands, s.pending = .host commands

/-- The instructions of the packets a command may emit: the "packets emitted" column of R57. A packet instruction emits
nothing, since `Apply` never changes the buffer (R66). -/
def emittedCodes : Instr → List (BitVec 6)
  | .noop => []
  | .memoryPreset _ _ => []
  | .borderPreset _ => []
  | .tileNormal _ _ _ _ _ => []
  | .scrollPreset _ _ _ _ _ => []
  | .scrollCopy _ _ _ _ _ => []
  | .loadClutLow _ => []
  | .loadClutHigh _ => []
  | .tileXor _ _ _ _ _ => []
  | .encodePacket _ _ => []
  | .setScreenColor _ => [Config.MEMORY_PRESET]
  | .setBorderColor _ => [Config.BORDER_PRESET]
  | .writeTile _ _ _ _ _ xor => [if xor then Config.TILE_XOR else Config.TILE_NORMAL]
  | .tileBlit _ _ _ _ _ => [Config.TILE_NORMAL]
  | .xorBlit _ _ _ _ _ => [Config.TILE_XOR]
  | .setCursor _ _ => []
  | .advanceCursor => [Config.SCROLL_PRESET]
  | .textTile _ _ _ xor => [if xor then Config.TILE_XOR else Config.TILE_NORMAL]
  | .printScreen _ xor => [if xor then Config.TILE_XOR else Config.TILE_NORMAL, Config.SCROLL_PRESET]
  | .scroll _ _ _ wrap => [if wrap then Config.SCROLL_COPY else Config.SCROLL_PRESET]
  | .smoothScroll _ => [Config.SCROLL_COPY]
  | .paletteLow _ _ => [Config.LOAD_CLUT_LOW]
  | .paletteHigh _ _ => [Config.LOAD_CLUT_HIGH]
  | .fadeIn _ _ => [Config.NOOP, Config.LOAD_CLUT_LOW, Config.LOAD_CLUT_HIGH]
  | .fadeOut _ _ => [Config.NOOP, Config.LOAD_CLUT_LOW, Config.LOAD_CLUT_HIGH]
  | .scrollImageUp _ _ => [Config.TILE_NORMAL, Config.SCROLL_COPY, Config.NOOP]
  | .newBuffer => []
  | .getBuffer => []
  | .delayTicks _ => [Config.NOOP]
  | .delaySeconds _ => [Config.NOOP]

/-- The instructions that may write the text cursor (R24), `newBuffer`'s reset apart. -/
def movesCursor (i : Instr) : Bool :=
  match i with
  | .setCursor _ _ => true
  | .advanceCursor => true
  | .printScreen _ _ => true
  | _ => false

/-- A step of session `k` among several. Sessions share nothing, so a model of several is a list of independent copies of
this machine, of which a host steps one at a time (R124). -/
def stepSession (k : Nat) (sessions : List State) : Host.Outcome (List State) Fault Refusal :=
  match sessions[k]? with
  | none => .next sessions
  | some s =>
    match step s with
    | .next t => .next (sessions.set k t)
    | .fault r => .fault r
    | .refused r => .refused r

/-- Entry `k` of a state's palette (R34). -/
def entryOf (s : State) (k : Nat) : Option Color := s.fb.palette.toList.getD k none

/-- The position whose cell a coarse move brings to position `n` of an axis of `size` cells, around the end: command 2
brings the cell `dist` further on, command 1 the cell `dist` before, and command 0 moves nothing (R53, R74). -/
def sourceIndex (cmd : BitVec 2) (size dist n : Nat) : Nat :=
  if cmd = 2 then (n + dist) % size else if cmd = 1 then (n + (size - dist)) % size else n

/-- Whether a coarse move exposes position `n` of an axis of `size` cells: the last `dist` positions under command 2,
the first `dist` under command 1 (R74). -/
abbrev exposed (cmd : BitVec 2) (size dist n : Nat) : Prop :=
  (cmd = 2 ∧ size - dist ≤ n) ∨ (cmd = 1 ∧ n < dist)

end Sys2Proof.Machine
end

