-- ==== Sys2Proof/Certificates/Slice0/Obligations.lean ====
section
/-! DEFINITION. The statements for the provers. In the conclusions, `result := some .ok` and `result := some (.error e)`
are how this model holds what a command returns (log entry 6), and `pending` is its own port, the commands of a session's
host or the packets of a replay (log entry 5);
every other field is the spec's. `emitted code payload` is the packet that `Issue(code, payload)` appends. -/

section
open Sys2Proof Sys2Proof.Machine

/-! ### Encoding -/

/-- Every well-formed packet instruction has a 24-byte encoding that is well-formed and decodes to it (R45, R55, R64). -/
def Obligations.PacketInstructionRoundTrip : Prop :=
  ∀ (P : Params) (i : Instr), i.isPacket = true → i.wf = true →
    ∃ b, encode P i = some b ∧ b.length = 24 ∧ wellFormed P b = true ∧ decodeSealed P b = .ok i

/-- Every well-formed packet decodes to a well-formed packet instruction whose encoding is that packet, so that no two
instructions share a packet (R55, R64). -/
def Obligations.WellFormedPacketReencodes : Prop :=
  ∀ (P : Params) (b : List Byte), wellFormed P b = true →
    ∃ i, decodeSealed P b = .ok i ∧ i.isPacket = true ∧ i.wf = true ∧ encode P i = some b

/-- The definition of a well-formed packet in numbers, instruction by instruction (the three items and the table of
R55). -/
def Obligations.WellFormedPacketTable : Prop :=
  ∀ (P : Params) (b : List Byte), b.length = 24 →
    let p : Nat → Nat := fun k => (b.getD (k + 1) 0).toNat
    let code : Nat := (b.getD 0 0).toNat % 64
    (wellFormed P b = true ↔
      (b.getD 0 0).toNat / 64 = P.modeBits.toNat ∧
      b.drop 17 = (P.parity (b.getD 0 0) ((b.drop 1).take 16)).toList ∧
      ((code = 0 ∧ ∀ k < 16, p k = 0) ∨
       (code = 1 ∧ p 0 ≤ 15 ∧ p 1 ≤ 15 ∧ ∀ k < 16, 2 ≤ k → p k = 0) ∨
       (code = 2 ∧ p 0 ≤ 15 ∧ ∀ k < 16, 1 ≤ k → p k = 0) ∨
       ((code = 6 ∨ code = 38) ∧ p 0 ≤ 15 ∧ p 1 ≤ 15 ∧ p 2 ≤ 17 ∧ p 3 ≤ 49 ∧ ∀ k < 16, 4 ≤ k → p k ≤ 63) ∨
       ((code = 20 ∨ code = 24) ∧ p 0 ≤ 15 ∧
          p 1 / 64 = 0 ∧ p 1 / 16 % 4 ≤ 2 ∧ p 1 / 8 % 2 = 0 ∧ p 1 % 8 ≤ 5 ∧
          p 2 / 64 = 0 ∧ p 2 / 16 % 4 ≤ 2 ∧ p 2 % 16 ≤ 11 ∧ ∀ k < 16, 3 ≤ k → p k = 0) ∨
       ((code = 30 ∨ code = 31) ∧ ∀ k < 16, p k ≤ 63)))

/-- `decodePacket`: refused on a list that is not 24 bytes long; on 24 bytes it never fails, and returns the mode, the
instruction, the payload and whether the parity holds (R63). -/
def Obligations.DecodePacketRule : Prop :=
  ∀ (P : Params) (b : List Byte),
    (b.length ≠ 24 → decodePacket P b = none) ∧
    (b.length = 24 →
      decodePacket P b =
        some (BitVec.ofNat 2 ((b.getD 0 0).toNat / 64), BitVec.ofNat 6 ((b.getD 0 0).toNat % 64), (b.drop 1).take 16,
          decide (b.drop 17 = (P.parity (b.getD 0 0) ((b.drop 1).take 16)).toList)))

/-- `decodeFields` in numbers, instruction by instruction: every field of R64's table, and the record
`Reserved` with its code for any other. -/
def Obligations.DecodeFieldsRule : Prop :=
  ∀ p : List Byte,
    let n : Nat → Nat := fun k => (p.getD k 0).toNat
    decodeFields 0 p = .instr .noop ∧
    decodeFields 1 p = .instr (.memoryPreset (BitVec.ofNat 4 (n 0)) (BitVec.ofNat 4 (n 1))) ∧
    decodeFields 2 p = .instr (.borderPreset (BitVec.ofNat 4 (n 0))) ∧
    (∃ rows : Vector (BitVec 6) 12, (∀ j, ∀ h : j < 12, rows[j].toNat = n (4 + j) % 64) ∧
      decodeFields 6 p = .instr (.tileNormal (BitVec.ofNat 4 (n 0)) (BitVec.ofNat 4 (n 1)) (BitVec.ofNat 5 (n 2))
        (BitVec.ofNat 6 (n 3)) rows) ∧
      decodeFields 38 p = .instr (.tileXor (BitVec.ofNat 4 (n 0)) (BitVec.ofNat 4 (n 1)) (BitVec.ofNat 5 (n 2))
        (BitVec.ofNat 6 (n 3)) rows)) ∧
    decodeFields 20 p = .instr (.scrollPreset (BitVec.ofNat 4 (n 0)) (BitVec.ofNat 2 (n 1 / 16)) (BitVec.ofNat 3 (n 1))
      (BitVec.ofNat 2 (n 2 / 16)) (BitVec.ofNat 4 (n 2))) ∧
    decodeFields 24 p = .instr (.scrollCopy (BitVec.ofNat 4 (n 0)) (BitVec.ofNat 2 (n 1 / 16)) (BitVec.ofNat 3 (n 1))
      (BitVec.ofNat 2 (n 2 / 16)) (BitVec.ofNat 4 (n 2))) ∧
    (∃ colors : Vector Color 8, (∀ i, ∀ h : i < 8, colors[i].toNat = 64 * (n (2 * i) % 64) + n (2 * i + 1) % 64) ∧
      decodeFields 30 p = .instr (.loadClutLow colors) ∧ decodeFields 31 p = .instr (.loadClutHigh colors)) ∧
    ∀ code : BitVec 6, code.toNat ∉ [0, 1, 2, 6, 20, 24, 30, 31, 38] → decodeFields code p = .reserved code

/-- One packet body of each kind, written out from the spec's layouts, decodes to the instruction it stands for
(R47, R49 to R54). -/
def Obligations.SpecWordsDecode : Prop :=
  decode (0x00 :: List.replicate 23 0) = .ok .noop ∧
  decode ([0x01, 0x03, 0x05] ++ List.replicate 21 0) = .ok (.memoryPreset 3 5) ∧
  decode ([0x02, 0x0F] ++ List.replicate 22 0) = .ok (.borderPreset 15) ∧
  decode ([0x06, 0x03, 0x05, 0x01, 0x02, 0x20, 0x01, 0x3F] ++ List.replicate 16 0) =
    .ok (.tileNormal 3 5 1 2 #v[0x20, 0x01, 0x3F, 0, 0, 0, 0, 0, 0, 0, 0, 0]) ∧
  decode ([0x26, 0x01, 0x03, 0x11, 0x31] ++ List.replicate 12 0x3F ++ List.replicate 7 0) =
    .ok (.tileXor 1 3 17 49 (Vector.replicate 12 0x3F)) ∧
  decode ([0x14, 0x04, 0x25, 0x1B] ++ List.replicate 20 0) = .ok (.scrollPreset 4 2 5 1 11) ∧
  decode ([0x18, 0x00, 0x15, 0x20] ++ List.replicate 20 0) = .ok (.scrollCopy 0 1 5 2 0) ∧
  decode ([0x1E, 0x00, 0x00, 0x3F, 0x3F, 0x3C, 0x00, 0x03, 0x30, 0x00, 0x0F, 0x22, 0x08, 0x11, 0x04, 0x33, 0x0C] ++
      List.replicate 7 0) =
    .ok (.loadClutLow #v[0x000, 0xFFF, 0xF00, 0x0F0, 0x00F, 0x888, 0x444, 0xCCC]) ∧
  decode ([0x1F, 0x3E, 0x00, 0x04, 0x23, 0x11, 0x16, 0x1E, 0x09, 0x2A, 0x3C, 0x37, 0x2F, 0x04, 0x11, 0x08, 0x22] ++
      List.replicate 7 0) =
    .ok (.loadClutHigh #v[0xF80, 0x123, 0x456, 0x789, 0xABC, 0xDEF, 0x111, 0x222])

/-- The 55 reserved codes: `encodePacket` encodes them, no packet of theirs is well-formed or decodes, and none of the
24-byte packets an instruction appends is of one of them (R48). The name the refusal carries is the model's (log entry
15). -/
def Obligations.ReservedCodesHaveNoMeaning : Prop :=
  ∀ n ∈ [3, 4, 5] ++ List.range' 7 13 ++ [21, 22, 23] ++ [25, 26, 27, 28, 29] ++ List.range' 32 6 ++ List.range' 39 25,
    (∀ (P : Params) (p : List Byte), p.length = 16 →
      wellFormed P (packetBytes P (BitVec.ofNat 6 n) p) = false ∧
      decodeSealed P (packetBytes P (BitVec.ofNat 6 n) p) =
        .error (.reservedCode (BitVec.ofNat 6 n))) ∧
    (∀ (payload : List Nat) (s : State), payload.length ≤ 16 → (∀ v ∈ payload, v ≤ 255) →
      ∃ b, exec (.encodePacket n payload) s = .next { s with result := some (.bytes b) } ∧ codeOf b = BitVec.ofNat 6 n) ∧
    ∀ (i : Instr) (s t : State), exec i s = .next t → i ≠ .newBuffer →
      ∃ bs : List (List Byte), t.buffer = s.buffer ++ bs.flatten ∧ ∀ b ∈ bs, b.length = 24 ∧ codeOf b ≠ BitVec.ofNat 6 n

/-! ### Steps -/

/-- A session runs its host's commands, which are never packet instructions (R6), the oldest first and one in a step
(R5); with none issued it waits (R39, R126; log entry 10); its step always has a next state, which is again a session's.
A replay of a foreign stream runs the instruction its oldest packet decodes to, and refuses a packet that decodes to none
(R77), under the name the decoder gives it (log entries 15 and 16). A packet placed by `withFetchWord` is the next of a
replay (log entry 14). How commands and packets stand in `pending` is the model's choice (log entry 5). -/
def Obligations.StepRunsDecodedInstruction : Prop :=
  (∀ s : State, s.pending = .host [] → step s = .next s) ∧
  (∀ (s : State) (k : Command) (rest : List Command), s.pending = .host (k :: rest) →
    k.instr.isPacket = false ∧ step s = exec k.instr { s with pending := .host rest }) ∧
  (∀ s : State, IsSession s → ∃ t, step s = .next t ∧ IsSession t) ∧
  (∀ s : State, s.pending = .replay [] → step s = .next s) ∧
  (∀ (s : State) (b : List Byte) (i : Instr) (rest : List ForeignPacket), s.pending = .replay (.whole b :: rest) →
    decodeSealed Config.live b = .ok i → step s = exec i { s with pending := .replay rest }) ∧
  (∀ (s : State) (code : BitVec 6) (p : List Byte) (i : Instr) (rest : List ForeignPacket),
    s.pending = .replay (.body code p :: rest) → decodeBody code p = .ok i →
    step s = exec i { s with pending := .replay rest }) ∧
  (∀ (s : State) (b : List Byte) (d : PacketDefect) (rest : List ForeignPacket),
    s.pending = .replay (.whole b :: rest) → decodeSealed Config.live b = .error d →
    step s = .refused (.notWellFormed d)) ∧
  (∀ (s : State) (code : BitVec 6) (p : List Byte) (d : PacketDefect) (rest : List ForeignPacket),
    s.pending = .replay (.body code p :: rest) → decodeBody code p = .error d →
    step s = .refused (.notWellFormed d)) ∧
  ∀ (s : State) (nbits w : Nat) (i : Instr), decodeTableWord nbits w = some i →
    step (s.withFetchWord nbits w) = exec i { s with pending := .replay s.replayed }

/-- Replaying a packet: one that is not well-formed is refused (R77); a well-formed one has the effect of `Apply` on the
framebuffer state, which is the effect of its instruction, and changes nothing else (R66). -/
def Obligations.ReplayStepAppliesOrRefuses : Prop :=
  ∀ (s : State) (b : List Byte) (rest : List ForeignPacket), s.pending = .replay (.whole b :: rest) →
    (wellFormed Config.live b = false →
      applyPacket Config.live s.fb b = none ∧ ∃ d, step s = .refused (.notWellFormed d)) ∧
    (wellFormed Config.live b = true →
      ∃ i fb, decodeFields (codeOf b) (payloadOf b) = .instr i ∧ applyPacket Config.live s.fb b = some fb ∧
        exec i { s with pending := .replay rest } = .next { s with pending := .replay rest, fb := fb } ∧
        step s = .next { s with pending := .replay rest, fb := fb })

/-! ### The codec command -/

/-- `encodePacket`: its errors, and the 24 bytes it returns, writing no state (R60). -/
def Obligations.EncodePacketRule : Prop :=
  ∀ (instr : Nat) (payload : List Nat) (s : State),
    ((16 < payload.length ∨ ∃ v ∈ payload, 255 < v) →
      exec (.encodePacket instr payload) s = .next { s with result := some (.error .invalidPayload) }) ∧
    (payload.length ≤ 16 → (∀ v ∈ payload, v ≤ 255) →
      let b0 : Byte := BitVec.ofNat 8 (64 * Config.MODE_BITS.toNat + instr % 64)
      let p : List Byte := payload.map (BitVec.ofNat 8) ++ List.replicate (16 - payload.length) 0
      exec (.encodePacket instr payload) s =
        .next { s with result := some (.bytes (b0 :: p ++ (Config.PARITY b0 p).toList)) })

/-- The codec laws: size, masking, zero-fill and round trip of every packet `encodePacket` returns, for every choice of
the open parameters (R78 items 1 to 5). -/
def Obligations.CodecLaws : Prop :=
  ∀ (P : Params) (instr : Nat) (payload : List Nat), payload.length ≤ 16 → (∀ v ∈ payload, v ≤ 255) →
    ∃ b, encodePacket P instr payload = .ok b ∧ b.length = 24 ∧
      encodePacket P (instr % 64) payload = .ok b ∧
      encodePacket P instr (payload ++ List.replicate (16 - payload.length) 0) = .ok b ∧
      decodePacket P b =
        some (P.modeBits, BitVec.ofNat 6 instr,
          payload.map (BitVec.ofNat 8) ++ List.replicate (16 - payload.length) 0, true)

/-! ### Packet instructions -/

/-- NOOP changes no field (R67). -/
def Obligations.NoopChangesNothing : Prop := ∀ s : State, exec .noop s = .next s

/-- MEMORY_PRESET fills every cell and sets the screen colour, whatever the repeat count, and changes nothing else
(R68). -/
def Obligations.MemoryPresetFillsCanvas : Prop :=
  ∀ (color : ColorIndex) (rep : BitVec 4) (s : State),
    ∃ t, exec (.memoryPreset color rep) s = .next t ∧
      (∀ y x, y < 216 → x < 300 → pixelAt t.fb.canvas y x = some color) ∧
      t = { s with fb := { s.fb with canvas := t.fb.canvas, screenColor := some color } }

/-- BORDER_PRESET sets the border and changes nothing else (R69). -/
def Obligations.BorderPresetSetsBorder : Prop :=
  ∀ (color : ColorIndex) (s : State),
    exec (.borderPreset color) s = .next { s with fb := { s.fb with border := some color } }

/-- TILE_NORMAL replaces the 72 cells of its tile by colour A or B as their bits say, and changes nothing else (R70). -/
def Obligations.TileNormalReplacesCells : Prop :=
  ∀ (a b : ColorIndex) (row : BitVec 5) (col : BitVec 6) (rows : Vector (BitVec 6) 12) (s : State),
    row.toNat ≤ 17 → col.toNat ≤ 49 →
    ∃ t, exec (.tileNormal a b row col rows) s = .next t ∧
      (∀ r c i j, r ≤ 17 → c ≤ 49 → i ≤ 5 → ∀ h : j < 12,
        pixelAt t.fb.canvas (12 * r + j) (6 * c + i) =
          if r = row.toNat ∧ c = col.toNat then some (if rows[j].getLsbD (5 - i) then b else a)
          else pixelAt s.fb.canvas (12 * r + j) (6 * c + i)) ∧
      t = { s with fb := { s.fb with canvas := t.fb.canvas } }

/-- TILE_XOR combines the selected colours with the 72 cells of its tile by exclusive-or, leaves `undef` cells `undef`,
and changes nothing else (R71). -/
def Obligations.TileXorCombinesCells : Prop :=
  ∀ (a b : ColorIndex) (row : BitVec 5) (col : BitVec 6) (rows : Vector (BitVec 6) 12) (s : State),
    row.toNat ≤ 17 → col.toNat ≤ 49 →
    ∃ t, exec (.tileXor a b row col rows) s = .next t ∧
      (∀ r c i j, r ≤ 17 → c ≤ 49 → i ≤ 5 → ∀ h : j < 12,
        pixelAt t.fb.canvas (12 * r + j) (6 * c + i) =
          if r = row.toNat ∧ c = col.toNat then
            (match pixelAt s.fb.canvas (12 * r + j) (6 * c + i) with
              | none => none
              | some old => some (old ^^^ (if rows[j].getLsbD (5 - i) then b else a)))
          else pixelAt s.fb.canvas (12 * r + j) (6 * c + i)) ∧
      t = { s with fb := { s.fb with canvas := t.fb.canvas } }

/-- SCROLL_PRESET moves the content by one tile as its commands say, fills the exposed strips with its colour, moves the
counters and sets the fine offsets, and changes nothing else (R72). -/
def Obligations.ScrollPresetFillsStrip : Prop :=
  ∀ (color : ColorIndex) (hCmd : BitVec 2) (hOff : BitVec 3) (vCmd : BitVec 2) (vOff : BitVec 4) (s : State),
    hCmd.toNat ≤ 2 → hOff.toNat ≤ 5 → vCmd.toNat ≤ 2 → vOff.toNat ≤ 11 →
    ∃ t, exec (.scrollPreset color hCmd hOff vCmd vOff) s = .next t ∧
      (∀ y x, y < 216 → x < 300 →
        pixelAt t.fb.canvas y x =
          if (hCmd = 2 ∧ 294 ≤ x) ∨ (hCmd = 1 ∧ x < 6) ∨ (vCmd = 2 ∧ 204 ≤ y) ∨ (vCmd = 1 ∧ y < 12) then some color
          else
            pixelAt s.fb.canvas (if vCmd = 2 then y + 12 else if vCmd = 1 then y - 12 else y)
              (if hCmd = 2 then x + 6 else if hCmd = 1 then x - 6 else x)) ∧
      t.fb.hTile.val = (if hCmd = 2 then s.fb.hTile.val + 1 else if hCmd = 1 then s.fb.hTile.val + 49 else s.fb.hTile.val) % 50 ∧
      t.fb.vTile.val = (if vCmd = 2 then s.fb.vTile.val + 1 else if vCmd = 1 then s.fb.vTile.val + 17 else s.fb.vTile.val) % 18 ∧
      t.fb.hOff.val = hOff.toNat ∧ t.fb.vOff.val = vOff.toNat ∧
      t = { s with fb := { s.fb with
        canvas := t.fb.canvas, hTile := t.fb.hTile, vTile := t.fb.vTile, hOff := t.fb.hOff, vOff := t.fb.vOff } }

/-- SCROLL_COPY moves the content by one tile as its commands say, the strip that leaves one edge coming in at the other,
whatever its colour; it moves the counters and sets the fine offsets, and changes nothing else (R73). -/
def Obligations.ScrollCopyWraps : Prop :=
  ∀ (color : ColorIndex) (hCmd : BitVec 2) (hOff : BitVec 3) (vCmd : BitVec 2) (vOff : BitVec 4) (s : State),
    hCmd.toNat ≤ 2 → hOff.toNat ≤ 5 → vCmd.toNat ≤ 2 → vOff.toNat ≤ 11 →
    ∃ t, exec (.scrollCopy color hCmd hOff vCmd vOff) s = .next t ∧
      (∀ y x, y < 216 → x < 300 →
        pixelAt t.fb.canvas y x =
          pixelAt s.fb.canvas ((if vCmd = 2 then y + 12 else if vCmd = 1 then y + 204 else y) % 216)
            ((if hCmd = 2 then x + 6 else if hCmd = 1 then x + 294 else x) % 300)) ∧
      t.fb.hTile.val = (if hCmd = 2 then s.fb.hTile.val + 1 else if hCmd = 1 then s.fb.hTile.val + 49 else s.fb.hTile.val) % 50 ∧
      t.fb.vTile.val = (if vCmd = 2 then s.fb.vTile.val + 1 else if vCmd = 1 then s.fb.vTile.val + 17 else s.fb.vTile.val) % 18 ∧
      t.fb.hOff.val = hOff.toNat ∧ t.fb.vOff.val = vOff.toNat ∧
      t = { s with fb := { s.fb with
        canvas := t.fb.canvas, hTile := t.fb.hTile, vTile := t.fb.vTile, hOff := t.fb.hOff, vOff := t.fb.vOff } }

/-- The order of the two halves of a shift does not change its result, filling or wrapping (R74). -/
def Obligations.ShiftHalvesCommute : Prop :=
  ∀ (cv : Canvas) (hCmd vCmd : BitVec 2) (m : Edge), shiftV (shiftH cv hCmd m) vCmd m = shiftH (shiftV cv vCmd m) hCmd m

/-- LOAD_CLUT_LOW loads palette entries 0..7 and LOAD_CLUT_HIGH entries 8..15; the other half and everything else is
unchanged (R75, R76). -/
def Obligations.ClutLoadsHalves : Prop :=
  ∀ (colors : Vector Color 8) (s : State),
    (∃ t, exec (.loadClutLow colors) s = .next t ∧
      (∀ k, ∀ h : k < 8, entryOf t k = some colors[k] ∧ entryOf t (8 + k) = entryOf s (8 + k)) ∧
      t = { s with fb := { s.fb with palette := t.fb.palette } }) ∧
    ∃ t, exec (.loadClutHigh colors) s = .next t ∧
      (∀ k, ∀ h : k < 8, entryOf t (8 + k) = some colors[k] ∧ entryOf t k = entryOf s k) ∧
      t = { s with fb := { s.fb with palette := t.fb.palette } }

/-- A packet instruction with a field outside its range is refused (R77 with the ranges of R55). -/
def Obligations.OutOfRangeFieldsRefused : Prop :=
  (∀ (a b : ColorIndex) (row : BitVec 5) (col : BitVec 6) (rows : Vector (BitVec 6) 12) (s : State),
    17 < row.toNat ∨ 49 < col.toNat →
      exec (.tileNormal a b row col rows) s = .refused (.notWellFormed .field) ∧
      exec (.tileXor a b row col rows) s = .refused (.notWellFormed .field)) ∧
  ∀ (color : ColorIndex) (hCmd : BitVec 2) (hOff : BitVec 3) (vCmd : BitVec 2) (vOff : BitVec 4) (s : State),
    hCmd = 3 ∨ 5 < hOff.toNat ∨ vCmd = 3 ∨ 11 < vOff.toNat →
      exec (.scrollPreset color hCmd hOff vCmd vOff) s = .refused (.notWellFormed .field) ∧
      exec (.scrollCopy color hCmd hOff vCmd vOff) s = .refused (.notWellFormed .field)

/-- A packet instruction runs exactly when it is well-formed, and writes the framebuffer state alone: never the buffer or
the cursor (R66, R77). -/
def Obligations.PacketsTouchFramebufferOnly : Prop :=
  ∀ (i : Instr) (s : State), i.isPacket = true →
    (i.wf = true → ∃ fb, exec i s = .next { s with fb := fb }) ∧
    (i.wf = false → exec i s = .refused (.notWellFormed .field))

/-! ### Colour, tile and cursor commands -/

/-- `setScreenColor` (R81). -/
def Obligations.SetScreenColorRule : Prop :=
  ∀ (index : Nat) (s : State),
    (15 < index → exec (.setScreenColor index) s = .next { s with result := some (.error .paletteRangeError) }) ∧
    (index ≤ 15 →
      ∃ t, exec (.setScreenColor index) s = .next t ∧
        (∀ y x, y < 216 → x < 300 → pixelAt t.fb.canvas y x = some (BitVec.ofNat 4 index)) ∧
        t = { s with
          fb := { s.fb with canvas := t.fb.canvas, screenColor := some (BitVec.ofNat 4 index) }
          buffer := s.buffer ++ emitted Config.MEMORY_PRESET [BitVec.ofNat 8 index, 0]
          result := some .ok })

/-- `setBorderColor` (R82). -/
def Obligations.SetBorderColorRule : Prop :=
  ∀ (index : Nat) (s : State),
    (15 < index → exec (.setBorderColor index) s = .next { s with result := some (.error .paletteRangeError) }) ∧
    (index ≤ 15 →
      exec (.setBorderColor index) s = .next { s with
        fb := { s.fb with border := some (BitVec.ofNat 4 index) }
        buffer := s.buffer ++ emitted Config.BORDER_PRESET [BitVec.ofNat 8 index]
        result := some .ok })

/-- `writeTile`, `tileBlit` and `xorBlit`: their errors in the order they are checked, the one packet they emit and the
72 cells they write (R83, R84, R85). -/
def Obligations.WriteTileRule : Prop :=
  ∀ (row col colorA colorB : Nat) (px : List Nat) (xor : Bool) (s : State),
    ∀ i ∈ tileCommands row col colorA colorB px xor,
    (17 < row ∨ 49 < col → exec i s = .next { s with result := some (.error .outOfBounds) }) ∧
    (row ≤ 17 → col ≤ 49 → (15 < colorA ∨ 15 < colorB) →
      exec i s = .next { s with result := some (.error .paletteRangeError) }) ∧
    (row ≤ 17 → col ≤ 49 → colorA ≤ 15 → colorB ≤ 15 → (px.length ≠ 12 ∨ ∃ v ∈ px, 63 < v) →
      exec i s = .next { s with result := some (.error .invalidPayload) }) ∧
    (row ≤ 17 → col ≤ 49 → colorA ≤ 15 → colorB ≤ 15 → px.length = 12 → (∀ v ∈ px, v ≤ 63) →
      ∃ t, exec i s = .next t ∧
        (∀ r c dx dy, r ≤ 17 → c ≤ 49 → dx ≤ 5 → dy ≤ 11 →
          let old := pixelAt s.fb.canvas (12 * r + dy) (6 * c + dx)
          let v := BitVec.ofNat 4 (if (px.getD dy 0).testBit (5 - dx) then colorB else colorA)
          pixelAt t.fb.canvas (12 * r + dy) (6 * c + dx) =
            if r = row ∧ c = col then (if xor then old.map (· ^^^ v) else some v) else old) ∧
        t = { s with
          fb := { s.fb with canvas := t.fb.canvas }
          buffer := s.buffer ++ emitted (if xor then Config.TILE_XOR else Config.TILE_NORMAL)
            (([colorA, colorB, row, col] ++ px).map (BitVec.ofNat 8))
          result := some .ok })

/-- The XOR self-inverse law: the same `xorBlit` twice restores the canvas and everything else of the session but the
buffer, which holds the same packet twice more (R90). -/
def Obligations.XorBlitTwiceRestores : Prop :=
  ∀ (row col colorA colorB : Nat) (px : List Nat) (s : State),
    row ≤ 17 → col ≤ 49 → colorA ≤ 15 → colorB ≤ 15 → px.length = 12 → (∀ v ∈ px, v ≤ 63) →
    ∃ (u : State) (pkt : List Byte), exec (.xorBlit row col colorA colorB px) s = .next u ∧ pkt.length = 24 ∧
      u.buffer = s.buffer ++ pkt ∧
      exec (.xorBlit row col colorA colorB px) u =
        .next { s with buffer := s.buffer ++ pkt ++ pkt, result := some .ok }

/-- A normal tile draw makes an earlier XOR draw of the same tile irrelevant to the picture (R131). -/
def Obligations.NormalDrawHidesXor : Prop :=
  ∀ (row col a b a' b' : Nat) (px px' : List Nat) (s : State),
    row ≤ 17 → col ≤ 49 → a ≤ 15 → b ≤ 15 → px.length = 12 → (∀ v ∈ px, v ≤ 63) →
    a' ≤ 15 → b' ≤ 15 → px'.length = 12 → (∀ v ∈ px', v ≤ 63) →
    ∃ t u, runAll [.xorBlit row col a b px, .tileBlit row col a' b' px'] s = .next t ∧
      exec (.tileBlit row col a' b' px') s = .next u ∧ t.fb = u.fb

/-- `setCursor` (R86). -/
def Obligations.SetCursorRule : Prop :=
  ∀ (x y : Nat) (s : State),
    (49 ≤ x ∨ 17 ≤ y → exec (.setCursor x y) s = .next { s with result := some (.error .outOfBounds) }) ∧
    ∀ (hx : x < 49) (hy : y < 17),
      exec (.setCursor x y) s = .next { s with cursorCol := ⟨x, hx⟩, cursorRow := ⟨y, hy⟩, result := some .ok }

/-- `advanceCursor`, with the new line and the text scroll it may cause (R87, R88, R89). -/
def Obligations.AdvanceCursorRule : Prop :=
  ∀ s : State,
    (∀ h : s.cursorCol.val + 1 < 49,
      exec .advanceCursor s = .next { s with cursorCol := ⟨s.cursorCol.val + 1, h⟩, result := some .ok }) ∧
    (s.cursorCol.val = 48 → ∀ h : s.cursorRow.val + 1 < 17,
      exec .advanceCursor s =
        .next { s with cursorCol := 0, cursorRow := ⟨s.cursorRow.val + 1, h⟩, result := some .ok }) ∧
    (s.cursorCol.val = 48 → s.cursorRow.val = 16 →
      ∃ t, exec .advanceCursor s = .next t ∧
        (∀ y x, y < 216 → x < 300 →
          pixelAt t.fb.canvas y x = if 204 ≤ y then some 0 else pixelAt s.fb.canvas (y + 12) x) ∧
        t.fb.vTile.val = (s.fb.vTile.val + 1) % 18 ∧
        t = { s with
          fb := { s.fb with canvas := t.fb.canvas, vTile := t.fb.vTile }
          cursorCol := 0
          buffer := s.buffer ++ emitted Config.SCROLL_PRESET
            [0, BitVec.ofNat 8 s.fb.hOff.val, BitVec.ofNat 8 (0x20 + s.fb.vOff.val)]
          result := some .ok })

/-! ### Text -/

/-- `textTile`: its own check, then exactly what `writeTile` does at tile (y, x) with colours 0 and 1 and the font's
glyph; inside the grid it succeeds and leaves the cursor alone (R91). -/
def Obligations.TextTileRule : Prop :=
  ∀ (ch x y : Nat) (xor : Bool) (s : State),
    (255 < ch → exec (.textTile ch x y xor) s = .next { s with result := some (.error .invalidPayload) }) ∧
    (ch ≤ 255 →
      exec (.textTile ch x y xor) s =
        exec (.writeTile y x 0 1 ((Config.FONT (BitVec.ofNat 8 ch)).toList.map (·.toNat)) xor) s) ∧
    (ch ≤ 255 → (17 < y ∨ 49 < x) →
      exec (.textTile ch x y xor) s = .next { s with result := some (.error .outOfBounds) }) ∧
    (ch ≤ 255 → y ≤ 17 → x ≤ 49 →
      ∃ t, exec (.textTile ch x y xor) s = .next t ∧ t.result = some .ok ∧ t.cursorCol = s.cursorCol ∧
        t.cursorRow = s.cursorRow)

/-- `printScreen`: a code above 255 anywhere rejects the whole text; otherwise the characters are handled in order, a
newline moving to the next row or scrolling, any other code being drawn at the cursor before the cursor advances; and it
always succeeds, writing the canvas, `vTile`, the cursor and the buffer's end alone (R92). -/
def Obligations.PrintScreenRule : Prop :=
  ∀ (text : List Nat) (xor : Bool) (s : State),
    ((∃ ch ∈ text, 255 < ch) →
      exec (.printScreen text xor) s = .next { s with result := some (.error .invalidPayload) }) ∧
    ((∀ ch ∈ text, ch ≤ 255) →
      (∃ t, exec (.printScreen text xor) s = .next t ∧ s.buffer <+: t.buffer ∧
        t = { s with
          fb := { s.fb with canvas := t.fb.canvas, vTile := t.fb.vTile }
          cursorCol := t.cursorCol
          cursorRow := t.cursorRow
          buffer := t.buffer
          result := some .ok }) ∧
      (text = [] → exec (.printScreen text xor) s = .next { s with result := some .ok }) ∧
      (∀ rest, text = 0x0A :: rest →
        (∀ h : s.cursorRow.val + 1 < 17,
          exec (.printScreen text xor) s =
            exec (.printScreen rest xor) { s with cursorCol := 0, cursorRow := ⟨s.cursorRow.val + 1, h⟩ }) ∧
        (s.cursorRow.val = 16 →
          ∃ u, exec (.scroll .up 0 none false) { s with cursorCol := 0 } = .next u ∧
            exec (.printScreen text xor) s = exec (.printScreen rest xor) u)) ∧
      ∀ ch rest, text = ch :: rest → ch ≠ 0x0A →
        ∃ u v, exec (.textTile ch s.cursorCol.val s.cursorRow.val xor) s = .next u ∧ u.result = some .ok ∧
          exec .advanceCursor u = .next v ∧ exec (.printScreen text xor) s = exec (.printScreen rest xor) v)

/-! ### Scroll -/

/-- `scroll` in its coarse form, with the direction table (R94, with the commands of R93). -/
def Obligations.ScrollCoarseRule : Prop :=
  ∀ (d : Direction) (color : Nat) (wrap : Bool) (s : State),
    (15 < color → exec (.scroll d color none wrap) s = .next { s with result := some (.error .paletteRangeError) }) ∧
    (color ≤ 15 →
      let hCmd : Nat := match d with | .left => 2 | .right => 1 | .up => 0 | .down => 0
      let vCmd : Nat := match d with | .left => 0 | .right => 0 | .up => 2 | .down => 1
      ∃ t, exec (.scroll d color none wrap) s = .next t ∧
        (∀ y x, y < 216 → x < 300 →
          pixelAt t.fb.canvas y x =
            match d with
            | .left => if 294 ≤ x ∧ wrap = false then some (BitVec.ofNat 4 color) else pixelAt s.fb.canvas y ((x + 6) % 300)
            | .right => if x < 6 ∧ wrap = false then some (BitVec.ofNat 4 color) else pixelAt s.fb.canvas y ((x + 294) % 300)
            | .up => if 204 ≤ y ∧ wrap = false then some (BitVec.ofNat 4 color) else pixelAt s.fb.canvas ((y + 12) % 216) x
            | .down => if y < 12 ∧ wrap = false then some (BitVec.ofNat 4 color) else pixelAt s.fb.canvas ((y + 204) % 216) x) ∧
        t.fb.hTile.val = (s.fb.hTile.val + match d with | .left => 1 | .right => 49 | .up => 0 | .down => 0) % 50 ∧
        t.fb.vTile.val = (s.fb.vTile.val + match d with | .left => 0 | .right => 0 | .up => 1 | .down => 17) % 18 ∧
        t = { s with
          fb := { s.fb with canvas := t.fb.canvas, hTile := t.fb.hTile, vTile := t.fb.vTile }
          buffer := s.buffer ++ emitted (if wrap then Config.SCROLL_COPY else Config.SCROLL_PRESET)
            [BitVec.ofNat 8 color, BitVec.ofNat 8 (16 * hCmd + s.fb.hOff.val), BitVec.ofNat 8 (16 * vCmd + s.fb.vOff.val)]
          result := some .ok })

/-- `scroll` in its smooth form: the errors in order, and the fine offset of the direction's axis (R95). -/
def Obligations.ScrollStepRule : Prop :=
  ∀ (d : Direction) (color n : Nat) (wrap : Bool) (s : State),
    (15 < color → exec (.scroll d color (some n) wrap) s = .next { s with result := some (.error .paletteRangeError) }) ∧
    (color ≤ 15 → (d = .left ∨ d = .right) →
      (5 < n → exec (.scroll d color (some n) wrap) s = .next { s with result := some (.error .outOfBounds) }) ∧
      ∀ h : n < 6,
        exec (.scroll d color (some n) wrap) s = .next { s with
          fb := { s.fb with hOff := ⟨n, h⟩ }
          buffer := s.buffer ++ emitted (if wrap then Config.SCROLL_COPY else Config.SCROLL_PRESET)
            [BitVec.ofNat 8 color, BitVec.ofNat 8 n, BitVec.ofNat 8 s.fb.vOff.val]
          result := some .ok }) ∧
    (color ≤ 15 → (d = .up ∨ d = .down) →
      (11 < n → exec (.scroll d color (some n) wrap) s = .next { s with result := some (.error .outOfBounds) }) ∧
      ∀ h : n < 12,
        exec (.scroll d color (some n) wrap) s = .next { s with
          fb := { s.fb with vOff := ⟨n, h⟩ }
          buffer := s.buffer ++ emitted (if wrap then Config.SCROLL_COPY else Config.SCROLL_PRESET)
            [BitVec.ofNat 8 color, BitVec.ofNat 8 s.fb.hOff.val, BitVec.ofNat 8 n]
          result := some .ok })

/-- `smoothScroll`: its one packet, its fine offset, its carry into a coarse wrap move, and that the visible content moves
by exactly one pixel (R96). -/
def Obligations.SmoothScrollRule : Prop :=
  ∀ (d : Direction) (s : State),
    let h := s.fb.hOff.val
    let v := s.fb.vOff.val
    let hc : Nat := match d with | .left => if h < 5 then 0 else 2 | .right => if 0 < h then 0 else 1 | .up => 0 | .down => 0
    let ho : Nat := match d with | .left => (h + 1) % 6 | .right => (h + 5) % 6 | .up => h | .down => h
    let vc : Nat := match d with | .left => 0 | .right => 0 | .up => if v < 11 then 0 else 2 | .down => if 0 < v then 0 else 1
    let vo : Nat := match d with | .left => v | .right => v | .up => (v + 1) % 12 | .down => (v + 11) % 12
    ∃ t, exec (.smoothScroll d) s = .next t ∧
      (∀ y x, y < 216 → x < 300 →
        view t.fb y x =
          match d with
          | .left => view s.fb y ((x + 1) % 300)
          | .right => view s.fb y ((x + 299) % 300)
          | .up => view s.fb ((y + 1) % 216) x
          | .down => view s.fb ((y + 215) % 216) x) ∧
      (hc = 0 → vc = 0 → t.fb.canvas = s.fb.canvas) ∧
      t.fb.hOff.val = ho ∧ t.fb.vOff.val = vo ∧
      t.fb.hTile.val = (s.fb.hTile.val + (if hc = 2 then 1 else if hc = 1 then 49 else 0)) % 50 ∧
      t.fb.vTile.val = (s.fb.vTile.val + (if vc = 2 then 1 else if vc = 1 then 17 else 0)) % 18 ∧
      t = { s with
        fb := { s.fb with
          canvas := t.fb.canvas, hTile := t.fb.hTile, vTile := t.fb.vTile, hOff := t.fb.hOff, vOff := t.fb.vOff }
        buffer := s.buffer ++
          emitted Config.SCROLL_COPY [0, BitVec.ofNat 8 (16 * hc + ho), BitVec.ofNat 8 (16 * vc + vo)]
        result := some .ok }

/-- Wrap periodicity: a full turn of coarse or smooth wrap scrolls in any direction restores the whole framebuffer state,
and so the visible content (R97). -/
def Obligations.WrapScrollIsPeriodic : Prop :=
  ∀ (d : Direction) (color : Nat) (s : State), color ≤ 15 →
    let tiles : Nat := match d with | .left => 50 | .right => 50 | .up => 18 | .down => 18
    let pixels : Nat := match d with | .left => 300 | .right => 300 | .up => 216 | .down => 216
    (∃ t, runAll (List.replicate tiles (.scroll d color none true)) s = .next t ∧ t.fb = s.fb ∧
      t.buffer.length = s.buffer.length + 24 * tiles) ∧
    ∃ t, runAll (List.replicate pixels (.smoothScroll d)) s = .next t ∧ t.fb = s.fb ∧
      t.buffer.length = s.buffer.length + 24 * pixels

/-! ### Palette and fades -/

/-- `paletteLow` and `paletteHigh`: their errors in order, the colours they load, and the packet they emit (R100, R101,
R102). -/
def Obligations.PaletteHalfRule : Prop :=
  ∀ (high dup : Bool) (palette : List Nat) (s : State),
    let i : Instr := if high then .paletteHigh palette dup else .paletteLow palette dup
    let base : Nat := if high then 8 else 0
    let n := palette.length
    ((8 < n ∨ ∃ v ∈ palette, 0xFFF < v) → exec i s = .next { s with result := some (.error .paletteRangeError) }) ∧
    (n < 8 → (∀ v ∈ palette, v ≤ 0xFFF) →
      (dup = true ∧ n = 0) ∨ (dup = false ∧ ∃ k < 8, n ≤ k ∧ entryOf s (base + k) = none) →
      exec i s = .next { s with result := some (.error .ambiguousFill) }) ∧
    (n ≤ 8 → (∀ v ∈ palette, v ≤ 0xFFF) →
      (n = 8 ∨ (dup = true ∧ 0 < n) ∨ (dup = false ∧ ∀ k < 8, n ≤ k → entryOf s (base + k) ≠ none)) →
      ∃ t, exec i s = .next t ∧
        (∀ k < 8,
          entryOf t (base + k) =
            (if k < n then some (BitVec.ofNat 12 (palette.getD k 0))
              else if dup then some (BitVec.ofNat 12 (palette.getD (k % n) 0))
              else entryOf s (base + k)) ∧
          entryOf t (8 - base + k) = entryOf s (8 - base + k)) ∧
        t = { s with
          fb := { s.fb with palette := t.fb.palette }
          buffer := s.buffer ++ emitted (if high then Config.LOAD_CLUT_HIGH else Config.LOAD_CLUT_LOW)
            (colorBytes ((List.range 8).map fun k => ((entryOf t (base + k)).getD 0).toNat))
          result := some .ok })

/-- `Scale` works on each channel and rounds down; full scale is the colour itself and zero scale is black (R103). -/
def Obligations.ScaleChannels : Prop :=
  ∀ (v num den : Nat), v ≤ 0xFFF → num ≤ den → 0 < den →
    scaleColor v num den / 256 = v / 256 * num / den ∧
    scaleColor v num den / 16 % 16 = v / 16 % 16 * num / den ∧
    scaleColor v num den % 16 = v % 16 * num / den ∧
    scaleColor v num den ≤ 0xFFF ∧ scaleColor v den den = v ∧ scaleColor v 0 den = 0

/-- `fadeIn` and `fadeOut`: their errors in order, every packet they append, the palette they end with, and that nothing
else changes (R104, R105). -/
def Obligations.FadeRule : Prop :=
  ∀ (out : Bool) (speed : Nat) (palette : List Nat) (s : State),
    let i : Instr := if out then .fadeOut speed palette else .fadeIn speed palette
    let levels : List Nat := if out then [14, 13, 12, 11, 10, 9, 8, 7, 6, 5, 4, 3, 2, 1, 0]
      else [1, 2, 3, 4, 5, 6, 7, 8, 9, 10, 11, 12, 13, 14, 15]
    (palette.length < 16 → exec i s = .next { s with result := some (.error .ambiguousFill) }) ∧
    ((16 < palette.length ∨ (palette.length = 16 ∧ ∃ v ∈ palette, 0xFFF < v)) →
      exec i s = .next { s with result := some (.error .paletteRangeError) }) ∧
    (palette.length = 16 → (∀ v ∈ palette, v ≤ 0xFFF) →
      ∃ t, exec i s = .next t ∧
        (∀ k < 16, entryOf t k = some (BitVec.ofNat 12 (if out then 0 else palette.getD k 0))) ∧
        t.buffer.length = s.buffer.length + 24 * (15 * max speed 2) ∧
        t = { s with
          fb := { s.fb with palette := t.fb.palette }
          buffer := s.buffer ++ fadeBytes speed palette levels
          result := some .ok })

/-! ### Image scroll -/

/-- `Reduce`: colour A is the most frequent and colour B the next most frequent, ties going to the smaller index; each
row bit says whether the pixel is A; and a block of at most two colours is reproduced exactly (R106). -/
def Obligations.ReductionRule : Prop :=
  ∀ block : Nat → Nat → Nat, (∀ j < 12, ∀ i < 6, block j i ≤ 15) →
    let count := countColor block
    let a := (reduce block).1
    let b := (reduce block).2.1
    let rows := (reduce block).2.2
    (a ≤ 15 ∧ ∀ v ≤ 15, count v ≤ count a ∧ (count v = count a → a ≤ v)) ∧
    (count a = 72 → b = a) ∧
    (count a ≠ 72 → b ≤ 15 ∧ b ≠ a ∧ 0 < count b ∧
      ∀ v ≤ 15, v ≠ a → count v ≤ count b ∧ (count v = count b → b ≤ v)) ∧
    (rows.length = 12 ∧ ∀ j < 12, rows.getD j 0 ≤ 63 ∧
      ∀ i < 6, (rows.getD j 0).testBit (5 - i) = decide (block j i ≠ a)) ∧
    ((∃ p q, ∀ j < 12, ∀ i < 6, block j i = p ∨ block j i = q) →
      ∀ j < 12, ∀ i < 6, (if (rows.getD j 0).testBit (5 - i) then b else a) = block j i)

/-- `scrollImageUp`: the pixels of an image tile; its errors in order; otherwise it does exactly what its sequence of
commands does, in that many packets (R107, R108). The clauses that the coarse counter ends one further for each tile row
and that the fine offset ends where it began are R108's own inference, marked there [derived: from 42_text_scroll.md rule
R96]. -/
def Obligations.ScrollImageRule : Prop :=
  ∀ (image : List (List Nat)) (speed : Nat) (s : State),
    (∀ k c' j i, imageTile image k c' j i = (image.getD (12 * k + j) []).getD (6 * c' + i) 0) ∧
    ((image.length = 0 ∨ image.length % 12 ≠ 0 ∨ ∃ line ∈ image, line.length ≠ 300) →
      exec (.scrollImageUp image speed) s = .next { s with result := some (.error .outOfBounds) }) ∧
    (0 < image.length → image.length % 12 = 0 → (∀ line ∈ image, line.length = 300) →
      ((∃ line ∈ image, ∃ v ∈ line, 15 < v) →
        exec (.scrollImageUp image speed) s = .next { s with result := some (.error .paletteRangeError) }) ∧
      ((∀ line ∈ image, ∀ v ∈ line, v ≤ 15) →
        ∃ t, exec (.scrollImageUp image speed) s = .next t ∧
          runAll (imageScript image speed) s = .next t ∧
          t.buffer.length = s.buffer.length + 24 * (image.length / 12 * (50 + 12 * max speed 1)) ∧
          t.fb.vTile.val = (s.fb.vTile.val + image.length / 12) % 18 ∧
          t = { s with
            fb := { s.fb with canvas := t.fb.canvas, vTile := t.fb.vTile }
            buffer := t.buffer
            result := some .ok }))

/-! ### Stream -/

/-- `newBuffer` leaves every field of the session at its reset value, twice as once, and `getBuffer` then returns nothing
(R109). What is still asked of the machine is no field of the session and stays (log entry 7). -/
def Obligations.NewBufferRule : Prop :=
  ∀ s : State,
    exec .newBuffer s = .next { State.reset with pending := s.pending, result := some .ok } ∧
    runAll [.newBuffer, .newBuffer] s = exec .newBuffer s ∧
    ∃ t, runAll [.newBuffer, .getBuffer] s = .next t ∧ t.result = some (.bytes [])

/-- `getBuffer` returns the whole buffer and writes no state (R110). -/
def Obligations.GetBufferRule : Prop := ∀ s : State, exec .getBuffer s = .next { s with result := some (.bytes s.buffer) }

/-- `delayTicks` appends n no-op packets and `delaySeconds` 150 a second, and neither changes anything else (R111,
R112). -/
def Obligations.DelayRule : Prop :=
  ∀ (n : Nat) (s : State),
    exec (.delayTicks n) s = .next { s with
      buffer := s.buffer ++ (List.replicate n (emitted Config.NOOP [])).flatten, result := some .ok } ∧
    exec (.delaySeconds n) s = .next { s with
      buffer := s.buffer ++ (List.replicate (150 * n) (emitted Config.NOOP [])).flatten, result := some .ok }

/-! ### The whole machine -/

/-- Every command always answers: whatever its operands and the state, it has a next state that holds its result (R5,
R113, R136). -/
def Obligations.CommandsAlwaysAnswer : Prop :=
  ∀ (i : Instr) (s : State), i.isPacket = false → ∃ t r, exec i s = .next t ∧ t.result = some r

/-- A command that raises an error changes no field of the session and appends no packet (R115). -/
def Obligations.ErrorsLeaveStateUnchanged : Prop :=
  ∀ (i : Instr) (s t : State) (e : CommandError), i.isPacket = false → exec i s = .next t → t.result = some (.error e) →
    t = { s with result := some (.error e) }

/-- Every step keeps the buffer a list of whole, well-formed packets (R30, R78 item 6). -/
def Obligations.StepKeepsPacketsWellFormed : Prop :=
  ∀ s t : State, BufferOk Config.live s → step s = .next t → BufferOk Config.live t

/-- At reset the State is one of a session (log entry 5), the buffer is well-formed and the framebuffer state is the replay of it (R28, R29,
R30). -/
def Obligations.ResetMeetsInvariants : Prop :=
  IsSession State.reset ∧ Memory.wf State.reset ∧ BufferOk Config.live State.reset ∧ Mirrors Config.live State.reset

/-- Every step of a session, whose host can only issue commands (R6), keeps the buffer well-formed and the framebuffer
state the replay of the stream (R29, R30), and leaves a session. -/
def Obligations.StepKeepsReplayLaw : Prop :=
  ∀ s t : State, BufferOk Config.live s → Mirrors Config.live s → IsSession s → step s = .next t →
    BufferOk Config.live t ∧ Mirrors Config.live t ∧ IsSession t

/-- The replay law: after any sequence of host commands from reset, the framebuffer state is the replay of the stream
(R29). -/
def Obligations.ReplayLawFromReset : Prop :=
  ∀ commands : List Instr, (∀ i ∈ commands, i.isPacket = false) →
    ∃ t, runAll commands State.reset = .next t ∧ BufferOk Config.live t ∧
      replay Config.live Framebuffer.reset (packetsOf t) = some t.fb

/-- The buffer is append-only: only `newBuffer` takes anything out of it (R25). -/
def Obligations.BufferIsAppendOnly : Prop :=
  ∀ (i : Instr) (s t : State), exec i s = .next t →
    (i ≠ .newBuffer → s.buffer <+: t.buffer) ∧ (i = .newBuffer → t.buffer = [])

/-- Each command emits only well-formed packets of the instructions its row of the command table names (R57, R78 item
6). -/
def Obligations.CommandsEmitOnlyTheirPackets : Prop :=
  ∀ (i : Instr) (s t : State), exec i s = .next t → i ≠ .newBuffer →
    ∃ bs : List (List Byte), t.buffer = s.buffer ++ bs.flatten ∧
      ∀ b ∈ bs, wellFormed Config.live b = true ∧ codeOf b ∈ emittedCodes i

/-- The screen colour is written by `setScreenColor` and a MEMORY_PRESET packet alone, and the border by `setBorderColor`
and a BORDER_PRESET packet alone, apart from the reset of `newBuffer` (R18, R19). -/
def Obligations.ColorRegisterWriters : Prop :=
  ∀ (i : Instr) (s t : State), exec i s = .next t → i ≠ .newBuffer →
    (t.fb.screenColor ≠ s.fb.screenColor → (∃ n, i = .setScreenColor n) ∨ ∃ color rep, i = .memoryPreset color rep) ∧
    (t.fb.border ≠ s.fb.border → (∃ n, i = .setBorderColor n) ∨ ∃ color, i = .borderPreset color)

/-- The palette is written by palette loads and fades alone, and the scroll offsets and counters by scrolls alone, text
and image scrolls among them, apart from the reset of `newBuffer` (R20, R21, R22). -/
def Obligations.PaletteAndOffsetWriters : Prop :=
  ∀ (i : Instr) (s t : State), exec i s = .next t → i ≠ .newBuffer →
    (t.fb.palette ≠ s.fb.palette →
      (∃ cs, i = .loadClutLow cs) ∨ (∃ cs, i = .loadClutHigh cs) ∨ (∃ p d, i = .paletteLow p d) ∨
      (∃ p d, i = .paletteHigh p d) ∨ (∃ n p, i = .fadeIn n p) ∨ ∃ n p, i = .fadeOut n p) ∧
    ((t.fb.hOff, t.fb.vOff, t.fb.hTile, t.fb.vTile) ≠ (s.fb.hOff, s.fb.vOff, s.fb.hTile, s.fb.vTile) →
      (∃ col hc ho vc vo, i = .scrollPreset col hc ho vc vo) ∨ (∃ col hc ho vc vo, i = .scrollCopy col hc ho vc vo) ∨
      (∃ d col st w, i = .scroll d col st w) ∨ (∃ d, i = .smoothScroll d) ∨ i = .advanceCursor ∨
      (∃ text x, i = .printScreen text x) ∨ ∃ image n, i = .scrollImageUp image n)

/-- The text cursor is written by `setCursor`, `advanceCursor` and `printScreen` alone, apart from the reset of
`newBuffer` (R24). -/
def Obligations.CursorWriters : Prop :=
  ∀ (i : Instr) (s t : State), exec i s = .next t → i ≠ .newBuffer →
    (t.cursorCol ≠ s.cursorCol ∨ t.cursorRow ≠ s.cursorRow) →
    (∃ x y, i = .setCursor x y) ∨ i = .advanceCursor ∨ ∃ text xor, i = .printScreen text xor

/-- The ticks that commands take: a command that succeeds appends as many packets, and so takes as many slots, as its row
of R135's table says, and one that raises an error takes none; `newBuffer` alone is left out, since it empties the buffer
(R122, R135). -/
def Obligations.SlotCounts : Prop :=
  ∀ (i : Instr) (s t : State), exec i s = .next t → i.isPacket = false → i ≠ .newBuffer →
    ((∀ e, t.result ≠ some (.error e)) → elapsedTicks t = elapsedTicks s + slotsTaken s i) ∧
    ((∃ e, t.result = some (.error e)) → elapsedTicks t = elapsedTicks s)

/-- The pseudo-commands do what their expansions do (R59). -/
def Obligations.PseudoCommandsExpand : Prop :=
  ∀ (i : Instr) (s : State), exec (expandPseudo Config.live i) s = exec i s

/-- The reset state holds the values of R28 in every field. -/
def Obligations.ResetValues : Prop :=
  (∀ y x, pixelAt State.reset.fb.canvas y x = none) ∧ State.reset.fb.screenColor = none ∧ State.reset.fb.border = none ∧
  (∀ k, entryOf State.reset k = none) ∧ State.reset.fb.hOff.val = 0 ∧ State.reset.fb.vOff.val = 0 ∧
  State.reset.fb.hTile.val = 0 ∧ State.reset.fb.vTile.val = 0 ∧ State.reset.cursorCol.val = 0 ∧
  State.reset.cursorRow.val = 0 ∧ State.reset.buffer = []

/-- The two functions of the tile indexer, and that they are inverse to each other between the tile tuples and the pixels
(R79). -/
def Obligations.TileIndexerBijective : Prop :=
  (∀ r c i j, tilePixel r c i j = (6 * c + i, 12 * r + j)) ∧ (∀ x y, tileOf x y = (y / 12, x / 6, x % 6, y % 12)) ∧
  (∀ r c i j, r ≤ 17 → c ≤ 49 → i ≤ 5 → j ≤ 11 →
    (tilePixel r c i j).1 < 300 ∧ (tilePixel r c i j).2 < 216 ∧
    tileOf (tilePixel r c i j).1 (tilePixel r c i j).2 = (r, c, i, j)) ∧
  ∀ x y, x < 300 → y < 216 →
    (tileOf x y).1 ≤ 17 ∧ (tileOf x y).2.1 ≤ 49 ∧ (tileOf x y).2.2.1 ≤ 5 ∧ (tileOf x y).2.2.2 ≤ 11 ∧
    tilePixel (tileOf x y).1 (tileOf x y).2.1 (tileOf x y).2.2.1 (tileOf x y).2.2.2 = (x, y)

/-- The four boot commands of R128 define every field of the framebuffer state that has an `undef`, from any state. -/
def Obligations.BootDefinesEverything : Prop :=
  ∀ (screen border : Nat) (low high : List Nat) (s : State), screen ≤ 15 → border ≤ 15 → low.length = 8 →
    high.length = 8 → (∀ v ∈ low, v ≤ 0xFFF) → (∀ v ∈ high, v ≤ 0xFFF) →
    ∃ t, runAll [.setScreenColor screen, .setBorderColor border, .paletteLow low false, .paletteHigh high false] s =
        .next t ∧
      (∀ y x, y < 216 → x < 300 → pixelAt t.fb.canvas y x = some (BitVec.ofNat 4 screen)) ∧
      t.fb.screenColor = some (BitVec.ofNat 4 screen) ∧ t.fb.border = some (BitVec.ofNat 4 border) ∧
      (∀ k < 8, entryOf t k = some (BitVec.ofNat 12 (low.getD k 0)) ∧
        entryOf t (8 + k) = some (BitVec.ofNat 12 (high.getD k 0))) ∧
      elapsedTicks t = elapsedTicks s + 4

/-- Sessions share nothing: a step of one leaves every other as it was, and does what a step of it alone does (R124). -/
def Obligations.SessionsShareNothing : Prop :=
  ∀ (k : Nat) (sessions after : List State) (s : State), sessions[k]? = some s → stepSession k sessions = .next after →
    (∃ t, step s = .next t ∧ after[k]? = some t) ∧ ∀ j, j ≠ k → after[j]? = sessions[j]?

end
end

