-- ==== Sys2Proof/Laws/State.lean ====
section
/-! SUPPORT. One lemma per field per update of the state, and per field of the framebuffer for the effect of each packet:
what every update writes and what it leaves unchanged, so that no later proof unfolds a record update. -/

namespace Sys2Proof.Machine

@[simp] theorem setFb_fb (s : State) (v : Framebuffer) : (s.setFb v).fb = v := rfl
@[simp] theorem setFb_cursorCol (s : State) (v : Framebuffer) : (s.setFb v).cursorCol = s.cursorCol := rfl
@[simp] theorem setFb_cursorRow (s : State) (v : Framebuffer) : (s.setFb v).cursorRow = s.cursorRow := rfl
@[simp] theorem setFb_buffer (s : State) (v : Framebuffer) : (s.setFb v).buffer = s.buffer := rfl
@[simp] theorem setFb_pending (s : State) (v : Framebuffer) : (s.setFb v).pending = s.pending := rfl
@[simp] theorem setFb_result (s : State) (v : Framebuffer) : (s.setFb v).result = s.result := rfl

@[simp] theorem setCursor_fb (s : State) (c : Fin 49) (r : Fin 17) : (s.setCursor c r).fb = s.fb := rfl
@[simp] theorem setCursor_cursorCol (s : State) (c : Fin 49) (r : Fin 17) : (s.setCursor c r).cursorCol = c := rfl
@[simp] theorem setCursor_cursorRow (s : State) (c : Fin 49) (r : Fin 17) : (s.setCursor c r).cursorRow = r := rfl
@[simp] theorem setCursor_buffer (s : State) (c : Fin 49) (r : Fin 17) : (s.setCursor c r).buffer = s.buffer := rfl
@[simp] theorem setCursor_pending (s : State) (c : Fin 49) (r : Fin 17) : (s.setCursor c r).pending = s.pending := rfl
@[simp] theorem setCursor_result (s : State) (c : Fin 49) (r : Fin 17) : (s.setCursor c r).result = s.result := rfl

@[simp] theorem setBuffer_fb (s : State) (v : List Byte) : (s.setBuffer v).fb = s.fb := rfl
@[simp] theorem setBuffer_cursorCol (s : State) (v : List Byte) : (s.setBuffer v).cursorCol = s.cursorCol := rfl
@[simp] theorem setBuffer_cursorRow (s : State) (v : List Byte) : (s.setBuffer v).cursorRow = s.cursorRow := rfl
@[simp] theorem setBuffer_buffer (s : State) (v : List Byte) : (s.setBuffer v).buffer = v := rfl
@[simp] theorem setBuffer_pending (s : State) (v : List Byte) : (s.setBuffer v).pending = s.pending := rfl
@[simp] theorem setBuffer_result (s : State) (v : List Byte) : (s.setBuffer v).result = s.result := rfl

@[simp] theorem setPending_fb (s : State) (v : Pending) : (s.setPending v).fb = s.fb := rfl
@[simp] theorem setPending_cursorCol (s : State) (v : Pending) : (s.setPending v).cursorCol = s.cursorCol := rfl
@[simp] theorem setPending_cursorRow (s : State) (v : Pending) : (s.setPending v).cursorRow = s.cursorRow := rfl
@[simp] theorem setPending_buffer (s : State) (v : Pending) : (s.setPending v).buffer = s.buffer := rfl
@[simp] theorem setPending_pending (s : State) (v : Pending) : (s.setPending v).pending = v := rfl
@[simp] theorem setPending_result (s : State) (v : Pending) : (s.setPending v).result = s.result := rfl
@[simp] theorem setPending_replayed_host (s : State) (v : List Command) : (s.setPending (.host v)).replayed = [] := rfl
@[simp] theorem setPending_replayed_replay (s : State) (v : List ForeignPacket) :
    (s.setPending (.replay v)).replayed = v := rfl

@[simp] theorem setResult_fb (s : State) (v : Option Result) : (s.setResult v).fb = s.fb := rfl
@[simp] theorem setResult_cursorCol (s : State) (v : Option Result) : (s.setResult v).cursorCol = s.cursorCol := rfl
@[simp] theorem setResult_cursorRow (s : State) (v : Option Result) : (s.setResult v).cursorRow = s.cursorRow := rfl
@[simp] theorem setResult_buffer (s : State) (v : Option Result) : (s.setResult v).buffer = s.buffer := rfl
@[simp] theorem setResult_pending (s : State) (v : Option Result) : (s.setResult v).pending = s.pending := rfl
@[simp] theorem setResult_result (s : State) (v : Option Result) : (s.setResult v).result = v := rfl

@[simp] theorem applyNoop_canvas (fb : Framebuffer) :
    (applyNoop fb).canvas = fb.canvas := rfl
@[simp] theorem applyNoop_screenColor (fb : Framebuffer) :
    (applyNoop fb).screenColor = fb.screenColor := rfl
@[simp] theorem applyNoop_border (fb : Framebuffer) :
    (applyNoop fb).border = fb.border := rfl
@[simp] theorem applyNoop_palette (fb : Framebuffer) :
    (applyNoop fb).palette = fb.palette := rfl
@[simp] theorem applyNoop_hOff (fb : Framebuffer) :
    (applyNoop fb).hOff = fb.hOff := rfl
@[simp] theorem applyNoop_vOff (fb : Framebuffer) :
    (applyNoop fb).vOff = fb.vOff := rfl
@[simp] theorem applyNoop_hTile (fb : Framebuffer) :
    (applyNoop fb).hTile = fb.hTile := rfl
@[simp] theorem applyNoop_vTile (fb : Framebuffer) :
    (applyNoop fb).vTile = fb.vTile := rfl

@[simp] theorem applyMemoryPreset_border (c : ColorIndex) (n : BitVec 4) (fb : Framebuffer) :
    (applyMemoryPreset c n fb).border = fb.border := rfl
@[simp] theorem applyMemoryPreset_palette (c : ColorIndex) (n : BitVec 4) (fb : Framebuffer) :
    (applyMemoryPreset c n fb).palette = fb.palette := rfl
@[simp] theorem applyMemoryPreset_hOff (c : ColorIndex) (n : BitVec 4) (fb : Framebuffer) :
    (applyMemoryPreset c n fb).hOff = fb.hOff := rfl
@[simp] theorem applyMemoryPreset_vOff (c : ColorIndex) (n : BitVec 4) (fb : Framebuffer) :
    (applyMemoryPreset c n fb).vOff = fb.vOff := rfl
@[simp] theorem applyMemoryPreset_hTile (c : ColorIndex) (n : BitVec 4) (fb : Framebuffer) :
    (applyMemoryPreset c n fb).hTile = fb.hTile := rfl
@[simp] theorem applyMemoryPreset_vTile (c : ColorIndex) (n : BitVec 4) (fb : Framebuffer) :
    (applyMemoryPreset c n fb).vTile = fb.vTile := rfl

@[simp] theorem applyBorderPreset_canvas (c : ColorIndex) (fb : Framebuffer) :
    (applyBorderPreset c fb).canvas = fb.canvas := rfl
@[simp] theorem applyBorderPreset_screenColor (c : ColorIndex) (fb : Framebuffer) :
    (applyBorderPreset c fb).screenColor = fb.screenColor := rfl
@[simp] theorem applyBorderPreset_palette (c : ColorIndex) (fb : Framebuffer) :
    (applyBorderPreset c fb).palette = fb.palette := rfl
@[simp] theorem applyBorderPreset_hOff (c : ColorIndex) (fb : Framebuffer) :
    (applyBorderPreset c fb).hOff = fb.hOff := rfl
@[simp] theorem applyBorderPreset_vOff (c : ColorIndex) (fb : Framebuffer) :
    (applyBorderPreset c fb).vOff = fb.vOff := rfl
@[simp] theorem applyBorderPreset_hTile (c : ColorIndex) (fb : Framebuffer) :
    (applyBorderPreset c fb).hTile = fb.hTile := rfl
@[simp] theorem applyBorderPreset_vTile (c : ColorIndex) (fb : Framebuffer) :
    (applyBorderPreset c fb).vTile = fb.vTile := rfl

@[simp] theorem applyTileNormal_screenColor (a b : ColorIndex) (r : BitVec 5) (c : BitVec 6) (px : Vector (BitVec 6) 12) (fb : Framebuffer) :
    (applyTileNormal a b r c px fb).screenColor = fb.screenColor := rfl
@[simp] theorem applyTileNormal_border (a b : ColorIndex) (r : BitVec 5) (c : BitVec 6) (px : Vector (BitVec 6) 12) (fb : Framebuffer) :
    (applyTileNormal a b r c px fb).border = fb.border := rfl
@[simp] theorem applyTileNormal_palette (a b : ColorIndex) (r : BitVec 5) (c : BitVec 6) (px : Vector (BitVec 6) 12) (fb : Framebuffer) :
    (applyTileNormal a b r c px fb).palette = fb.palette := rfl
@[simp] theorem applyTileNormal_hOff (a b : ColorIndex) (r : BitVec 5) (c : BitVec 6) (px : Vector (BitVec 6) 12) (fb : Framebuffer) :
    (applyTileNormal a b r c px fb).hOff = fb.hOff := rfl
@[simp] theorem applyTileNormal_vOff (a b : ColorIndex) (r : BitVec 5) (c : BitVec 6) (px : Vector (BitVec 6) 12) (fb : Framebuffer) :
    (applyTileNormal a b r c px fb).vOff = fb.vOff := rfl
@[simp] theorem applyTileNormal_hTile (a b : ColorIndex) (r : BitVec 5) (c : BitVec 6) (px : Vector (BitVec 6) 12) (fb : Framebuffer) :
    (applyTileNormal a b r c px fb).hTile = fb.hTile := rfl
@[simp] theorem applyTileNormal_vTile (a b : ColorIndex) (r : BitVec 5) (c : BitVec 6) (px : Vector (BitVec 6) 12) (fb : Framebuffer) :
    (applyTileNormal a b r c px fb).vTile = fb.vTile := rfl

@[simp] theorem applyTileXor_screenColor (a b : ColorIndex) (r : BitVec 5) (c : BitVec 6) (px : Vector (BitVec 6) 12) (fb : Framebuffer) :
    (applyTileXor a b r c px fb).screenColor = fb.screenColor := rfl
@[simp] theorem applyTileXor_border (a b : ColorIndex) (r : BitVec 5) (c : BitVec 6) (px : Vector (BitVec 6) 12) (fb : Framebuffer) :
    (applyTileXor a b r c px fb).border = fb.border := rfl
@[simp] theorem applyTileXor_palette (a b : ColorIndex) (r : BitVec 5) (c : BitVec 6) (px : Vector (BitVec 6) 12) (fb : Framebuffer) :
    (applyTileXor a b r c px fb).palette = fb.palette := rfl
@[simp] theorem applyTileXor_hOff (a b : ColorIndex) (r : BitVec 5) (c : BitVec 6) (px : Vector (BitVec 6) 12) (fb : Framebuffer) :
    (applyTileXor a b r c px fb).hOff = fb.hOff := rfl
@[simp] theorem applyTileXor_vOff (a b : ColorIndex) (r : BitVec 5) (c : BitVec 6) (px : Vector (BitVec 6) 12) (fb : Framebuffer) :
    (applyTileXor a b r c px fb).vOff = fb.vOff := rfl
@[simp] theorem applyTileXor_hTile (a b : ColorIndex) (r : BitVec 5) (c : BitVec 6) (px : Vector (BitVec 6) 12) (fb : Framebuffer) :
    (applyTileXor a b r c px fb).hTile = fb.hTile := rfl
@[simp] theorem applyTileXor_vTile (a b : ColorIndex) (r : BitVec 5) (c : BitVec 6) (px : Vector (BitVec 6) 12) (fb : Framebuffer) :
    (applyTileXor a b r c px fb).vTile = fb.vTile := rfl

@[simp] theorem applyScroll_screenColor (m : Edge) (hc : BitVec 2) (ho : BitVec 3) (vc : BitVec 2) (vo : BitVec 4) (fb : Framebuffer) :
    (applyScroll m hc ho vc vo fb).screenColor = fb.screenColor := rfl
@[simp] theorem applyScroll_border (m : Edge) (hc : BitVec 2) (ho : BitVec 3) (vc : BitVec 2) (vo : BitVec 4) (fb : Framebuffer) :
    (applyScroll m hc ho vc vo fb).border = fb.border := rfl
@[simp] theorem applyScroll_palette (m : Edge) (hc : BitVec 2) (ho : BitVec 3) (vc : BitVec 2) (vo : BitVec 4) (fb : Framebuffer) :
    (applyScroll m hc ho vc vo fb).palette = fb.palette := rfl

@[simp] theorem applyLoadClutLow_canvas (cs : Vector Color 8) (fb : Framebuffer) :
    (applyLoadClutLow cs fb).canvas = fb.canvas := rfl
@[simp] theorem applyLoadClutLow_screenColor (cs : Vector Color 8) (fb : Framebuffer) :
    (applyLoadClutLow cs fb).screenColor = fb.screenColor := rfl
@[simp] theorem applyLoadClutLow_border (cs : Vector Color 8) (fb : Framebuffer) :
    (applyLoadClutLow cs fb).border = fb.border := rfl
@[simp] theorem applyLoadClutLow_hOff (cs : Vector Color 8) (fb : Framebuffer) :
    (applyLoadClutLow cs fb).hOff = fb.hOff := rfl
@[simp] theorem applyLoadClutLow_vOff (cs : Vector Color 8) (fb : Framebuffer) :
    (applyLoadClutLow cs fb).vOff = fb.vOff := rfl
@[simp] theorem applyLoadClutLow_hTile (cs : Vector Color 8) (fb : Framebuffer) :
    (applyLoadClutLow cs fb).hTile = fb.hTile := rfl
@[simp] theorem applyLoadClutLow_vTile (cs : Vector Color 8) (fb : Framebuffer) :
    (applyLoadClutLow cs fb).vTile = fb.vTile := rfl

@[simp] theorem applyLoadClutHigh_canvas (cs : Vector Color 8) (fb : Framebuffer) :
    (applyLoadClutHigh cs fb).canvas = fb.canvas := rfl
@[simp] theorem applyLoadClutHigh_screenColor (cs : Vector Color 8) (fb : Framebuffer) :
    (applyLoadClutHigh cs fb).screenColor = fb.screenColor := rfl
@[simp] theorem applyLoadClutHigh_border (cs : Vector Color 8) (fb : Framebuffer) :
    (applyLoadClutHigh cs fb).border = fb.border := rfl
@[simp] theorem applyLoadClutHigh_hOff (cs : Vector Color 8) (fb : Framebuffer) :
    (applyLoadClutHigh cs fb).hOff = fb.hOff := rfl
@[simp] theorem applyLoadClutHigh_vOff (cs : Vector Color 8) (fb : Framebuffer) :
    (applyLoadClutHigh cs fb).vOff = fb.vOff := rfl
@[simp] theorem applyLoadClutHigh_hTile (cs : Vector Color 8) (fb : Framebuffer) :
    (applyLoadClutHigh cs fb).hTile = fb.hTile := rfl
@[simp] theorem applyLoadClutHigh_vTile (cs : Vector Color 8) (fb : Framebuffer) :
    (applyLoadClutHigh cs fb).vTile = fb.vTile := rfl

end Sys2Proof.Machine
end

