-- ==== Sys2Proof/Laws/Canvas.lean ====
section
/-! SUPPORT. The canvas as an array of cells: what a built canvas reads as, when two canvases are equal, and what each
canvas operation reads as at every cell. The operations themselves need not be unfolded after this. -/

namespace Sys2Proof

@[simp] theorem tabulate_getElem {α : Type} (n : Nat) (f : Nat → α) (i : Nat) (h : i < n) :
    (tabulate n f)[i] = f i := by simp [tabulate]

theorem tabulate_toList {α : Type} (n : Nat) (f : Nat → α) : (tabulate n f).toList = (List.range n).map f := by
  simp [tabulate, Vector.toList]

namespace Machine

theorem pixelAt_in (cv : Canvas) {y x : Nat} (hy : y < 216) (hx : x < 300) : pixelAt cv y x = cv[y][x] := by
  simp only [pixelAt, hy, hx, and_self, dif_pos]; rfl

/-- There is no cell outside the canvas. -/
theorem pixelAt_out (cv : Canvas) {y x : Nat} (h : ¬ (y < 216 ∧ x < 300)) : pixelAt cv y x = none := by
  simp only [pixelAt, h, dif_neg, not_false_iff]

/-- A built canvas reads as the function it was built from. -/
theorem pixelAt_canvasOf (f : Nat → Nat → Cell) (y x : Nat) :
    pixelAt (canvasOf f) y x = if y < 216 ∧ x < 300 then f y x else none := by
  by_cases h : y < 216 ∧ x < 300
  · rw [pixelAt_in _ h.1 h.2, if_pos h]
    simp [canvasOf]
  · rw [pixelAt_out _ h, if_neg h]

/-- Canvases that agree on every cell are equal. -/
theorem canvas_ext {cv dv : Canvas} (h : ∀ y x, y < 216 → x < 300 → pixelAt cv y x = pixelAt dv y x) : cv = dv := by
  apply Vector.ext
  intro y hy
  apply Vector.ext
  intro x hx
  simpa only [pixelAt_in _ hy hx] using h y x hy hx

/-- Rebuilding a canvas from its own cells changes nothing. -/
theorem canvasOf_pixelAt (cv : Canvas) : canvasOf (pixelAt cv) = cv :=
  canvas_ext fun y x hy hx => by rw [pixelAt_canvasOf, if_pos ⟨hy, hx⟩]

/-- At reset every cell is `undef` (R28). -/
theorem pixelAt_reset (y x : Nat) : pixelAt Framebuffer.reset.canvas y x = none := by
  by_cases h : y < 216 ∧ x < 300
  · rw [pixelAt_in _ h.1 h.2]
    simp [Framebuffer.reset]
  · exact pixelAt_out _ h

/-- What a tile write leaves at every cell (R70, R71, R79). -/
theorem pixelAt_drawCells (f : Cell → ColorIndex → Cell) (a b : ColorIndex) (row col : Nat)
    (rows : Vector (BitVec 6) 12) (cv : Canvas) (y x : Nat) :
    pixelAt (drawCells f a b row col rows cv) y x =
      if (y < 216 ∧ x < 300) ∧ y / 12 = row ∧ x / 6 = col then
        f (pixelAt cv y x) (tileColor a b rows (x % 6) (y % 12))
      else pixelAt cv y x := by
  rw [drawCells, pixelAt_canvasOf]
  by_cases h : y < 216 ∧ x < 300
  · simp only [h, and_self, if_true, true_and]
  · simp only [h, false_and, if_false, pixelAt_out cv h]

theorem sourceIndex_lt {cmd : BitVec 2} {size dist n : Nat} (h : n < size) : sourceIndex cmd size dist n < size := by
  unfold sourceIndex
  split
  · exact Nat.mod_lt _ (by omega)
  · split
    · exact Nat.mod_lt _ (by omega)
    · exact h

theorem pixelAt_shiftH_wrap (cv : Canvas) (hCmd : BitVec 2) {y x : Nat} (hy : y < 216) (hx : x < 300) :
    pixelAt (shiftH cv hCmd .wrap) y x = pixelAt cv y (sourceIndex hCmd 300 6 x) := by
  unfold shiftH sourceIndex
  split
  · rw [pixelAt_canvasOf, if_pos ⟨hy, hx⟩]
    split
    · rw [Nat.mod_eq_of_lt (by omega)]
    · simp only [edgeCell]; exact congrArg _ (by omega)
  · split
    · rw [pixelAt_canvasOf, if_pos ⟨hy, hx⟩]
      split
      · congr 1; omega
      · simp only [edgeCell]; rw [Nat.mod_eq_of_lt (by omega)]
    · rfl

theorem pixelAt_shiftV_wrap (cv : Canvas) (vCmd : BitVec 2) {y x : Nat} (hy : y < 216) (hx : x < 300) :
    pixelAt (shiftV cv vCmd .wrap) y x = pixelAt cv (sourceIndex vCmd 216 12 y) x := by
  unfold shiftV sourceIndex
  split
  · rw [pixelAt_canvasOf, if_pos ⟨hy, hx⟩]
    split
    · rw [Nat.mod_eq_of_lt (by omega)]
    · simp only [edgeCell]; exact congrArg (pixelAt cv · x) (by omega)
  · split
    · rw [pixelAt_canvasOf, if_pos ⟨hy, hx⟩]
      split
      · congr 1; omega
      · simp only [edgeCell]; rw [Nat.mod_eq_of_lt (by omega)]
    · rfl

/-- A wrap shift is a permutation of the cells, cyclic along each axis (R73, R74). -/
theorem pixelAt_shift_wrap (cv : Canvas) (hCmd vCmd : BitVec 2) {y x : Nat} (hy : y < 216) (hx : x < 300) :
    pixelAt (shiftCanvas cv hCmd vCmd .wrap) y x = pixelAt cv (sourceIndex vCmd 216 12 y) (sourceIndex hCmd 300 6 x) := by
  rw [shiftCanvas, pixelAt_shiftV_wrap _ _ hy hx, pixelAt_shiftH_wrap _ _ (sourceIndex_lt hy) hx]

theorem pixelAt_shiftH_fill (cv : Canvas) (hCmd : BitVec 2) (col : ColorIndex) {y x : Nat} (hy : y < 216)
    (hx : x < 300) :
    pixelAt (shiftH cv hCmd (.fill col)) y x =
      if exposed hCmd 300 6 x then some col else pixelAt cv y (sourceIndex hCmd 300 6 x) := by
  unfold shiftH
  by_cases h2 : hCmd = 2
  · subst h2
    rw [if_pos rfl, pixelAt_canvasOf, if_pos ⟨hy, hx⟩]
    by_cases hlt : x < 294
    · rw [if_pos hlt, if_neg (by simp [exposed]; omega), sourceIndex, if_pos rfl, Nat.mod_eq_of_lt (by omega)]
    · rw [if_neg hlt, if_pos (.inl ⟨rfl, by omega⟩)]; rfl
  · rw [if_neg h2]
    by_cases h1 : hCmd = 1
    · subst h1
      rw [if_pos rfl, pixelAt_canvasOf, if_pos ⟨hy, hx⟩]
      by_cases hle : 6 ≤ x
      · rw [if_pos hle, if_neg (by simp [exposed]; omega), sourceIndex, if_neg h2, if_pos rfl]
        congr 1; omega
      · rw [if_neg hle, if_pos (.inr ⟨rfl, by omega⟩)]; rfl
    · rw [if_neg h1, if_neg (not_or.2 ⟨fun h => h2 h.1, fun h => h1 h.1⟩), sourceIndex, if_neg h2, if_neg h1]

theorem pixelAt_shiftV_fill (cv : Canvas) (vCmd : BitVec 2) (col : ColorIndex) {y x : Nat} (hy : y < 216)
    (hx : x < 300) :
    pixelAt (shiftV cv vCmd (.fill col)) y x =
      if exposed vCmd 216 12 y then some col else pixelAt cv (sourceIndex vCmd 216 12 y) x := by
  unfold shiftV
  by_cases h2 : vCmd = 2
  · subst h2
    rw [if_pos rfl, pixelAt_canvasOf, if_pos ⟨hy, hx⟩]
    by_cases hlt : y < 204
    · rw [if_pos hlt, if_neg (by simp [exposed]; omega), sourceIndex, if_pos rfl, Nat.mod_eq_of_lt (by omega)]
    · rw [if_neg hlt, if_pos (.inl ⟨rfl, by omega⟩)]; rfl
  · rw [if_neg h2]
    by_cases h1 : vCmd = 1
    · subst h1
      rw [if_pos rfl, pixelAt_canvasOf, if_pos ⟨hy, hx⟩]
      by_cases hle : 12 ≤ y
      · rw [if_pos hle, if_neg (by simp [exposed]; omega), sourceIndex, if_neg h2, if_pos rfl]
        congr 1; omega
      · rw [if_neg hle, if_pos (.inr ⟨rfl, by omega⟩)]; rfl
    · rw [if_neg h1, if_neg (not_or.2 ⟨fun h => h2 h.1, fun h => h1 h.1⟩), sourceIndex, if_neg h2, if_neg h1]

/-- A filling shift fills exactly the cells in the exposed column strip or the exposed line strip, and moves the rest
(R72, R74). -/
theorem pixelAt_shift_fill (cv : Canvas) (hCmd vCmd : BitVec 2) (col : ColorIndex) {y x : Nat} (hy : y < 216)
    (hx : x < 300) :
    pixelAt (shiftCanvas cv hCmd vCmd (.fill col)) y x =
      if exposed hCmd 300 6 x ∨ exposed vCmd 216 12 y then some col
      else pixelAt cv (sourceIndex vCmd 216 12 y) (sourceIndex hCmd 300 6 x) := by
  rw [shiftCanvas, pixelAt_shiftV_fill _ _ _ hy hx]
  by_cases hv : exposed vCmd 216 12 y
  · rw [if_pos hv, if_pos (.inr hv)]
  · rw [if_neg hv, pixelAt_shiftH_fill _ _ _ (sourceIndex_lt hy) hx]
    by_cases hh : exposed hCmd 300 6 x
    · rw [if_pos hh, if_pos (.inl hh)]
    · rw [if_neg hh, if_neg (by tauto)]

/-- With both commands 0 nothing moves (R72, R95). -/
theorem shiftCanvas_none (cv : Canvas) (m : Edge) : shiftCanvas cv 0 0 m = cv := by
  simp [shiftCanvas, shiftV, shiftH]

/-! ### Palette -/

theorem loadHalf_getElem (base : Nat) (colors : Vector Color 8) (pal : Palette) (k : Nat) (h : k < 16) :
    (loadHalf base colors pal)[k] =
      if hk : base ≤ k ∧ k < base + 8 then some (colors[k - base]'(by omega)) else pal[k] := by
  rw [loadHalf, tabulate_getElem _ _ _ h]
  by_cases hk : base ≤ k ∧ k < base + 8
  · have : k - base < 8 := by omega
    rw [if_pos hk, dif_pos hk]
    simp [List.getD_eq_getElem?_getD, this]
  · rw [if_neg hk, dif_neg hk]
    simp [List.getD_eq_getElem?_getD, h]

end Machine
end Sys2Proof
end

