-- ==== Sys2Proof/Laws/Codec.lean ====
section
/-! SUPPORT. The codec: lengths, what a built packet's parts read as, and for each payload a command builds, that it meets
its instruction's constraint (spec/40_packet_codec.md R78) and what its fields read as. -/

namespace Sys2Proof

/-! ### Packets -/

theorem pad16_length {p : List Byte} (h : p.length ≤ 16) : (pad16 p).length = 16 := by
  simp [pad16]; omega

theorem pad16_of_length {p : List Byte} (h : p.length = 16) : pad16 p = p := by simp [pad16, h]

theorem packetBytes_length (P : Params) (code : BitVec 6) {p : List Byte} (h : p.length = 16) :
    (packetBytes P code p).length = 24 := by
  simp [packetBytes, h]

theorem byte0_parts : ∀ (m : BitVec 2) (code : BitVec 6),
    ((m.setWidth 8 <<< 6) ||| code.setWidth 8 : Byte).extractLsb' 6 2 = m ∧
      ((m.setWidth 8 <<< 6) ||| code.setWidth 8 : Byte).setWidth 6 = code := by
  decide

theorem byteAt_packetBytes_zero (P : Params) (code : BitVec 6) (p : List Byte) :
    byteAt (packetBytes P code p) 0 = byte0 P code := rfl

theorem modeOf_packetBytes (P : Params) (code : BitVec 6) (p : List Byte) :
    modeOf (packetBytes P code p) = P.modeBits := (byte0_parts P.modeBits code).1

theorem codeOf_packetBytes (P : Params) (code : BitVec 6) (p : List Byte) :
    codeOf (packetBytes P code p) = code := (byte0_parts P.modeBits code).2

theorem payloadOf_packetBytes (P : Params) (code : BitVec 6) {p : List Byte} (h : p.length = 16) :
    payloadOf (packetBytes P code p) = p := by
  simp [payloadOf, packetBytes, h]

theorem parityOk_packetBytes (P : Params) (code : BitVec 6) {p : List Byte} (h : p.length = 16) :
    parityOk P (packetBytes P code p) = true := by
  have hd : (packetBytes P code p).drop 17 = (P.parity (byte0 P code) p).toList := by
    simp [packetBytes, h]
  simp [parityOk, hd, payloadOf_packetBytes P code h, byteAt_packetBytes_zero, List.take_of_length_le]

/-- A packet built from a 16-byte payload is well-formed exactly when the payload meets its instruction's constraint. -/
theorem wellFormed_packetBytes (P : Params) (code : BitVec 6) {p : List Byte} (h : p.length = 16) :
    wellFormed P (packetBytes P code p) = payloadOk code p := by
  simp [wellFormed, packetBytes_length P code h, modeOf_packetBytes, codeOf_packetBytes, payloadOf_packetBytes P code h,
    parityOk_packetBytes P code h]

/-- A 24-byte list whose mode and parity are right is the packet of its own code and payload. -/
theorem packetBytes_of_parts {P : Params} {b : List Byte} (hl : b.length = 24) (hm : modeOf b = P.modeBits)
    (hp : parityOk P b = true) : packetBytes P (codeOf b) (payloadOf b) = b := by
  match b, hl with
  | b0 :: rest, hl =>
    have hlr : rest.length = 23 := by simpa using hl
    have h0 : byte0 P (codeOf (b0 :: rest)) = b0 := by
      have : ∀ x : Byte, ((x.extractLsb' 6 2).setWidth 8 <<< 6) ||| (x.setWidth 6).setWidth 8 = x := by decide
      rw [byte0, ← hm]; exact this b0
    have hp' : (rest.drop 16).take 7 = (P.parity b0 (rest.take 16)).toList := by
      simpa [parityOk, payloadOf, byteAt] using hp
    have ht : (rest.drop 16).take 7 = rest.drop 16 := List.take_of_length_le (by simp [hlr])
    rw [packetBytes, h0]
    simp only [payloadOf, List.drop_succ_cons, List.drop_zero]
    rw [← hp', ht, List.cons_append, List.take_append_drop]

/-! ### The payloads commands build -/

/-- The payload of a memory preset command (R81). -/
theorem payloadOk_memoryPreset {n : Nat} (h : n ≤ 15) :
    payloadOk Config.MEMORY_PRESET (pad16 [BitVec.ofNat 8 n, 0]) = true := by
  revert n; decide

/-- The payload of a border preset command (R82). -/
theorem payloadOk_borderPreset {n : Nat} (h : n ≤ 15) :
    payloadOk Config.BORDER_PRESET (pad16 [BitVec.ofNat 8 n]) = true := by
  revert n; decide

theorem payloadOk_noop : payloadOk Config.NOOP (pad16 []) = true := by decide

theorem toNat_ofNat8 {n : Nat} (h : n ≤ 255) : (BitVec.ofNat 8 n).toNat = n := by
  simp [BitVec.toNat_ofNat]; omega

/-- The payload of a tile write whose operands are in range (R83). -/
theorem tilePayloadOk_bytes {row col a b : Nat} {px : List Nat} (hr : row ≤ 17) (hc : col ≤ 49) (ha : a ≤ 15)
    (hb : b ≤ 15) (hpx : ∀ v ∈ px, v ≤ 63) :
    tilePayloadOk (([a, b, row, col] ++ px).map (BitVec.ofNat 8)) = true := by
  have hall : ∀ v ∈ px, v % 256 ≤ 63 := fun v hv => by have := hpx v hv; omega
  simp only [List.cons_append, List.nil_append, List.map_cons, tilePayloadOk, byteAt, List.getD_cons_zero,
    List.getD_cons_succ, List.drop_succ_cons, List.drop_zero, List.all_map, Bool.and_eq_true, decide_eq_true_eq,
    toNat_ofNat8 (show a ≤ 255 by omega), toNat_ofNat8 (show b ≤ 255 by omega), toNat_ofNat8 (show row ≤ 255 by omega),
    toNat_ofNat8 (show col ≤ 255 by omega), List.all_eq_true, Function.comp_apply, BitVec.toNat_ofNat]
  exact ⟨⟨⟨⟨ha, hb⟩, hr⟩, hc⟩, hall⟩

/-- The fields of a scroll byte pair, each at every value in range. -/
theorem scrollByte_fields : ∀ (hc : Fin 3) (ho : Fin 6) (vc : Fin 3) (vo : Fin 12),
    (BitVec.ofNat 8 ((hc.val <<< 4) ||| ho.val)).extractLsb' 4 2 = BitVec.ofNat 2 hc.val ∧
    (BitVec.ofNat 8 ((hc.val <<< 4) ||| ho.val)).setWidth 3 = BitVec.ofNat 3 ho.val ∧
    (BitVec.ofNat 8 ((hc.val <<< 4) ||| ho.val)).extractLsb' 6 2 = 0 ∧
    (BitVec.ofNat 8 ((hc.val <<< 4) ||| ho.val)).extractLsb' 3 1 = 0 ∧
    (BitVec.ofNat 8 ((vc.val <<< 4) ||| vo.val)).extractLsb' 4 2 = BitVec.ofNat 2 vc.val ∧
    (BitVec.ofNat 8 ((vc.val <<< 4) ||| vo.val)).setWidth 4 = BitVec.ofNat 4 vo.val ∧
    (BitVec.ofNat 8 ((vc.val <<< 4) ||| vo.val)).extractLsb' 6 2 = 0 := by
  have h1 : ∀ (hc : Fin 3) (ho : Fin 6),
      (BitVec.ofNat 8 ((hc.val <<< 4) ||| ho.val)).extractLsb' 4 2 = BitVec.ofNat 2 hc.val ∧
      (BitVec.ofNat 8 ((hc.val <<< 4) ||| ho.val)).setWidth 3 = BitVec.ofNat 3 ho.val ∧
      (BitVec.ofNat 8 ((hc.val <<< 4) ||| ho.val)).extractLsb' 6 2 = 0 ∧
      (BitVec.ofNat 8 ((hc.val <<< 4) ||| ho.val)).extractLsb' 3 1 = 0 := by decide
  have h2 : ∀ (vc : Fin 3) (vo : Fin 12),
      (BitVec.ofNat 8 ((vc.val <<< 4) ||| vo.val)).extractLsb' 4 2 = BitVec.ofNat 2 vc.val ∧
      (BitVec.ofNat 8 ((vc.val <<< 4) ||| vo.val)).setWidth 4 = BitVec.ofNat 4 vo.val ∧
      (BitVec.ofNat 8 ((vc.val <<< 4) ||| vo.val)).extractLsb' 6 2 = 0 := by decide
  intro hc ho vc vo
  obtain ⟨a, b, c, d⟩ := h1 hc ho
  exact ⟨a, b, c, d, h2 vc vo⟩

namespace Machine

/-- What the fields of a scroll command's payload read as (R94, R96). -/
theorem scrollBytes_fields {color hc ho vc vo : Nat} (hhc : hc ≤ 2) (hho : ho ≤ 5) (hvc : vc ≤ 2) (hvo : vo ≤ 11) :
    fieldColor (pad16 (scrollBytes color hc ho vc vo)) = BitVec.ofNat 4 color ∧
    fieldHCmd (pad16 (scrollBytes color hc ho vc vo)) = BitVec.ofNat 2 hc ∧
    fieldHOff (pad16 (scrollBytes color hc ho vc vo)) = BitVec.ofNat 3 ho ∧
    fieldVCmd (pad16 (scrollBytes color hc ho vc vo)) = BitVec.ofNat 2 vc ∧
    fieldVOff (pad16 (scrollBytes color hc ho vc vo)) = BitVec.ofNat 4 vo := by
  obtain ⟨a, b, _, _, c, d, _⟩ :=
    scrollByte_fields ⟨hc, by omega⟩ ⟨ho, by omega⟩ ⟨vc, by omega⟩ ⟨vo, by omega⟩
  refine ⟨?_, a, b, c, d⟩
  show (BitVec.ofNat 8 color).setWidth 4 = _
  apply BitVec.eq_of_toNat_eq
  simp only [BitVec.toNat_setWidth, BitVec.toNat_ofNat]
  omega

/-- The payload of a scroll command meets the constraint of both scroll instructions (R55, R78). -/
theorem scrollPayloadOk_bytes {color hc ho vc vo : Nat} (hcol : color ≤ 15) (hhc : hc ≤ 2) (hho : ho ≤ 5)
    (hvc : vc ≤ 2) (hvo : vo ≤ 11) : scrollPayloadOk (pad16 (scrollBytes color hc ho vc vo)) = true := by
  obtain ⟨_, f2, f3, f4, f5⟩ := scrollBytes_fields (color := color) hhc hho hvc hvo
  obtain ⟨_, _, g1, g2, _, _, g3⟩ :=
    scrollByte_fields ⟨hc, by omega⟩ ⟨ho, by omega⟩ ⟨vc, by omega⟩ ⟨vo, by omega⟩
  have e0 : (byteAt (pad16 (scrollBytes color hc ho vc vo)) 0).toNat = color := toNat_ofNat8 (by omega)
  have e1 : (byteAt (pad16 (scrollBytes color hc ho vc vo)) 1).extractLsb' 6 2 = 0 := g1
  have e2 : (byteAt (pad16 (scrollBytes color hc ho vc vo)) 1).extractLsb' 3 1 = 0 := g2
  have e3 : (byteAt (pad16 (scrollBytes color hc ho vc vo)) 2).extractLsb' 6 2 = 0 := g3
  have e4 : allZero ((pad16 (scrollBytes color hc ho vc vo)).drop 3) = true := by
    simp [allZero, pad16, scrollBytes]
  simp only [scrollPayloadOk, e0, e1, e2, e3, e4, f2, f3, f4, f5, BitVec.toNat_ofNat, Bool.and_eq_true,
    decide_eq_true_eq, beq_self_eq_true, and_true]
  omega

theorem packColors_cons (v : Nat) (colors : List Nat) :
    packColors (v :: colors) = BitVec.ofNat 8 (v >>> 6) :: BitVec.ofNat 8 (v &&& 0x3F) :: packColors colors := rfl

theorem packColors_length (colors : List Nat) : (packColors colors).length = 2 * colors.length := by
  induction colors with
  | nil => rfl
  | cons v rest ih => rw [packColors_cons]; simp only [List.length_cons, ih]; omega

/-- Every byte of a packed palette half is at most 63 (R99). -/
theorem clutPayloadOk_packColors {colors : List Nat} (h : ∀ v ∈ colors, v ≤ 0xFFF) :
    clutPayloadOk (packColors colors) = true := by
  induction colors with
  | nil => rfl
  | cons v rest ih =>
    have hv : v ≤ 0xFFF := h v (by simp)
    have h1 : v >>> 6 ≤ 63 := by rw [Nat.shiftRight_eq_div_pow]; omega
    have h2 : v &&& 0x3F ≤ 63 := Nat.and_le_right
    have hr := ih fun w hw => h w (by simp [hw])
    rw [packColors_cons]
    simp only [clutPayloadOk, List.all_cons, Bool.and_eq_true, decide_eq_true_eq] at hr ⊢
    rw [toNat_ofNat8 (by omega), toNat_ofNat8 (by omega)]
    exact ⟨h1, h2, hr⟩

theorem byteAt_packColors {colors : List Nat} {k : Nat} (h : k < colors.length) :
    byteAt (packColors colors) (2 * k) = BitVec.ofNat 8 (colors[k] >>> 6) ∧
      byteAt (packColors colors) (2 * k + 1) = BitVec.ofNat 8 (colors[k] &&& 0x3F) := by
  induction colors generalizing k with
  | nil => simp at h
  | cons v rest ih =>
    rw [packColors_cons]
    cases k with
    | zero => exact ⟨rfl, rfl⟩
    | succ k => exact ih (by simpa using h)

theorem joinColor_split {v : Nat} (h : v ≤ 0xFFF) :
    joinColor (BitVec.ofNat 8 (v >>> 6)) (BitVec.ofNat 8 (v &&& 0x3F)) = BitVec.ofNat 12 v := by
  have hb : ∀ hi lo : BitVec 6, ((hi.setWidth 12 <<< 6) ||| lo.setWidth 12 : BitVec 12).toNat = 64 * hi.toNat + lo.toNat := by
    decide
  apply BitVec.eq_of_toNat_eq
  rw [joinColor, hb]
  have h2 : v &&& 0x3F = v % 64 := Nat.and_two_pow_sub_one_eq_mod v 6
  simp only [BitVec.toNat_setWidth, BitVec.toNat_ofNat, Nat.shiftRight_eq_div_pow, h2]
  omega

/-- `Apply` loads exactly the colours that were packed (R99). -/
theorem fieldColors_packColors {colors : List Nat} (hl : colors.length = 8) (h : ∀ v ∈ colors, v ≤ 0xFFF) :
    fieldColors (packColors colors) = tabulate 8 fun k => BitVec.ofNat 12 (colors.getD k 0) := by
  apply Vector.ext
  intro k hk
  rw [fieldColors, tabulate_getElem _ _ _ hk, tabulate_getElem _ _ _ hk, (byteAt_packColors (by omega)).1,
    (byteAt_packColors (by omega)).2, joinColor_split (h _ (List.getElem_mem _)), List.getD_eq_getElem]

/-- What the fields of a tile command's payload read as (R83). -/
theorem tileBytes_fields {row col a b : Nat} {px : List Nat} (hr : row ≤ 17) (hc : col ≤ 49) :
    fieldColor (([a, b, row, col] ++ px).map (BitVec.ofNat 8)) = BitVec.ofNat 4 a ∧
    fieldSecond (([a, b, row, col] ++ px).map (BitVec.ofNat 8)) = BitVec.ofNat 4 b ∧
    (fieldRow (([a, b, row, col] ++ px).map (BitVec.ofNat 8))).toNat = row ∧
    (fieldCol (([a, b, row, col] ++ px).map (BitVec.ofNat 8))).toNat = col := by
  refine ⟨?_, ?_, ?_, ?_⟩
  · show (BitVec.ofNat 8 a).setWidth 4 = _
    apply BitVec.eq_of_toNat_eq
    simp only [BitVec.toNat_setWidth, BitVec.toNat_ofNat]; omega
  · show (BitVec.ofNat 8 b).setWidth 4 = _
    apply BitVec.eq_of_toNat_eq
    simp only [BitVec.toNat_setWidth, BitVec.toNat_ofNat]; omega
  · show ((BitVec.ofNat 8 row).setWidth 5).toNat = _
    simp only [BitVec.toNat_setWidth, BitVec.toNat_ofNat]; omega
  · show ((BitVec.ofNat 8 col).setWidth 6).toNat = _
    simp only [BitVec.toNat_setWidth, BitVec.toNat_ofNat]; omega

/-- What a pixel of a tile command's payload selects: colour B where bit 5 − i of row j is 1 (R80, R83). -/
theorem tileColor_bytes {row col a b : Nat} {px : List Nat} (ca cb : ColorIndex) {i j : Nat} (hi : i < 6) (hj : j < 12)
    (hl : px.length = 12) :
    tileColor ca cb (fieldRows (([a, b, row, col] ++ px).map (BitVec.ofNat 8))) i j =
      if (px.getD j 0).testBit (5 - i) then cb else ca := by
  have hbyte : byteAt (([a, b, row, col] ++ px).map (BitVec.ofNat 8)) (4 + j) = BitVec.ofNat 8 (px.getD j 0) := by
    simp only [byteAt, List.cons_append, List.nil_append, List.map_cons, Nat.add_comm 4 j, List.getD_cons_succ]
    rw [List.getD_eq_getElem _ _ (by simpa [hl] using hj), List.getD_eq_getElem _ _ (by omega), List.getElem_map]
  have hbit : pixelBit (fieldRows (([a, b, row, col] ++ px).map (BitVec.ofNat 8))) i j =
      (px.getD j 0).testBit (5 - i) := by
    rw [pixelBit, fieldRows, tabulate_toList, List.getD_eq_getElem _ _ (by simpa using hj)]
    simp only [List.getElem_map, List.getElem_range, hbyte]
    simp only [BitVec.getLsbD_setWidth, BitVec.getLsbD_ofNat]
    have h1 : 5 - i < 6 := by omega
    have h2 : 5 - i < 8 := by omega
    simp [h1, h2]
  rw [tileColor, hbit]

end Machine
end Sys2Proof
end

