-- ==== Sys2Proof/Laws/Exec.lean ====
section
/-! SUPPORT. What `exec` is for each instruction, over the shared operations, and how the ways of ending a command read.
Cite these and not the definitions of the meanings. -/

namespace Sys2Proof.Machine

theorem answer_ok (s u : State) : answer s (.ok u) = .next (u.setResult (some .ok)) := rfl
theorem answer_error (s : State) (e : CommandError) : answer s (.error e) = .next (s.setResult (some (.error e))) := rfl
theorem answerBytes_ok (s : State) (b : List Byte) : answerBytes s (.ok b) = .next (s.setResult (some (.bytes b))) := rfl
theorem answerBytes_error (s : State) (e : CommandError) :
    answerBytes s (.error e) = .next (s.setResult (some (.error e))) := rfl
theorem runPacket_true (f : Framebuffer → Framebuffer) (s : State) : runPacket true f s = .next (s.setFb (f s.fb)) := rfl
theorem runPacket_false (f : Framebuffer → Framebuffer) (s : State) :
    runPacket false f s = .refused (.notWellFormed .field) := rfl

/-! ### Packet instructions -/

theorem exec_noop (s : State) :
    exec .noop s = runPacket true applyNoop s := rfl
theorem exec_memoryPreset (color : ColorIndex) (rep : BitVec 4) (s : State) :
    exec (.memoryPreset color rep) s = runPacket true (applyMemoryPreset color rep) s := rfl
theorem exec_borderPreset (color : ColorIndex) (s : State) :
    exec (.borderPreset color) s = runPacket true (applyBorderPreset color) s := rfl
theorem exec_tileNormal (a b : ColorIndex) (row : BitVec 5) (col : BitVec 6) (rows : Vector (BitVec 6) 12) (s : State) :
    exec (.tileNormal a b row col rows) s = runPacket (tileFieldsOk row col) (applyTileNormal a b row col rows) s := rfl
theorem exec_scrollPreset (color : ColorIndex) (hc : BitVec 2) (ho : BitVec 3) (vc : BitVec 2) (vo : BitVec 4) (s : State) :
    exec (.scrollPreset color hc ho vc vo) s = runPacket (scrollFieldsOk hc ho vc vo) (applyScrollPreset color hc ho vc vo) s := rfl
theorem exec_scrollCopy (color : ColorIndex) (hc : BitVec 2) (ho : BitVec 3) (vc : BitVec 2) (vo : BitVec 4) (s : State) :
    exec (.scrollCopy color hc ho vc vo) s = runPacket (scrollFieldsOk hc ho vc vo) (applyScrollCopy color hc ho vc vo) s := rfl
theorem exec_loadClutLow (colors : Vector Color 8) (s : State) :
    exec (.loadClutLow colors) s = runPacket true (applyLoadClutLow colors) s := rfl
theorem exec_loadClutHigh (colors : Vector Color 8) (s : State) :
    exec (.loadClutHigh colors) s = runPacket true (applyLoadClutHigh colors) s := rfl
theorem exec_tileXor (a b : ColorIndex) (row : BitVec 5) (col : BitVec 6) (rows : Vector (BitVec 6) 12) (s : State) :
    exec (.tileXor a b row col rows) s = runPacket (tileFieldsOk row col) (applyTileXor a b row col rows) s := rfl

/-! ### Commands -/

theorem exec_encodePacket (instr : Nat) (payload : List Nat) (s : State) :
    exec (.encodePacket instr payload) s = answerBytes s (encodePacket Config.live instr payload) := rfl
theorem exec_setScreenColor (index : Nat) (s : State) :
    exec (.setScreenColor index) s = answer s (setScreenColor Config.live index s) := rfl
theorem exec_setBorderColor (index : Nat) (s : State) :
    exec (.setBorderColor index) s = answer s (setBorderColor Config.live index s) := rfl
theorem exec_writeTile (row col a b : Nat) (px : List Nat) (xor : Bool) (s : State) :
    exec (.writeTile row col a b px xor) s = answer s (writeTile Config.live row col a b px xor s) := rfl
theorem exec_tileBlit (row col a b : Nat) (px : List Nat) (s : State) :
    exec (.tileBlit row col a b px) s = answer s (writeTile Config.live row col a b px false s) := rfl
theorem exec_xorBlit (row col a b : Nat) (px : List Nat) (s : State) :
    exec (.xorBlit row col a b px) s = answer s (writeTile Config.live row col a b px true s) := rfl
theorem exec_setCursor (x y : Nat) (s : State) :
    exec (.setCursor x y) s = answer s (setCursor x y s) := rfl
theorem exec_advanceCursor (s : State) :
    exec .advanceCursor s = answer s (.ok (advanceCursor Config.live s)) := rfl
theorem exec_textTile (ch x y : Nat) (xor : Bool) (s : State) :
    exec (.textTile ch x y xor) s = answer s (textTile Config.live ch x y xor s) := rfl
theorem exec_printScreen (text : List Nat) (xor : Bool) (s : State) :
    exec (.printScreen text xor) s = answer s (printScreen Config.live text xor s) := rfl
theorem exec_scroll (d : Direction) (color : Nat) (step : Option Nat) (wrap : Bool) (s : State) :
    exec (.scroll d color step wrap) s = answer s (scroll Config.live d color step wrap s) := rfl
theorem exec_smoothScroll (d : Direction) (s : State) :
    exec (.smoothScroll d) s = answer s (.ok (smoothScroll Config.live d s)) := rfl
theorem exec_paletteLow (palette : List Nat) (dup : Bool) (s : State) :
    exec (.paletteLow palette dup) s = answer s (paletteLow Config.live palette dup s) := rfl
theorem exec_paletteHigh (palette : List Nat) (dup : Bool) (s : State) :
    exec (.paletteHigh palette dup) s = answer s (paletteHigh Config.live palette dup s) := rfl
theorem exec_fadeIn (speed : Nat) (palette : List Nat) (s : State) :
    exec (.fadeIn speed palette) s = answer s (fade Config.live fadeInLevels speed palette s) := rfl
theorem exec_fadeOut (speed : Nat) (palette : List Nat) (s : State) :
    exec (.fadeOut speed palette) s = answer s (fade Config.live fadeOutLevels speed palette s) := rfl
theorem exec_scrollImageUp (image : List (List Nat)) (speed : Nat) (s : State) :
    exec (.scrollImageUp image speed) s = answer s (scrollImageUp Config.live image speed s) := rfl
theorem exec_newBuffer (s : State) :
    exec .newBuffer s = answer s (.ok (newSession s)) := rfl
theorem exec_getBuffer (s : State) :
    exec .getBuffer s = answerBytes s (.ok (bufRead s 0 s.buffer.length)) := rfl
theorem exec_delayTicks (n : Nat) (s : State) :
    exec (.delayTicks n) s = answer s (.ok (padSlots Config.live n s)) := rfl
theorem exec_delaySeconds (seconds : Nat) (s : State) :
    exec (.delaySeconds seconds) s = answer s (.ok (padSlots Config.live (seconds * Config.TICKS_PER_SECOND) s)) := rfl

end Sys2Proof.Machine
end

