-- ==== Sys2Proof/Laws/Issue.lean ====
section
/-! SUPPORT. `Issue` and everything built from it: what it writes, what it leaves unchanged, that it keeps the buffer's
form, the well-formedness of its packets and the replay law; and the relation `Emits`, which says once what the inner
steps of any command can do to a state. -/

namespace Sys2Proof.Machine

/-! ### Issue -/

@[simp] theorem issue_fb (P : Params) (code : BitVec 6) (p : List Byte) (s : State) :
    (issue P code p s).fb = applyPayload code (pad16 p) s.fb := rfl
@[simp] theorem issue_buffer (P : Params) (code : BitVec 6) (p : List Byte) (s : State) :
    (issue P code p s).buffer = s.buffer ++ packetBytes P code (pad16 p) := rfl
@[simp] theorem issue_cursorCol (P : Params) (code : BitVec 6) (p : List Byte) (s : State) :
    (issue P code p s).cursorCol = s.cursorCol := rfl
@[simp] theorem issue_cursorRow (P : Params) (code : BitVec 6) (p : List Byte) (s : State) :
    (issue P code p s).cursorRow = s.cursorRow := rfl
@[simp] theorem issue_pending (P : Params) (code : BitVec 6) (p : List Byte) (s : State) :
    (issue P code p s).pending = s.pending := rfl
@[simp] theorem issue_result (P : Params) (code : BitVec 6) (p : List Byte) (s : State) :
    (issue P code p s).result = s.result := rfl

theorem applyPayload_noop (p : List Byte) (fb : Framebuffer) : applyPayload Config.NOOP p fb = fb := rfl

theorem applyPayload_memoryPreset (p : List Byte) (fb : Framebuffer) :
    applyPayload Config.MEMORY_PRESET p fb = applyMemoryPreset (fieldColor p) (fieldSecond p) fb := rfl

theorem applyPayload_borderPreset (p : List Byte) (fb : Framebuffer) :
    applyPayload Config.BORDER_PRESET p fb = applyBorderPreset (fieldColor p) fb := rfl

theorem applyPayload_tileNormal (p : List Byte) (fb : Framebuffer) :
    applyPayload Config.TILE_NORMAL p fb =
      applyTileNormal (fieldColor p) (fieldSecond p) (fieldRow p) (fieldCol p) (fieldRows p) fb := rfl

theorem applyPayload_tileXor (p : List Byte) (fb : Framebuffer) :
    applyPayload Config.TILE_XOR p fb =
      applyTileXor (fieldColor p) (fieldSecond p) (fieldRow p) (fieldCol p) (fieldRows p) fb := rfl

theorem applyPayload_scrollPreset (p : List Byte) (fb : Framebuffer) :
    applyPayload Config.SCROLL_PRESET p fb =
      applyScrollPreset (fieldColor p) (fieldHCmd p) (fieldHOff p) (fieldVCmd p) (fieldVOff p) fb := rfl

theorem applyPayload_scrollCopy (p : List Byte) (fb : Framebuffer) :
    applyPayload Config.SCROLL_COPY p fb =
      applyScrollCopy (fieldColor p) (fieldHCmd p) (fieldHOff p) (fieldVCmd p) (fieldVOff p) fb := rfl

theorem applyPayload_loadClutLow (p : List Byte) (fb : Framebuffer) :
    applyPayload Config.LOAD_CLUT_LOW p fb = applyLoadClutLow (fieldColors p) fb := rfl

theorem applyPayload_loadClutHigh (p : List Byte) (fb : Framebuffer) :
    applyPayload Config.LOAD_CLUT_HIGH p fb = applyLoadClutHigh (fieldColors p) fb := rfl

/-- The effect of a scroll command's packet, filling or wrapping (R94 to R96). -/
theorem applyPayload_scrollBytes (wrap : Bool) {color hc ho vc vo : Nat} (hhc : hc ≤ 2) (hho : ho ≤ 5) (hvc : vc ≤ 2)
    (hvo : vo ≤ 11) (fb : Framebuffer) :
    applyPayload (scrollCode wrap) (pad16 (scrollBytes color hc ho vc vo)) fb =
      applyScroll (if wrap then .wrap else .fill (BitVec.ofNat 4 color)) (BitVec.ofNat 2 hc) (BitVec.ofNat 3 ho)
        (BitVec.ofNat 2 vc) (BitVec.ofNat 4 vo) fb := by
  obtain ⟨f1, f2, f3, f4, f5⟩ := scrollBytes_fields (color := color) hhc hho hvc hvo
  cases wrap
  · simp only [scrollCode, Bool.false_eq_true, if_false]
    rw [applyPayload_scrollPreset, f1, f2, f3, f4, f5]; rfl
  · simp only [scrollCode, if_true]
    rw [applyPayload_scrollCopy, f1, f2, f3, f4, f5]; rfl

/-! ### The frame of a packet: which codes write which part of the framebuffer state (R18 to R22) -/

theorem applyPayload_screenColor {code : BitVec 6} (h : code ≠ Config.MEMORY_PRESET) (p : List Byte) (fb : Framebuffer) :
    (applyPayload code p fb).screenColor = fb.screenColor := by
  unfold applyPayload; rw [if_neg h]; split_ifs <;> rfl

theorem applyPayload_border {code : BitVec 6} (h : code ≠ Config.BORDER_PRESET) (p : List Byte) (fb : Framebuffer) :
    (applyPayload code p fb).border = fb.border := by
  unfold applyPayload; rw [if_neg h]; split_ifs <;> rfl

theorem applyPayload_palette {code : BitVec 6} (hl : code ≠ Config.LOAD_CLUT_LOW) (hh : code ≠ Config.LOAD_CLUT_HIGH)
    (p : List Byte) (fb : Framebuffer) : (applyPayload code p fb).palette = fb.palette := by
  unfold applyPayload; rw [if_neg hl, if_neg hh]; split_ifs <;> rfl

theorem applyPayload_offsets {code : BitVec 6} (hp : code ≠ Config.SCROLL_PRESET) (hc : code ≠ Config.SCROLL_COPY)
    (p : List Byte) (fb : Framebuffer) :
    (applyPayload code p fb).hOff = fb.hOff ∧ (applyPayload code p fb).vOff = fb.vOff ∧
      (applyPayload code p fb).hTile = fb.hTile ∧ (applyPayload code p fb).vTile = fb.vTile := by
  unfold applyPayload; rw [if_neg hp, if_neg hc]; split_ifs <;> exact ⟨rfl, rfl, rfl, rfl⟩

/-! ### The buffer as packets -/

/-- Appending one packet to a buffer of whole packets appends it to the list of packets. -/
theorem packetsOf_append {s t : State} {b : List Byte} (hs : Memory.wf s) (hb : b.length = 24)
    (ht : t.buffer = s.buffer ++ b) : packetsOf t = packetsOf s ++ [b] := by
  have hs' : s.buffer.length % 24 = 0 := hs
  have hlen : t.buffer.length / 24 = s.buffer.length / 24 + 1 := by
    rw [ht, List.length_append, hb]; omega
  rw [packetsOf, hlen, List.range_succ, List.map_append, packetsOf]
  congr 1
  · apply List.map_congr_left
    intro k hk
    have hk' : k < s.buffer.length / 24 := List.mem_range.1 hk
    simp only [bufRead, ht]
    rw [List.drop_append_of_le_length (by omega), List.take_append_of_le_length]
    rw [List.length_drop]; omega
  · have h24 : 24 * (s.buffer.length / 24) = s.buffer.length := by omega
    simp only [List.map_cons, List.map_nil, bufRead, ht, h24, List.drop_left']
    rw [List.take_of_length_le (by omega)]

theorem packetsOf_congr {s t : State} (h : t.buffer = s.buffer) : packetsOf t = packetsOf s := by
  simp only [packetsOf, bufRead, h]

/-- Every memory operation keeps the buffer's form: `Issue` appends one whole packet (R36). -/
theorem issue_wf (P : Params) (code : BitVec 6) {p : List Byte} (hp : p.length ≤ 16) {s : State} (h : Memory.wf s) :
    Memory.wf (issue P code p s) := by
  have h' : s.buffer.length % 24 = 0 := h
  show (issue P code p s).buffer.length % 24 = 0
  rw [issue_buffer, List.length_append, packetBytes_length P code (pad16_length hp)]; omega

theorem reset_wf : Memory.wf State.reset := rfl

theorem packetsOf_issue (P : Params) (code : BitVec 6) {p : List Byte} (hp : p.length ≤ 16) {s : State}
    (h : Memory.wf s) : packetsOf (issue P code p s) = packetsOf s ++ [packetBytes P code (pad16 p)] :=
  packetsOf_append h (packetBytes_length P code (pad16_length hp)) (issue_buffer ..)

/-- `Issue` of a well-formed payload keeps the buffer a list of well-formed packets (R30, R78). -/
theorem issue_bufferOk (P : Params) {code : BitVec 6} {p : List Byte} (hp : p.length ≤ 16)
    (hok : payloadOk code (pad16 p) = true) {s : State} (h : BufferOk P s) : BufferOk P (issue P code p s) := by
  refine ⟨issue_wf P code hp h.1, ?_⟩
  intro b hb
  rw [packetsOf_issue P code hp h.1, List.mem_append, List.mem_singleton] at hb
  rcases hb with hb | rfl
  · exact h.2 b hb
  · rw [wellFormed_packetBytes P code (pad16_length hp)]; exact hok

theorem replay_append (P : Params) (fb : Framebuffer) (bs cs : List (List Byte)) :
    replay P fb (bs ++ cs) = (replay P fb bs).bind fun fb' => replay P fb' cs := by
  induction bs generalizing fb with
  | nil => rfl
  | cons b rest ih =>
    simp only [List.cons_append, replay]
    cases applyPacket P fb b with
    | none => rfl
    | some fb' => exact ih fb'

/-- `Apply` of the packet `Issue` appends is the effect `Issue` has (R65). -/
theorem applyPacket_packetBytes (P : Params) {code : BitVec 6} {p : List Byte} (hp : p.length = 16)
    (hok : payloadOk code p = true) (fb : Framebuffer) :
    applyPacket P fb (packetBytes P code p) = some (applyPayload code p fb) := by
  rw [applyPacket, wellFormed_packetBytes P code hp, hok, codeOf_packetBytes, payloadOf_packetBytes P code hp]; rfl

/-- `Issue` of a well-formed payload keeps the framebuffer the replay of the stream (R29). -/
theorem issue_mirrors (P : Params) {code : BitVec 6} {p : List Byte} (hp : p.length ≤ 16)
    (hok : payloadOk code (pad16 p) = true) {s : State} (hw : Memory.wf s) (h : Mirrors P s) :
    Mirrors P (issue P code p s) := by
  have h' : replay P Framebuffer.reset (packetsOf s) = some s.fb := h
  show replay P Framebuffer.reset (packetsOf (issue P code p s)) = some (issue P code p s).fb
  rw [packetsOf_issue P code hp hw, replay_append, h']
  simp only [Option.bind_some, replay, applyPacket_packetBytes P (pad16_length hp) hok, issue_fb]

/-! ### What the inner steps of a command do -/

/-- `t` is reached from `s` by issuing well-formed payloads of the instructions in `codes` and, where `mv` allows it,
moving the cursor: all that the inner steps of a command ever do to a session (R65, R88). -/
inductive Emits (P : Params) (codes : List (BitVec 6)) (mv : Bool) (s : State) : State → Prop where
  | refl : Emits P codes mv s s
  | issue {t : State} (code : BitVec 6) (p : List Byte) (hcode : code ∈ codes) (hp : p.length ≤ 16)
      (hok : payloadOk code (pad16 p) = true) (h : Emits P codes mv s t) : Emits P codes mv s (issue P code p t)
  | cursor {t : State} (col : Fin 49) (row : Fin 17) (hmv : mv = true) (h : Emits P codes mv s t) :
      Emits P codes mv s (t.setCursor col row)

section
variable {P : Params} {codes : List (BitVec 6)} {mv : Bool} {s t u : State}

theorem Emits.trans (h : Emits P codes mv s t) (h' : Emits P codes mv t u) : Emits P codes mv s u := by
  induction h' with
  | refl => exact h
  | issue code p hcode hp hok _ ih => exact .issue code p hcode hp hok ih
  | cursor col row hmv _ ih => exact .cursor col row hmv ih

theorem Emits.pending (h : Emits P codes mv s t) : t.pending = s.pending := by
  induction h with
  | refl => rfl
  | issue _ _ _ _ _ _ ih => simpa using ih
  | cursor _ _ _ _ ih => simpa using ih

theorem Emits.buffer (h : Emits P codes mv s t) : s.buffer <+: t.buffer := by
  induction h with
  | refl => exact List.prefix_refl _
  | issue _ _ _ _ _ _ ih => exact ih.trans (List.prefix_append _ _)
  | cursor _ _ _ _ ih => simpa using ih

theorem Emits.cursor_eq (h : Emits P codes false s t) : t.cursorCol = s.cursorCol ∧ t.cursorRow = s.cursorRow := by
  induction h with
  | refl => exact ⟨rfl, rfl⟩
  | issue _ _ _ _ _ _ ih => simpa using ih
  | cursor _ _ hmv _ _ => cases hmv

theorem Emits.bufferOk (h : Emits P codes mv s t) (hs : BufferOk P s) : BufferOk P t := by
  induction h with
  | refl => exact hs
  | issue _ _ _ hp hok _ ih => exact issue_bufferOk P hp hok ih
  | cursor _ _ _ _ ih => exact ih

theorem Emits.mirrors (h : Emits P codes mv s t) (hb : BufferOk P s) (hs : Mirrors P s) : Mirrors P t := by
  induction h with
  | refl => exact hs
  | issue _ _ _ hp hok h ih => exact issue_mirrors P hp hok (Emits.bufferOk h hb).1 ih
  | cursor _ _ _ _ ih => exact ih

/-- The bytes emitted are packets of the allowed instructions. -/
theorem Emits.packets (h : Emits P codes mv s t) :
    ∃ bs : List (List Byte), t.buffer = s.buffer ++ bs.flatten ∧
      ∀ b ∈ bs, wellFormed P b = true ∧ codeOf b ∈ codes := by
  induction h with
  | refl => exact ⟨[], by simp, by simp⟩
  | issue code p hcode hp hok _ ih =>
    obtain ⟨bs, hb, hw⟩ := ih
    refine ⟨bs ++ [packetBytes P code (pad16 p)], by simp [hb], ?_⟩
    intro b hmem
    rcases List.mem_append.1 hmem with hmem | hmem
    · exact hw b hmem
    · rw [List.mem_singleton.1 hmem, wellFormed_packetBytes P code (pad16_length hp), codeOf_packetBytes]
      exact ⟨hok, hcode⟩
  | cursor _ _ _ _ ih => exact ih

/-- A part of the framebuffer that no allowed packet writes is unchanged. -/
theorem Emits.fb_eq {α : Type} (part : Framebuffer → α)
    (hpart : ∀ code ∈ codes, ∀ p fb, part (applyPayload code p fb) = part fb) (h : Emits P codes mv s t) :
    part t.fb = part s.fb := by
  induction h with
  | refl => rfl
  | issue code p hcode _ _ _ ih => rw [issue_fb, hpart code hcode, ih]
  | cursor _ _ _ _ ih => simpa using ih

/-- A loop whose every turn emits well-formed packets emits well-formed packets. -/
theorem Emits.foldl {α : Type} (f : State → α → State) (hf : ∀ s a, Emits P codes mv s (f s a)) (xs : List α)
    (s : State) : Emits P codes mv s (xs.foldl f s) := by
  induction xs generalizing s with
  | nil => exact .refl
  | cons a rest ih => exact (hf s a).trans (ih (f s a))

end

/-! ### Padding -/

/-- `Pad(n)` appends n copies of the no-op packet and changes nothing else (R67, R111). -/
theorem padSlots_eq (P : Params) (n : Nat) (s : State) :
    padSlots P n s =
      s.setBuffer (s.buffer ++ (List.replicate n (packetBytes P Config.NOOP (pad16 []))).flatten) := by
  induction n generalizing s with
  | zero => simp [padSlots, State.setBuffer]
  | succ n ih =>
    rw [padSlots, ih]
    simp [State.setBuffer, issue, State.setFb, applyPayload_noop, List.replicate_succ]

theorem padSlots_emits (P : Params) {codes : List (BitVec 6)} {mv : Bool} (hc : Config.NOOP ∈ codes) (n : Nat)
    (s : State) : Emits P codes mv s (padSlots P n s) := by
  induction n generalizing s with
  | zero => exact .refl
  | succ n ih => exact (Emits.issue Config.NOOP [] hc (by simp) payloadOk_noop .refl).trans (ih _)

end Sys2Proof.Machine
end

