-- ==== Sys2Proof/Laws/Commands.lean ====
section
/-! SUPPORT. What each command can do: when its checks pass, that its inner steps only emit well-formed packets and move
the cursor, and one inversion lemma for `exec` that covers every instruction. -/

namespace Sys2Proof.Machine

/-! ### Operand checks -/

theorem checkIndex_ok {n : Nat} (h : n ≤ 15) : checkIndex n = .ok () := by simp [checkIndex]; omega

theorem checkIndex_error {n : Nat} (h : 15 < n) : checkIndex n = .error .paletteRangeError := by simp [checkIndex, h]

theorem checkIndex_inv {n : Nat} (h : checkIndex n = .ok ()) : n ≤ 15 := by
  by_contra hn; rw [checkIndex_error (by omega)] at h; cases h

theorem checkTile_ok {row col a b : Nat} {px : List Nat} (hr : row ≤ 17) (hc : col ≤ 49) (ha : a ≤ 15) (hb : b ≤ 15)
    (hl : px.length = 12) (hpx : ∀ v ∈ px, v ≤ 63) : checkTile row col a b px = .ok () := by
  rw [checkTile, if_neg (by omega), if_neg (by omega), if_pos hl, if_pos (by simpa using hpx)]

theorem checkTile_inv {row col a b : Nat} {px : List Nat} (h : checkTile row col a b px = .ok ()) :
    row ≤ 17 ∧ col ≤ 49 ∧ a ≤ 15 ∧ b ≤ 15 ∧ px.length = 12 ∧ ∀ v ∈ px, v ≤ 63 := by
  unfold checkTile at h
  split at h
  · cases h
  · split at h
    · cases h
    · split at h
      · split at h
        · rename_i h1 h2 h3 h4
          exact ⟨by omega, by omega, by omega, by omega, h3, by simpa using h4⟩
        · cases h
      · cases h

theorem checkText_inv {text : List Nat} (h : checkText text = .ok ()) : ∀ ch ∈ text, ch ≤ 255 := by
  unfold checkText at h
  split at h
  · rename_i h1; simpa using h1
  · cases h

theorem checkFade_inv {palette : List Nat} (h : checkFade palette = .ok ()) :
    palette.length = 16 ∧ ∀ v ∈ palette, v ≤ 0xFFF := by
  unfold checkFade at h
  split at h
  · cases h
  · split at h
    · cases h
    · split at h
      · rename_i h1 h2 h3
        exact ⟨by omega, by simpa using h3⟩
      · cases h

theorem checkImage_inv {image : List (List Nat)} (h : checkImage image = .ok ()) :
    0 < image.length ∧ image.length % 12 = 0 ∧ (∀ line ∈ image, line.length = 300) ∧
      ∀ line ∈ image, ∀ v ∈ line, v ≤ 15 := by
  unfold checkImage at h
  split at h
  · cases h
  · split at h
    · split at h
      · rename_i h1 h2 h3
        refine ⟨by omega, by omega, by simpa using h2, by simpa using h3⟩
      · cases h
    · cases h

theorem scrollCommand_le (d : Direction) : (scrollCommand d).1 ≤ 2 ∧ (scrollCommand d).2 ≤ 2 := by cases d <;> decide

theorem smoothFields_le (d : Direction) {ho vo : Nat} (hho : ho ≤ 5) (hvo : vo ≤ 11) :
    (smoothFields d ho vo).1 ≤ 2 ∧ (smoothFields d ho vo).2.1 ≤ 5 ∧ (smoothFields d ho vo).2.2.1 ≤ 2 ∧
      (smoothFields d ho vo).2.2.2 ≤ 11 := by
  cases d <;> simp only [smoothFields] <;> split <;> simp only [] <;> omega

/-- A glyph has 12 rows, each at most 63, whatever the font (R91). -/
theorem glyphRows_ok (P : Params) (ch : Nat) : (glyphRows P ch).length = 12 ∧ ∀ v ∈ glyphRows P ch, v ≤ 63 := by
  refine ⟨by simp [glyphRows], ?_⟩
  intro v hv
  obtain ⟨r, _, rfl⟩ := List.mem_map.1 hv
  have := r.isLt; omega

theorem filterMap_id_length {es : List (Option Nat)} (h : ∀ e ∈ es, e.isSome = true) :
    (es.filterMap id).length = es.length := by
  induction es with
  | nil => rfl
  | cons e rest ih =>
    obtain ⟨v, rfl⟩ := Option.isSome_iff_exists.1 (h e (by simp))
    have := ih fun e he => h e (List.mem_cons_of_mem _ he)
    exact congrArg (· + 1) this

/-- The colours of a half load are eight 12-bit colours (R102). -/
theorem halfSlots_inv {pal : Palette} {palette slots : List Nat} {dup : Bool} {base : Nat}
    (h : halfSlots pal palette dup base = .ok slots) : slots.length = 8 ∧ ∀ v ∈ slots, v ≤ 0xFFF := by
  unfold halfSlots at h
  split at h
  · cases h
  rename_i hlen
  split at h
  swap
  · cases h
  rename_i hval
  have hval' : ∀ v ∈ palette, v ≤ 0xFFF := by simpa using hval
  split at h
  · rename_i h8
    cases h
    exact ⟨h8, hval'⟩
  split at h
  · split at h
    · cases h
    · rename_i h0
      cases h
      refine ⟨by simp, ?_⟩
      intro v hv
      obtain ⟨k, _, rfl⟩ := List.mem_map.1 hv
      have hk : k % palette.length < palette.length := Nat.mod_lt _ (by omega)
      rw [List.getD_eq_getElem _ _ hk]
      exact hval' _ (List.getElem_mem hk)
  · split at h
    swap
    · cases h
    rename_i hall
    cases h
    have hall' : ∀ e ∈ retained pal base palette.length, e.isSome = true := by simpa using hall
    refine ⟨?_, ?_⟩
    · have : ((retained pal base palette.length).filterMap id).length = (retained pal base palette.length).length :=
        filterMap_id_length hall'
      rw [List.length_append, this, retained, List.length_map, List.length_drop, List.length_range]
      omega
    · intro v hv
      rcases List.mem_append.1 hv with hv | hv
      · exact hval' v hv
      · obtain ⟨e, he, hev⟩ := List.mem_filterMap.1 hv
        obtain ⟨k, _, rfl⟩ := List.mem_map.1 he
        simp only [id, paletteEntry, Option.map_eq_some_iff] at hev
        obtain ⟨col, _, rfl⟩ := hev
        have := col.isLt; omega

theorem scaleColor_le {v num den : Nat} (hnum : num ≤ den) : scaleColor v num den ≤ 0xFFF := by
  have hch : ∀ n : Nat, n % 16 * num / den ≤ 15 := by
    intro n
    apply Nat.div_le_of_le_mul
    calc n % 16 * num ≤ 15 * den := Nat.mul_le_mul (by omega) hnum
      _ = den * 15 := Nat.mul_comm _ _
  have h1 := hch (v >>> 8)
  have h2 := hch (v >>> 4)
  have h3 := hch v
  have hor : ∀ a b c : Fin 16, ((a.val <<< 8) ||| (b.val <<< 4)) ||| c.val ≤ 0xFFF := by decide
  exact hor ⟨_, by omega⟩ ⟨_, by omega⟩ ⟨_, by omega⟩

/-! ### The inner steps of the commands -/

section
variable (P : Params) {codes : List (BitVec 6)} {mv : Bool}

theorem issueScroll_emits (wrap : Bool) (hcode : scrollCode wrap ∈ codes) {color hc ho vc vo : Nat} (hcol : color ≤ 15) (hhc : hc ≤ 2)
    (hho : ho ≤ 5) (hvc : vc ≤ 2) (hvo : vo ≤ 11) (s : State) :
    Emits P codes mv s (issue P (scrollCode wrap) (scrollBytes color hc ho vc vo) s) := by
  refine .issue _ _ hcode (by simp [scrollBytes]) ?_ .refl
  have h := scrollPayloadOk_bytes hcol hhc hho hvc hvo
  cases wrap
  · exact h
  · exact h

theorem coarseScroll_emits (d : Direction) {color : Nat} (hcol : color ≤ 15) (wrap : Bool)
    (hcode : scrollCode wrap ∈ codes) (s : State) :
    Emits P codes mv s (coarseScroll P d color wrap s) :=
  issueScroll_emits P wrap hcode hcol (scrollCommand_le d).1 (by have := s.fb.hOff.isLt; omega) (scrollCommand_le d).2
    (by have := s.fb.vOff.isLt; omega) s

theorem smoothScroll_emits (d : Direction) (hcode : Config.SCROLL_COPY ∈ codes) (s : State) : Emits P codes mv s (smoothScroll P d s) := by
  obtain ⟨h1, h2, h3, h4⟩ := smoothFields_le d (ho := s.fb.hOff.val) (vo := s.fb.vOff.val)
    (by have := s.fb.hOff.isLt; omega) (by have := s.fb.vOff.isLt; omega)
  exact issueScroll_emits P true hcode (by omega) h1 h2 h3 h4 s

theorem drawTile_emits {row col a b : Nat} {px : List Nat} (hr : row ≤ 17) (hc : col ≤ 49) (ha : a ≤ 15)
    (hb : b ≤ 15) (hl : px.length = 12) (hpx : ∀ v ∈ px, v ≤ 63) (xor : Bool)
    (hcode : (if xor then Config.TILE_XOR else Config.TILE_NORMAL) ∈ codes) (s : State) :
    Emits P codes mv s (drawTile P row col a b px xor s) := by
  have h16 : (([a, b, row, col] ++ px).map (BitVec.ofNat 8)).length = 16 := by simp [hl]
  refine .issue _ _ hcode (by omega) ?_ .refl
  rw [pad16_of_length h16]
  have h := tilePayloadOk_bytes hr hc ha hb hpx
  cases xor
  · exact h
  · exact h

theorem newLine_emits (hmv : mv = true) (hcode : Config.SCROLL_PRESET ∈ codes) (s : State) : Emits P codes mv s (newLine P s) := by
  unfold newLine
  split
  · exact .cursor _ _ hmv .refl
  · exact (Emits.cursor 0 s.cursorRow hmv .refl).trans (coarseScroll_emits P .up (by decide) false hcode _)

theorem advanceCursor_emits (hmv : mv = true) (hcode : Config.SCROLL_PRESET ∈ codes) (s : State) : Emits P codes mv s (advanceCursor P s) := by
  unfold advanceCursor
  split
  · exact .cursor _ _ hmv .refl
  · exact newLine_emits P hmv hcode s

theorem printChar_emits (hmv : mv = true) (xor : Bool)
    (htile : (if xor then Config.TILE_XOR else Config.TILE_NORMAL) ∈ codes) (hcode : Config.SCROLL_PRESET ∈ codes)
    (s : State) (ch : Nat) : Emits P codes mv s (printChar P xor s ch) := by
  unfold printChar
  split
  · exact newLine_emits P hmv hcode s
  · refine Emits.trans ?_ (advanceCursor_emits P hmv hcode _)
    have := s.cursorCol.isLt
    have := s.cursorRow.isLt
    exact drawTile_emits P (by simp only [Config.TEXT_ROW0]; omega) (by simp only [Config.TEXT_COL0]; omega) (by decide) (by decide) (glyphRows_ok P ch).1
      (glyphRows_ok P ch).2 xor htile s

theorem packColors_issue_ok {colors : List Nat} (hl : colors.length = 8) (h : ∀ v ∈ colors, v ≤ 0xFFF) :
    (packColors colors).length = 16 ∧ payloadOk Config.LOAD_CLUT_LOW (packColors colors) = true ∧
      payloadOk Config.LOAD_CLUT_HIGH (packColors colors) = true :=
  ⟨by rw [packColors_length, hl], clutPayloadOk_packColors h, clutPayloadOk_packColors h⟩

theorem loadLow_emits (hcode : Config.LOAD_CLUT_LOW ∈ codes) {colors : List Nat} (hl : colors.length = 8) (h : ∀ v ∈ colors, v ≤ 0xFFF)
    (s : State) : Emits P codes mv s (loadLow P colors s) := by
  obtain ⟨h16, hok, _⟩ := packColors_issue_ok hl h
  exact .issue _ _ hcode (by omega) (by rw [pad16_of_length h16]; exact hok) .refl

theorem loadHigh_emits (hcode : Config.LOAD_CLUT_HIGH ∈ codes) {colors : List Nat} (hl : colors.length = 8) (h : ∀ v ∈ colors, v ≤ 0xFFF)
    (s : State) : Emits P codes mv s (loadHigh P colors s) := by
  obtain ⟨h16, _, hok⟩ := packColors_issue_ok hl h
  exact .issue _ _ hcode (by omega) (by rw [pad16_of_length h16]; exact hok) .refl

theorem fadeStep_emits (hn : Config.NOOP ∈ codes) (hlo : Config.LOAD_CLUT_LOW ∈ codes)
    (hhi : Config.LOAD_CLUT_HIGH ∈ codes) (speed : Nat) {colors : List Nat} (hl : colors.length = 16)
    (h : ∀ v ∈ colors, v ≤ 0xFFF) (s : State) : Emits P codes mv s (fadeStep P speed colors s) := by
  refine (padSlots_emits P hn _ s).trans
    ((loadLow_emits P hlo (by simp [hl]) ?_ _).trans (loadHigh_emits P hhi (by simp [hl]) ?_ _))
  · exact fun v hv => h v (List.mem_of_mem_take hv)
  · exact fun v hv => h v (List.mem_of_mem_drop hv)

theorem fadeThrough_emits (hn : Config.NOOP ∈ codes) (hlo : Config.LOAD_CLUT_LOW ∈ codes)
    (hhi : Config.LOAD_CLUT_HIGH ∈ codes) (speed : Nat) {palette : List Nat} (hl : palette.length = 16) {levels : List Nat}
    (hlev : ∀ k ∈ levels, k ≤ 15) (s : State) : Emits P codes mv s (fadeThrough P speed palette levels s) := by
  unfold fadeThrough
  induction levels generalizing s with
  | nil => exact .refl
  | cons k rest ih =>
    have hk : k ≤ 15 := hlev k (by simp)
    refine (fadeStep_emits P hn hlo hhi speed (by simp [fadeColors, hl]) ?_ s).trans (ih (fun j hj => hlev j (by simp [hj])) _)
    intro v hv
    obtain ⟨w, _, rfl⟩ := List.mem_map.1 hv
    exact scaleColor_le hk

theorem fadeLevels_le : (∀ k ∈ fadeInLevels, k ≤ 15) ∧ ∀ k ∈ fadeOutLevels, k ≤ 15 := by decide

/-! ### The reduction of an image tile -/

theorem mostFrequent_mem (count : Nat → Nat) {vs : List Nat} {v : Nat} (h : mostFrequent count vs = some v) : v ∈ vs := by
  induction vs generalizing v with
  | nil => cases h
  | cons w rest ih =>
    unfold mostFrequent at h
    split at h
    · cases h; simp
    · rename_i u hu
      split at h
      · cases h; simp
      · cases h; exact List.mem_cons_of_mem _ (ih hu)

theorem dominantColor_le (block : Nat → Nat → Nat) : dominantColor block ≤ 15 := by
  unfold dominantColor
  cases h : mostFrequent (countColor block) (List.range 16) with
  | none => simp
  | some v =>
    have := List.mem_range.1 (mostFrequent_mem _ h)
    simp only [Option.getD_some]; omega

theorem secondColor_le (block : Nat → Nat → Nat) : secondColor block ≤ 15 := by
  unfold secondColor
  simp only []
  split
  · exact dominantColor_le block
  · cases h : mostFrequent (countColor block) ((List.range 16).filter fun v =>
        decide (v ≠ dominantColor block) && decide (0 < countColor block v)) with
    | none => exact dominantColor_le block
    | some v =>
      have := List.mem_range.1 (List.mem_filter.1 (mostFrequent_mem _ h)).1
      simp only [Option.getD_some]; omega

theorem reducedRows_ok (block : Nat → Nat → Nat) :
    (reducedRows block).length = 12 ∧ ∀ v ∈ reducedRows block, v ≤ 63 := by
  refine ⟨by simp [reducedRows], ?_⟩
  intro v hv
  simp only [reducedRows, List.mem_map] at hv
  obtain ⟨j, _, rfl⟩ := hv
  have hbit : ∀ i, (if block j i = dominantColor block then 0 else 1) ≤ 1 := by intro i; split <;> omega
  simp only [List.range, List.range.loop, List.map_cons, List.map_nil, List.sum_cons, List.sum_nil, Nat.shiftLeft_eq]
  have h0 := hbit 0; have h1 := hbit 1; have h2 := hbit 2; have h3 := hbit 3; have h4 := hbit 4; have h5 := hbit 5
  omega

theorem drawImageTile_emits (ht : Config.TILE_NORMAL ∈ codes) (image : List (List Nat)) (k : Nat) (s : State) {col : Nat} (hc : col ≤ 49) :
    Emits P codes mv s (drawImageTile P image k s col) :=
  drawTile_emits P (by decide) hc (dominantColor_le _) (secondColor_le _) (reducedRows_ok _).1 (reducedRows_ok _).2
    false ht s

theorem scrollLines_emits (hs : Config.SCROLL_COPY ∈ codes) (hn : Config.NOOP ∈ codes) (speed n : Nat) (s : State) : Emits P codes mv s (scrollLines P speed n s) := by
  induction n generalizing s with
  | zero => exact .refl
  | succ n ih => exact (smoothScroll_emits P .up hs s).trans ((padSlots_emits P hn _ _).trans (ih _))

theorem drawImageTiles_emits (ht : Config.TILE_NORMAL ∈ codes) (image : List (List Nat)) (k : Nat) {cols : List Nat}
    (h : ∀ c' ∈ cols, c' ≤ 49) (s : State) : Emits P codes mv s (cols.foldl (drawImageTile P image k) s) := by
  induction cols generalizing s with
  | nil => exact .refl
  | cons col rest ih =>
    exact (drawImageTile_emits P ht image k s (h col (by simp))).trans (ih (fun c' hc => h c' (by simp [hc])) _)

theorem showImageRow_emits (ht : Config.TILE_NORMAL ∈ codes) (hs : Config.SCROLL_COPY ∈ codes)
    (hn : Config.NOOP ∈ codes) (image : List (List Nat)) (speed : Nat) (s : State) (k : Nat) :
    Emits P codes mv s (showImageRow P image speed s k) :=
  (drawImageTiles_emits P ht image k (fun c' hc => by have := List.mem_range.1 hc; omega) s).trans
    (scrollLines_emits P hs hn speed 12 _)

end

/-! ### What a command answers -/

/-- The cases of a command that answers without a value. -/
theorem answer_cases {s t : State} {r : Except CommandError State} (h : answer s r = .next t) :
    (∃ u, r = .ok u ∧ t = u.setResult (some .ok)) ∨ ∃ e, r = .error e ∧ t = s.setResult (some (.error e)) := by
  cases r with
  | ok u => exact .inl ⟨u, rfl, by simpa [answer, eq_comm] using h⟩
  | error e => exact .inr ⟨e, rfl, by simpa [answer, raise, eq_comm] using h⟩

/-- The cases of a command that answers with bytes. -/
theorem answerBytes_cases {s t : State} {r : Except CommandError (List Byte)} (h : answerBytes s r = .next t) :
    (∃ b, r = .ok b ∧ t = s.setResult (some (.bytes b))) ∨ ∃ e, r = .error e ∧ t = s.setResult (some (.error e)) := by
  cases r with
  | ok b => exact .inl ⟨b, rfl, by simpa [answerBytes, eq_comm] using h⟩
  | error e => exact .inr ⟨e, rfl, by simpa [answerBytes, raise, eq_comm] using h⟩

/-- The cases of a packet instruction: its fields are in range and only the framebuffer changes. -/
theorem runPacket_cases {ok : Bool} {f : Framebuffer → Framebuffer} {s t : State} (h : runPacket ok f s = .next t) :
    ok = true ∧ t = s.setFb (f s.fb) := by
  cases ok with
  | false => cases h
  | true => exact ⟨rfl, by simpa [runPacket, eq_comm] using h⟩

/-- What a command can do: raise an error, or emit well-formed packets of the instructions R57 names for it and, where
it may, move the cursor. -/
def CommandDoes (P : Params) (i : Instr) (s : State) (r : Except CommandError State) : Prop :=
  ∀ u, r = .ok u → Emits P (emittedCodes i) (movesCursor i) s u

section
variable (P : Params)

theorem setScreenColor_does (n : Nat) (s : State) : CommandDoes P (.setScreenColor n) s (setScreenColor P n s) := by
  intro u hu
  unfold setScreenColor at hu
  split at hu
  · cases hu
  · rename_i hc; cases hu
    exact .issue _ _ (by simp [emittedCodes]) (by simp) (payloadOk_memoryPreset (checkIndex_inv hc)) .refl

theorem setBorderColor_does (n : Nat) (s : State) : CommandDoes P (.setBorderColor n) s (setBorderColor P n s) := by
  intro u hu
  unfold setBorderColor at hu
  split at hu
  · cases hu
  · rename_i hc; cases hu
    exact .issue _ _ (by simp [emittedCodes]) (by simp) (payloadOk_borderPreset (checkIndex_inv hc)) .refl

/-- `writeTile`, for any instruction that may emit its packet. -/
theorem writeTile_does {i : Instr} (row col a b : Nat) (px : List Nat) (xor : Bool)
    (hi : (if xor then Config.TILE_XOR else Config.TILE_NORMAL) ∈ emittedCodes i) (s : State) :
    CommandDoes P i s (writeTile P row col a b px xor s) := by
  intro u hu
  unfold writeTile at hu
  split at hu
  · cases hu
  · rename_i hc; cases hu
    obtain ⟨hr, hcol, ha, hb, hl, hpx⟩ := checkTile_inv hc
    exact drawTile_emits P hr hcol ha hb hl hpx xor hi s

theorem setCursor_does (x y : Nat) (s : State) : CommandDoes P (.setCursor x y) s (setCursor x y s) := by
  intro u hu
  unfold setCursor at hu
  split at hu
  · cases hu
  · cases hu; exact .cursor _ _ rfl .refl

theorem textTile_does (ch x y : Nat) (xor : Bool) (s : State) :
    CommandDoes P (.textTile ch x y xor) s (textTile P ch x y xor s) := by
  intro u hu
  unfold textTile at hu
  split at hu
  · cases hu
  · exact writeTile_does P _ _ _ _ _ xor (by simp [emittedCodes]) s u hu

theorem printScreen_does (text : List Nat) (xor : Bool) (s : State) :
    CommandDoes P (.printScreen text xor) s (printScreen P text xor s) := by
  intro u hu
  unfold printScreen at hu
  split at hu
  · cases hu
  · cases hu
    exact Emits.foldl _ (printChar_emits P rfl xor (by simp [emittedCodes]) (by simp [emittedCodes])) text s

theorem scroll_does (d : Direction) (color : Nat) (step : Option Nat) (wrap : Bool) (s : State) :
    CommandDoes P (.scroll d color step wrap) s (scroll P d color step wrap s) := by
  have hho := s.fb.hOff.isLt
  have hvo := s.fb.vOff.isLt
  have hcode : scrollCode wrap ∈ emittedCodes (.scroll d color step wrap) := by simp [emittedCodes, scrollCode]
  intro u hu
  unfold scroll at hu
  split at hu
  · cases hu
  rename_i hc
  have hcol := checkIndex_inv hc
  split at hu
  · cases hu; exact coarseScroll_emits P d hcol wrap hcode s
  · split at hu
    · split at hu
      · cases hu
      · cases hu; exact issueScroll_emits P wrap hcode hcol (by omega) (by omega) (by omega) (by omega) s
    · split at hu
      · cases hu
      · cases hu; exact issueScroll_emits P wrap hcode hcol (by omega) (by omega) (by omega) (by omega) s

theorem paletteLow_does (palette : List Nat) (dup : Bool) (s : State) :
    CommandDoes P (.paletteLow palette dup) s (paletteLow P palette dup s) := by
  intro u hu
  unfold paletteLow at hu
  split at hu
  · cases hu
  · rename_i hs; cases hu
    exact loadLow_emits P (by simp [emittedCodes]) (halfSlots_inv hs).1 (halfSlots_inv hs).2 s

theorem paletteHigh_does (palette : List Nat) (dup : Bool) (s : State) :
    CommandDoes P (.paletteHigh palette dup) s (paletteHigh P palette dup s) := by
  intro u hu
  unfold paletteHigh at hu
  split at hu
  · cases hu
  · rename_i hs; cases hu
    exact loadHigh_emits P (by simp [emittedCodes]) (halfSlots_inv hs).1 (halfSlots_inv hs).2 s

/-- A fade through any levels in range, for either fade command. -/
theorem fade_does {i : Instr} (hi : emittedCodes i = [Config.NOOP, Config.LOAD_CLUT_LOW, Config.LOAD_CLUT_HIGH])
    {levels : List Nat} (hlev : ∀ k ∈ levels, k ≤ 15) (speed : Nat) (palette : List Nat) (s : State) :
    CommandDoes P i s (fade P levels speed palette s) := by
  intro u hu
  unfold fade at hu
  split at hu
  · cases hu
  · rename_i hc; cases hu
    exact fadeThrough_emits P (by simp [hi]) (by simp [hi]) (by simp [hi]) speed (checkFade_inv hc).1 hlev s

theorem scrollImageUp_does (image : List (List Nat)) (speed : Nat) (s : State) :
    CommandDoes P (.scrollImageUp image speed) s (scrollImageUp P image speed s) := by
  intro u hu
  unfold scrollImageUp at hu
  split at hu
  · cases hu
  · cases hu
    exact Emits.foldl _ (showImageRow_emits P (by simp [emittedCodes]) (by simp [emittedCodes]) (by simp [emittedCodes])
      image speed) _ s

end

/-! ### What one instruction can do -/

/-- Every way an instruction can end in a next state: a packet instruction changes the framebuffer alone; a command
raises an error, starts a new session, returns bytes, or emits well-formed packets and moves the cursor. -/
inductive ExecCase (i : Instr) (s : State) : State → Prop where
  | packet (fb : Framebuffer) (hp : i.isPacket = true) : ExecCase i s (s.setFb fb)
  | raised (e : CommandError) (hp : i.isPacket = false) : ExecCase i s (s.setResult (some (.error e)))
  | session (hi : i = .newBuffer) : ExecCase i s ((newSession s).setResult (some .ok))
  | returned (b : List Byte) (hp : i.isPacket = false) : ExecCase i s (s.setResult (some (.bytes b)))
  | emitted (u : State) (hp : i.isPacket = false) (hu : Emits Config.live (emittedCodes i) (movesCursor i) s u) :
      ExecCase i s (u.setResult (some .ok))

theorem execCase_answer {i : Instr} {s t : State} {r : Except CommandError State} (hp : i.isPacket = false)
    (hr : CommandDoes Config.live i s r) (h : answer s r = .next t) : ExecCase i s t := by
  obtain ⟨u, hu, rfl⟩ | ⟨e, _, rfl⟩ := answer_cases h
  · exact .emitted u hp (hr u hu)
  · exact .raised e hp

theorem execCase_packet {i : Instr} {s t : State} {ok : Bool} {f : Framebuffer → Framebuffer} (hp : i.isPacket = true)
    (h : runPacket ok f s = .next t) : ExecCase i s t := by
  obtain ⟨_, rfl⟩ := runPacket_cases h
  exact .packet _ hp

theorem execCase_bytes {i : Instr} {s t : State} {r : Except CommandError (List Byte)} (hp : i.isPacket = false)
    (h : answerBytes s r = .next t) : ExecCase i s t := by
  obtain ⟨b, _, rfl⟩ | ⟨e, _, rfl⟩ := answerBytes_cases h
  · exact .returned b hp
  · exact .raised e hp

/-- The inversion lemma of `exec`. -/
theorem exec_cases {i : Instr} {s t : State} (h : exec i s = .next t) : ExecCase i s t := by
  cases i with
  | noop => exact execCase_packet (ok := true) (f := applyNoop) rfl h
  | memoryPreset color rep => exact execCase_packet (ok := true) (f := applyMemoryPreset color rep) rfl h
  | borderPreset color => exact execCase_packet (ok := true) (f := applyBorderPreset color) rfl h
  | tileNormal a b row col rows => exact execCase_packet rfl h
  | scrollPreset color hCmd hOff vCmd vOff => exact execCase_packet rfl h
  | scrollCopy color hCmd hOff vCmd vOff => exact execCase_packet rfl h
  | loadClutLow colors => exact execCase_packet (ok := true) (f := applyLoadClutLow colors) rfl h
  | loadClutHigh colors => exact execCase_packet (ok := true) (f := applyLoadClutHigh colors) rfl h
  | tileXor a b row col rows => exact execCase_packet rfl h
  | encodePacket instr payload => exact execCase_bytes rfl h
  | setScreenColor index => exact execCase_answer rfl (setScreenColor_does _ index s) h
  | setBorderColor index => exact execCase_answer rfl (setBorderColor_does _ index s) h
  | writeTile row col colorA colorB px xor =>
    exact execCase_answer rfl (writeTile_does _ row col colorA colorB px xor (by simp [emittedCodes]) s) h
  | tileBlit row col colorA colorB px =>
    exact execCase_answer rfl (writeTile_does _ row col colorA colorB px false (by simp [emittedCodes]) s) h
  | xorBlit row col colorA colorB px =>
    exact execCase_answer rfl (writeTile_does _ row col colorA colorB px true (by simp [emittedCodes]) s) h
  | setCursor x y => exact execCase_answer rfl (setCursor_does _ x y s) h
  | advanceCursor =>
    exact execCase_answer (r := .ok (advanceCursor Config.live s)) rfl
      (fun u hu => by cases hu; exact advanceCursor_emits _ rfl (by simp [emittedCodes]) s) h
  | textTile character x y xor => exact execCase_answer rfl (textTile_does _ character x y xor s) h
  | printScreen text xor => exact execCase_answer rfl (printScreen_does _ text xor s) h
  | scroll direction color step wrap => exact execCase_answer rfl (scroll_does _ direction color step wrap s) h
  | smoothScroll direction =>
    exact execCase_answer (r := .ok (smoothScroll Config.live direction s)) rfl
      (fun u hu => by cases hu; exact smoothScroll_emits _ direction (by simp [emittedCodes]) s) h
  | paletteLow palette duplicates => exact execCase_answer rfl (paletteLow_does _ palette duplicates s) h
  | paletteHigh palette duplicates => exact execCase_answer rfl (paletteHigh_does _ palette duplicates s) h
  | fadeIn speed palette => exact execCase_answer rfl (fade_does _ rfl fadeLevels_le.1 speed palette s) h
  | fadeOut speed palette => exact execCase_answer rfl (fade_does _ rfl fadeLevels_le.2 speed palette s) h
  | scrollImageUp image speed => exact execCase_answer rfl (scrollImageUp_does _ image speed s) h
  | newBuffer =>
    obtain ⟨u, hu, rfl⟩ | ⟨e, he, _⟩ := answer_cases (s := s) (r := .ok (newSession s)) h
    · cases hu; exact .session rfl
    · cases he
  | getBuffer => exact execCase_bytes (r := .ok (bufRead s 0 s.buffer.length)) rfl h
  | delayTicks n =>
    exact execCase_answer (r := .ok (padSlots Config.live n s)) rfl
      (fun u hu => by cases hu; exact padSlots_emits _ (by simp [emittedCodes]) n s) h
  | delaySeconds seconds =>
    exact execCase_answer (r := .ok (padSlots Config.live (seconds * Config.TICKS_PER_SECOND) s)) rfl
      (fun u hu => by cases hu; exact padSlots_emits _ (by simp [emittedCodes]) _ s) h

/-- No instruction writes what the outside still asks. -/
theorem exec_pending {i : Instr} {s t : State} (h : exec i s = .next t) : t.pending = s.pending := by
  cases exec_cases h with
  | emitted u _ hu => exact hu.pending
  | _ => rfl

/-! ### What one step can do -/

/-- Every way a step can end in a next state: nothing is asked and nothing changes; a session's host command runs; or
the packet of a replay runs. -/
inductive StepCase (s : State) : State → Prop where
  | idle : StepCase s s
  | command {t : State} (k : Command) (rest : List Command) (hp : s.pending = .host (k :: rest))
      (h : exec k.instr (s.setPending (.host rest)) = .next t) : StepCase s t
  | packet {t : State} (b : ForeignPacket) (rest : List ForeignPacket) (i : Instr) (hp : s.pending = .replay (b :: rest))
      (hf : fetch Config.live b = .ok i) (h : exec i (s.setPending (.replay rest)) = .next t) : StepCase s t

/-- The inversion lemma of `step`. -/
theorem step_cases {s t : State} (h : step s = .next t) : StepCase s t := by
  unfold step at h
  split at h
  · cases h; exact .idle
  · exact .command _ _ ‹_› h
  · cases h; exact .idle
  · split at h
    · cases h
    · exact .packet _ _ _ ‹_› ‹_› h

end Sys2Proof.Machine
end

