-- ==== Sys2Proof/Laws/PerInstr.lean ====
section
/-! SUPPORT. The statements made for every instruction as syntax, one lemma per constructor. -/

namespace Sys2Proof.Laws.EncodedLength

/-- An instruction has an encoding exactly when it is a packet instruction, and its encoding is 24 bytes (R45, R57). -/
def Statement (i : Instr) : Prop :=
  ∀ P : Params, (encode P i).isSome = i.isPacket ∧ ∀ b, encode P i = some b → b.length = 24

/-- An instruction with a 16-byte body. -/
theorem of_body {i : Instr} {code : BitVec 6} {p : List Byte} (hb : encodeBody i = some (code, p)) (hp : p.length = 16)
    (hi : i.isPacket = true) : Statement i := by
  intro P
  refine ⟨by simp [encode, hb, hi], ?_⟩
  intro b h
  simp only [encode, hb, Option.map_some, Option.some.injEq] at h
  rw [← h, packetBytes_length P code hp]

/-- An instruction without a body. -/
theorem of_none {i : Instr} (hb : encodeBody i = none) (hi : i.isPacket = false) : Statement i := by
  intro P
  refine ⟨by simp [encode, hb, hi], ?_⟩
  intro b h
  simp [encode, hb] at h

theorem clutPayload_length (colors : Vector Color 8) : (clutPayload colors).length = 16 := by
  have h : ∀ xs : List Color, (xs.flatMap splitColor).length = 2 * xs.length := by
    intro xs
    induction xs with
    | nil => rfl
    | cons v rest ih => simp only [List.flatMap_cons, List.length_append, ih, splitColor, List.length_cons, List.length_nil]; omega
  simp [clutPayload, h]

theorem tilePayload_length (a b : ColorIndex) (row : BitVec 5) (col : BitVec 6) (rows : Vector (BitVec 6) 12) :
    (tilePayload a b row col rows).length = 16 := by simp [tilePayload]

theorem noop : Statement .noop := of_body rfl rfl rfl
theorem memoryPreset (color : ColorIndex) (rep : BitVec 4) : Statement (.memoryPreset color rep) := of_body rfl rfl rfl
theorem borderPreset (color : ColorIndex) : Statement (.borderPreset color) := of_body rfl rfl rfl
theorem tileNormal (a b : ColorIndex) (row : BitVec 5) (col : BitVec 6) (rows : Vector (BitVec 6) 12) :
    Statement (.tileNormal a b row col rows) := of_body rfl (tilePayload_length a b row col rows) rfl
theorem scrollPreset (color : ColorIndex) (hCmd : BitVec 2) (hOff : BitVec 3) (vCmd : BitVec 2) (vOff : BitVec 4) :
    Statement (.scrollPreset color hCmd hOff vCmd vOff) := of_body rfl rfl rfl
theorem scrollCopy (color : ColorIndex) (hCmd : BitVec 2) (hOff : BitVec 3) (vCmd : BitVec 2) (vOff : BitVec 4) :
    Statement (.scrollCopy color hCmd hOff vCmd vOff) := of_body rfl rfl rfl
theorem loadClutLow (colors : Vector Color 8) : Statement (.loadClutLow colors) :=
  of_body rfl (clutPayload_length colors) rfl
theorem loadClutHigh (colors : Vector Color 8) : Statement (.loadClutHigh colors) :=
  of_body rfl (clutPayload_length colors) rfl
theorem tileXor (a b : ColorIndex) (row : BitVec 5) (col : BitVec 6) (rows : Vector (BitVec 6) 12) :
    Statement (.tileXor a b row col rows) := of_body rfl (tilePayload_length a b row col rows) rfl
theorem encodePacket (instr : Nat) (payload : List Nat) : Statement (.encodePacket instr payload) := of_none rfl rfl
theorem setScreenColor (index : Nat) : Statement (.setScreenColor index) := of_none rfl rfl
theorem setBorderColor (index : Nat) : Statement (.setBorderColor index) := of_none rfl rfl
theorem writeTile (row col colorA colorB : Nat) (pixelBits : List Nat) (xor : Bool) :
    Statement (.writeTile row col colorA colorB pixelBits xor) := of_none rfl rfl
theorem tileBlit (row col colorA colorB : Nat) (pixelBits : List Nat) :
    Statement (.tileBlit row col colorA colorB pixelBits) := of_none rfl rfl
theorem xorBlit (row col colorA colorB : Nat) (pixelBits : List Nat) :
    Statement (.xorBlit row col colorA colorB pixelBits) := of_none rfl rfl
theorem setCursor (x y : Nat) : Statement (.setCursor x y) := of_none rfl rfl
theorem advanceCursor : Statement .advanceCursor := of_none rfl rfl
theorem textTile (character x y : Nat) (xor : Bool) : Statement (.textTile character x y xor) := of_none rfl rfl
theorem printScreen (text : List Nat) (xor : Bool) : Statement (.printScreen text xor) := of_none rfl rfl
theorem scroll (direction : Direction) (color : Nat) (step : Option Nat) (wrap : Bool) :
    Statement (.scroll direction color step wrap) := of_none rfl rfl
theorem smoothScroll (direction : Direction) : Statement (.smoothScroll direction) := of_none rfl rfl
theorem paletteLow (palette : List Nat) (duplicates : Bool) : Statement (.paletteLow palette duplicates) := of_none rfl rfl
theorem paletteHigh (palette : List Nat) (duplicates : Bool) : Statement (.paletteHigh palette duplicates) := of_none rfl rfl
theorem fadeIn (speed : Nat) (palette : List Nat) : Statement (.fadeIn speed palette) := of_none rfl rfl
theorem fadeOut (speed : Nat) (palette : List Nat) : Statement (.fadeOut speed palette) := of_none rfl rfl
theorem scrollImageUp (image : List (List Nat)) (speed : Nat) : Statement (.scrollImageUp image speed) := of_none rfl rfl
theorem newBuffer : Statement .newBuffer := of_none rfl rfl
theorem getBuffer : Statement .getBuffer := of_none rfl rfl
theorem delayTicks (n : Nat) : Statement (.delayTicks n) := of_none rfl rfl
theorem delaySeconds (seconds : Nat) : Statement (.delaySeconds seconds) := of_none rfl rfl

end Sys2Proof.Laws.EncodedLength
end

