-- ==== Sys2Proof/Machine/Flags.lean ====
section
/-! DEFINITION. The encoder has no status flags, condition codes or predicates, and no command sets one
(spec/10_state.md R26). What a command reports is its result, with the codes of spec/60_exceptions.md R114. -/

namespace Sys2Proof.Machine

/-- The code of an error (R114). -/
def CommandError.code : CommandError → Nat
  | .invalidPayload => 1
  | .outOfBounds => 2
  | .paletteRangeError => 3
  | .ambiguousFill => 4

/-- The code a command reports: 0 is `ok` (R114). -/
def Result.code : Result → Nat
  | .ok => 0
  | .bytes _ => 0
  | .error e => e.code

end Sys2Proof.Machine
end

