-- ==== Sys2Proof/Tests/Slice0.lean ====
section
/-! SUPPORT. The model's own tests. Every expected value is a vector of spec/95_test_vectors.md, whose id stands in the
test's comment, or is worked out by hand from the rule it names. The vectors' parameters are the spec's test instances
(R46, R62, R91): mode 0, parity `PARITY_ZERO`, font `FONT_TEST`. After the tests stands, for every statement of
Sys2Proof/Certificates/Slice0/Obligations.lean that has hypotheses, a witness that meets them. -/

namespace Sys2Proof.Tests
open Sys2Proof Sys2Proof.Machine

/-! ### Helpers -/

/-- The parameters of the test vectors. -/
def T : Params where
  modeBits := 0
  parity := fun _ _ => Vector.replicate 7 0
  font := fun ch => Vector.replicate 12 (ch.setWidth 6)

/-- A packet of the vectors: byte 0, the given payload bytes and zeros to 24. -/
def pkt (b0 : Byte) (p : List Byte) : List Byte := b0 :: p ++ List.replicate (23 - p.length) 0

/-- `n` copies of a natural number. -/
def rep (n v : Nat) : List Nat := List.replicate n v

/-- A reset session with a canvas given by a function. -/
def canvasState (f : Nat → Nat → Cell) : State := State.reset.setFb { Framebuffer.reset with canvas := canvasOf f }

/-- Every cell holds `v`. -/
def screen (v : ColorIndex) : State := canvasState fun _ _ => some v

/-- Every cell holds 3 but those of tile (r, c), which hold 1: the start of SC-1 to SC-4. -/
def oneTile (r c' : Nat) : State := canvasState fun y x => if y / 12 = r ∧ x / 6 = c' then some 1 else some 3

/-- A session with its cursor at (col, row). -/
def atCursor (col : Fin 49) (row : Fin 17) : State := State.reset.setCursor col row

/-- A session with fine offsets. -/
def withOffsets (h : Fin 6) (v : Fin 12) (s : State) : State := s.setFb { s.fb with hOff := h, vOff := v }

/-- What a command that succeeds appends to an empty buffer; a command that fails appends nothing. -/
def bytesOf (r : Except CommandError State) : List Byte :=
  match r with
  | .ok t => t.buffer
  | .error _ => []

/-- A property of the state a command leaves; a command that fails has none. -/
def leaves (r : Except CommandError State) (p : State → Bool) : Bool :=
  match r with
  | .ok t => p t
  | .error _ => false

/-- The error of a command. -/
def errorOf (r : Except CommandError State) : Option CommandError :=
  match r with
  | .ok _ => none
  | .error e => some e

/-- A property of the state that `exec` or `step` answers. -/
def answers (o : Host.Outcome State Fault Refusal) (p : State → Bool) : Bool :=
  match o with
  | .next t => p t
  | .fault _ => false
  | .refused _ => false

/-- The refusal that `exec` or `step` answers. -/
def refusal (o : Host.Outcome State Fault Refusal) : Option Refusal :=
  match o with
  | .next _ => none
  | .fault _ => none
  | .refused r => some r

/-- The reason for which a decoder refuses. -/
def defectOf (r : Except PacketDefect Instr) : Option PacketDefect :=
  match r with
  | .ok _ => none
  | .error d => some d

/-- The bytes that `encodePacket` returns. -/
def encoded (P : Params) (instr : Nat) (payload : List Nat) : Option (List Byte) := (encodePacket P instr payload).toOption

/-- Cells x, x+1, ... x+n-1 of line y. -/
def cells (s : State) (y x n : Nat) : List (Option Nat) :=
  (List.range' x n).map fun k => (pixelAt s.fb.canvas y k).map (·.toNat)

/-- Palette entries 0..15. -/
def entries (s : State) : List (Option Nat) := s.fb.palette.toList.map (·.map (·.toNat))

/-- The palette `P8` of the vectors. -/
def P8 : List Nat := [0x000, 0xFFF, 0xF00, 0x0F0, 0x00F, 0x888, 0x444, 0xCCC]
/-- The upper half of the palette `PF` of the vectors. -/
def PH : List Nat := [0xF80, 0x123, 0x456, 0x789, 0xABC, 0xDEF, 0x111, 0x222]
/-- The palette `PF` of the vectors. -/
def PF : List Nat := P8 ++ PH

/-- The payload of SX-6. -/
def p8Bytes : List Byte := [0x00, 0x00, 0x3F, 0x3F, 0x3C, 0x00, 0x03, 0x30, 0x00, 0x0F, 0x22, 0x08, 0x11, 0x04, 0x33, 0x0C]
/-- The payload of P149 of SX-8. -/
def phBytes : List Byte := [0x3E, 0x00, 0x04, 0x23, 0x11, 0x16, 0x1E, 0x09, 0x2A, 0x3C, 0x37, 0x2F, 0x04, 0x11, 0x08, 0x22]

/-! ### WellFormed: a smoke test for each check (R55) -/

theorem test_wf_tile_row : (Instr.tileNormal 0 0 18 0 (Vector.replicate 12 0)).wf = false := by decide
theorem test_wf_tile_col : (Instr.tileXor 0 0 0 50 (Vector.replicate 12 0)).wf = false := by decide
theorem test_wf_hCmd : (Instr.scrollPreset 0 3 0 0 0).wf = false := by decide
theorem test_wf_hOff : (Instr.scrollCopy 0 0 6 0 0).wf = false := by decide
theorem test_wf_vCmd : (Instr.scrollCopy 0 0 0 3 0).wf = false := by decide
theorem test_wf_vOff : (Instr.scrollPreset 0 0 0 0 12).wf = false := by decide
theorem test_wf_boundary :
    (Instr.tileNormal 0 0 17 49 (Vector.replicate 12 0)).wf = true ∧ (Instr.scrollCopy 0 2 5 2 11).wf = true := by decide

/-! ### Decoding: words written out from the layouts of R46 to R54 -/

/-- SX-4, the no-op packet. -/
theorem test_decode_noop : decodeSealed T (pkt 0x00 []) = .ok .noop := by rfl
/-- AP-3. -/
theorem test_decode_memoryPreset : decodeSealed T (pkt 0x01 [0x03, 0x05]) = .ok (.memoryPreset 3 5) := by rfl
/-- AP-4. -/
theorem test_decode_borderPreset : decodeSealed T (pkt 0x02 [0x0F]) = .ok (.borderPreset 15) := by rfl
/-- TL-2's packet: colours 3 and 5, row 1, column 2, pixel rows 0x20, 0x01, 0x3F and nine zeros. -/
theorem test_decode_tileNormal : decodeSealed T (pkt 0x06 [3, 5, 1, 2, 0x20, 0x01, 0x3F]) =
    .ok (.tileNormal 3 5 1 2 #v[0x20, 0x01, 0x3F, 0, 0, 0, 0, 0, 0, 0, 0, 0]) := by rfl
/-- AP-5's packet. -/
theorem test_decode_tileXor : decodeSealed T (pkt 0x26 ([1, 3, 0, 0] ++ List.replicate 12 0x3F)) =
    .ok (.tileXor 1 3 0 0 (Vector.replicate 12 0x3F)) := by rfl
/-- SC-11's packet: colour 2, no horizontal command and offset 5, vertical command 1 and offset 7. -/
theorem test_decode_scrollPreset : decodeSealed T (pkt 0x14 [0x02, 0x05, 0x17]) = .ok (.scrollPreset 2 0 5 1 7) := by rfl
/-- SC-2's packet: colour 4, horizontal command 2. -/
theorem test_decode_scrollCopy : decodeSealed T (pkt 0x18 [0x04, 0x20, 0x00]) = .ok (.scrollCopy 4 2 0 0 0) := by rfl
/-- SX-6. -/
theorem test_decode_loadClutLow : decodeSealed T (pkt 0x1E p8Bytes) =
    .ok (.loadClutLow #v[0x000, 0xFFF, 0xF00, 0x0F0, 0x00F, 0x888, 0x444, 0xCCC]) := by rfl
/-- P149 of SX-8. -/
theorem test_decode_loadClutHigh : decodeSealed T (pkt 0x1F phBytes) =
    .ok (.loadClutHigh #v[0xF80, 0x123, 0x456, 0x789, 0xABC, 0xDEF, 0x111, 0x222]) := by rfl

/-- AP-8 to AP-19, each with the reason the vector gives. -/
theorem test_decode_refuses :
    defectOf (decodeSealed T (pkt 0x40 [])) = some .mode ∧ defectOf (decodeSealed T (pkt 0x03 [])) = some (.reservedCode 3) ∧
    defectOf (decodeSealed T (0x00 :: List.replicate 16 0 ++ [1, 0, 0, 0, 0, 0, 0])) = some .parity ∧
    defectOf (decodeSealed T (pkt 0x00 [1])) = some .field ∧ defectOf (decodeSealed T (pkt 0x06 [0, 0, 0x12])) = some .field ∧
    defectOf (decodeSealed T (pkt 0x06 [0, 0, 0, 0x32])) = some .field ∧
    defectOf (decodeSealed T (pkt 0x06 [0, 0, 0, 0, 0x40])) = some .field ∧ defectOf (decodeSealed T (pkt 0x14 [0, 0x30])) = some .field ∧
    defectOf (decodeSealed T (pkt 0x14 [0, 0x06])) = some .field ∧ defectOf (decodeSealed T (pkt 0x14 [0, 0, 0x0C])) = some .field ∧
    defectOf (decodeSealed T (pkt 0x1E [0x40])) = some .field ∧ defectOf (decodeSealed T (pkt 0x02 [0x10])) = some .field := by decide

/-- The encoder writes TL-6's packet: the last tile. -/
theorem test_encode_tileNormal : encode T (.tileNormal 15 15 17 49 (Vector.replicate 12 0x3F)) =
    some (pkt 0x06 ([0x0F, 0x0F, 0x11, 0x31] ++ List.replicate 12 0x3F)) := by decide

/-- PC-9: fields of a packet of another mode; it is not well-formed when `MODE_BITS` is 0. -/
theorem test_decodePacket : decodePacket T (pkt 0x9E []) = some (2, 30, List.replicate 16 0, true) ∧
    wellFormed T (pkt 0x9E []) = false := by decide

/-- A word of the opcode table, numbered as the table numbers it, with its mode bits set: BORDER_PRESET. -/
theorem test_decodeTableWord : decodeTableWord 8 0xC2 = some (.borderPreset 0) := by decide

/-- The first step after reset runs the word that `withFetchWord` placed: TL-15's border of 15. -/
theorem test_withFetchWord : answers (step (State.reset.withFetchWord 24 0x0F02)) (fun t => t.fb.border == some 15) = true := by
  decide

/-! ### Packet instructions -/

/-- AP-2 and AP-3: every cell and the screen colour become 3, whatever the repeat count. -/
theorem test_memoryPreset : answers (exec (.memoryPreset 3 5) State.reset) (fun t =>
    cells t 0 0 1 == [some 3] && cells t 215 298 2 == [some 3, some 3] && t.fb.screenColor == some 3) = true := by decide
/-- AP-4. -/
theorem test_borderPreset : answers (exec (.borderPreset 15) State.reset) (fun t =>
    t.fb.border == some 15 && cells t 0 0 1 == [none]) = true := by decide
/-- TL-2: lines 12, 13 and 15 of tile (1, 2). -/
theorem test_tileNormal :
    answers (exec (.tileNormal 3 5 1 2 #v[0x20, 0x01, 0x3F, 0, 0, 0, 0, 0, 0, 0, 0, 0]) (screen 0)) (fun t =>
      cells t 12 11 8 == [some 0, some 5, some 3, some 3, some 3, some 3, some 3, some 0] &&
      cells t 13 12 6 == [some 3, some 3, some 3, some 3, some 3, some 5]) = true := by decide
/-- AP-5: XOR into `undef`. -/
theorem test_tileXor_undef : answers (exec (.tileXor 1 3 0 0 (Vector.replicate 12 0x3F)) State.reset) (fun t =>
    cells t 0 0 2 == [none, none]) = true := by decide
/-- AP-6: a cell holding 7 XORed with 2. -/
theorem test_tileXor : answers (exec (.tileXor 1 2 0 0 (Vector.replicate 12 0x20)) (screen 7)) (fun t =>
    cells t 11 0 2 == [some 5, some 6] && cells t 12 0 1 == [some 7]) = true := by decide
/-- SC-3's packet on SC-3's canvas. -/
theorem test_scrollPreset : answers (exec (.scrollPreset 7 0 0 1 0) (oneTile 0 0)) (fun t =>
    cells t 11 0 1 == [some 7] && cells t 12 5 2 == [some 1, some 3] && t.fb.vTile == 17) = true := by decide
/-- SC-2's packet on SC-2's canvas. -/
theorem test_scrollCopy : answers (exec (.scrollCopy 4 2 0 0 0) (oneTile 0 0)) (fun t =>
    cells t 11 293 7 == [some 3, some 1, some 1, some 1, some 1, some 1, some 1] && t.fb.hTile == 1) = true := by decide +kernel
/-- SX-6: the lower half, the upper half left `undef`. -/
theorem test_loadClutLow :
    answers (exec (.loadClutLow #v[0x000, 0xFFF, 0xF00, 0x0F0, 0x00F, 0x888, 0x444, 0xCCC]) State.reset) (fun t =>
      entries t == P8.map some ++ List.replicate 8 none) = true := by decide
/-- AP-7. -/
theorem test_loadClutHigh : answers (exec (.loadClutHigh (Vector.replicate 8 0xF00)) State.reset) (fun t =>
    entries t == List.replicate 8 none ++ List.replicate 8 (some 0xF00)) = true := by decide
/-- AP-12 and AP-15, the instructions given by their fields: a field out of range is refused. -/
theorem test_packet_refused :
    refusal (exec (.tileNormal 0 0 18 0 (Vector.replicate 12 0)) State.reset) = some (.notWellFormed .field) ∧
    refusal (exec (.scrollPreset 0 3 0 0 0) State.reset) = some (.notWellFormed .field) := by decide

/-! ### The codec command -/

/-- PC-2 and PC-3: the code is masked, and a reserved code is encoded. -/
theorem test_encodePacket : encoded T 70 [] = some (pkt 0x06 []) ∧
    encoded T 5 (List.range 16) = some (pkt 0x05 ((List.range 16).map (BitVec.ofNat 8))) := by decide
/-- PC-4, PC-5 and PC-7. -/
theorem test_encodePacket_errors : encoded T 0 (rep 17 0) = none ∧ encoded T 0 [256] = none ∧
    answers (exec (.encodePacket 0 [256]) State.reset) (fun t => t.result == some (.error .invalidPayload)) = true ∧
    encoded { T with modeBits := 2 } 30 [] = some (pkt 0x9E []) := by decide

/-! ### Colour, tile and cursor commands -/

/-- TL-1 and TL-14. -/
theorem test_setScreenColor : bytesOf (setScreenColor T 15 State.reset) = pkt 0x01 [0x0F] ∧
    leaves (setScreenColor T 15 State.reset) (fun t => t.fb.screenColor == some 15 && cells t 107 150 1 == [some 15]) = true ∧
    errorOf (setScreenColor T 16 State.reset) = some .paletteRangeError := by decide
/-- TL-15 and TL-16. -/
theorem test_setBorderColor : bytesOf (setBorderColor T 15 State.reset) = pkt 0x02 [0x0F] ∧
    leaves (setBorderColor T 15 State.reset) (fun t => t.fb.border == some 15 && cells t 0 0 1 == [none]) = true ∧
    errorOf (setBorderColor T 16 State.reset) = some .paletteRangeError := by decide
/-- TL-6: the last tile. -/
theorem test_writeTile : bytesOf (writeTile T 17 49 15 15 (rep 12 0x3F) false State.reset) =
      pkt 0x06 ([0x0F, 0x0F, 0x11, 0x31] ++ List.replicate 12 0x3F) ∧
    leaves (writeTile T 17 49 15 15 (rep 12 0x3F) false State.reset) (fun t =>
      cells t 215 293 7 == none :: List.replicate 6 (some 15)) = true := by decide +kernel
/-- TL-7 to TL-13: the errors in the order they are checked. -/
theorem test_writeTile_errors :
    errorOf (writeTile T 18 0 1 2 (rep 12 0) false State.reset) = some .outOfBounds ∧
    errorOf (writeTile T 0 50 1 2 (rep 12 0) false State.reset) = some .outOfBounds ∧
    errorOf (writeTile T 0 0 16 2 (rep 12 0) false State.reset) = some .paletteRangeError ∧
    errorOf (writeTile T 0 0 1 2 (rep 11 0) false State.reset) = some .invalidPayload ∧
    errorOf (writeTile T 0 0 1 2 (rep 11 0 ++ [0x40]) false State.reset) = some .invalidPayload ∧
    errorOf (writeTile T 18 0 16 2 (rep 11 0) false State.reset) = some .outOfBounds ∧
    errorOf (writeTile T 0 0 16 2 (rep 11 0) false State.reset) = some .paletteRangeError := by decide
/-- TL-18: tile addresses ignore the offsets, and `view` shows the tile shifted. -/
theorem test_tileBlit :
    answers (exec (.tileBlit 0 0 1 1 (rep 12 0)) (withOffsets 3 7 State.reset)) (fun t =>
      cells t 0 0 1 == [some 1] && (view t.fb 209 297, view t.fb 4 2, view t.fb 5 2) == (some 1, some 1, none)) = true := by
  decide
/-- TL-4. -/
theorem test_xorBlit : answers (exec (.xorBlit 0 0 0 3 (rep 12 0x3F)) (screen 5)) (fun t =>
    cells t 11 4 3 == [some 6, some 6, some 5]) = true := by decide
/-- CU-1 to CU-3. -/
theorem test_setCursor : errorOf (setCursor 49 0 State.reset) = some .outOfBounds ∧
    errorOf (setCursor 0 17 State.reset) = some .outOfBounds ∧
    leaves (setCursor 48 16 State.reset) (fun t => (t.cursorCol, t.cursorRow) == (48, 16)) = true := by decide
/-- CU-4 and CU-5. -/
theorem test_advanceCursor :
    ((advanceCursor T (atCursor 47 3)).cursorCol, (advanceCursor T (atCursor 47 3)).cursorRow) = (48, 3) ∧
    ((advanceCursor T (atCursor 48 3)).cursorCol, (advanceCursor T (atCursor 48 3)).cursorRow) = (0, 4) := by decide
/-- CU-7: the scroll keeps the fine offsets. -/
theorem test_advanceCursor_scrolls :
    leaves (.ok (advanceCursor T (withOffsets 2 4 (atCursor 48 16)))) (fun t =>
      t.buffer == pkt 0x14 [0x00, 0x02, 0x24] && (t.cursorCol, t.cursorRow) == (0, 16) &&
      (t.fb.hOff, t.fb.vOff, t.fb.vTile) == (2, 4, 1) && cells t 204 0 1 == [some 0]) = true := by decide

/-! ### Text -/

/-- TX-1. -/
theorem test_textTile : bytesOf (textTile T 0x41 2 1 false State.reset) =
      pkt 0x06 ([0, 1, 1, 2] ++ List.replicate 12 1) ∧
    leaves (textTile T 0x41 2 1 false State.reset) (fun t =>
      cells t 23 12 6 == [some 0, some 0, some 0, some 0, some 0, some 1] && t.cursorCol == 0) = true := by decide
/-- TX-9 to TX-12. -/
theorem test_textTile_errors : errorOf (textTile T 0x100 0 0 false State.reset) = some .invalidPayload ∧
    errorOf (textTile T 0x41 0 18 false State.reset) = some .outOfBounds ∧
    errorOf (textTile T 0x100 0 18 false State.reset) = some .invalidPayload ∧
    bytesOf (textTile T 0x41 49 0 false State.reset) = pkt 0x06 ([0, 1, 0, 0x31] ++ List.replicate 12 1) := by decide
/-- TX-4: a newline. -/
theorem test_printScreen : leaves (printScreen T [0x41, 0x0A, 0x42] false State.reset) (fun t =>
    t.buffer == pkt 0x06 ([0, 1, 0, 0] ++ List.replicate 12 1) ++ pkt 0x06 ([0, 1, 1, 0] ++ List.replicate 12 2) &&
    (t.cursorCol, t.cursorRow) == (1, 1)) = true := by decide
/-- TX-3 and TX-5: the tiles precede the scroll that the last one triggers. -/
theorem test_printScreen_scrolls : errorOf (printScreen T [0x41, 0x100] false State.reset) = some .invalidPayload ∧
    bytesOf (printScreen T [0x58, 0x59] false (atCursor 47 16)) =
      pkt 0x06 ([0x00, 0x01, 0x10, 0x2F] ++ List.replicate 12 0x18) ++
      pkt 0x06 ([0x00, 0x01, 0x10, 0x30] ++ List.replicate 12 0x19) ++ pkt 0x14 [0x00, 0x00, 0x20] := by decide

/-! ### Scroll -/

/-- SC-1 and SC-5 to SC-8. -/
theorem test_scroll : bytesOf (scroll T .left 4 none false (oneTile 0 1)) = pkt 0x14 [0x04, 0x20, 0x00] ∧
    leaves (scroll T .left 4 none false (oneTile 0 1)) (fun t =>
      cells t 11 5 2 == [some 1, some 3] && cells t 215 293 2 == [some 3, some 4] && t.fb.hTile == 1) = true ∧
    errorOf (scroll T .up 16 none false State.reset) = some .paletteRangeError ∧
    errorOf (scroll T .up 16 (some 12) false State.reset) = some .paletteRangeError ∧
    errorOf (scroll T .up 3 (some 12) false State.reset) = some .outOfBounds ∧
    errorOf (scroll T .left 3 (some 6) false State.reset) = some .outOfBounds := by decide +kernel
/-- SC-9 and SC-10: a step changes only the fine offset of its axis. -/
theorem test_scroll_step : bytesOf (scroll T .up 3 (some 7) false State.reset) = pkt 0x14 [0x03, 0x00, 0x07] ∧
    bytesOf (scroll T .left 0 (some 5) true (withOffsets 0 7 State.reset)) = pkt 0x18 [0x00, 0x05, 0x07] ∧
    leaves (scroll T .left 0 (some 5) true (withOffsets 0 7 State.reset)) (fun t =>
      (t.fb.hOff, t.fb.vOff, t.fb.hTile, t.fb.vTile) == (5, 7, 0, 0)) = true := by decide
/-- SC-13: the carry, and the view moved by one pixel. -/
theorem test_smoothScroll : leaves (.ok (smoothScroll T .left (withOffsets 5 0 (oneTile 0 0)))) (fun t =>
    t.buffer == pkt 0x18 [0x00, 0x20, 0x00] && (t.fb.hOff, t.fb.hTile) == (0, 1) &&
    cells t 0 293 2 == [some 3, some 1] && view t.fb 0 294 == view (withOffsets 5 0 (oneTile 0 0)).fb 0 295) = true := by
  decide +kernel
/-- SC-14 to SC-16. -/
theorem test_smoothScroll_carry : (smoothScroll T .right State.reset).buffer = pkt 0x18 [0x00, 0x15, 0x00] ∧
    (smoothScroll T .up (withOffsets 0 11 State.reset)).buffer = pkt 0x18 [0x00, 0x00, 0x20] ∧
    (smoothScroll T .down State.reset).buffer = pkt 0x18 [0x00, 0x00, 0x1B] ∧
    (smoothScroll T .down State.reset).fb.vTile = 17 := by decide

/-! ### Palette and fades -/

/-- PL-5, PL-8, PL-9, PL-10 and SX-6. -/
theorem test_paletteLow : bytesOf (paletteLow T P8 false State.reset) = pkt 0x1E p8Bytes ∧
    errorOf (paletteLow T [0x123] false State.reset) = some .ambiguousFill ∧
    errorOf (paletteLow T [] true State.reset) = some .ambiguousFill ∧
    errorOf (paletteLow T (rep 9 0) false State.reset) = some .paletteRangeError ∧
    errorOf (paletteLow T [0x1000] false State.reset) = some .paletteRangeError := by decide
/-- PL-6 and PL-11: retained and repeated entries. -/
theorem test_paletteLow_fill :
    bytesOf (paletteLow T [0xABC] false
      (State.reset.setFb { Framebuffer.reset with palette := Vector.replicate 16 (some 0x123) })) =
        pkt 0x1E ([0x2A, 0x3C] ++ (List.replicate 7 [0x04, 0x23]).flatten) ∧
    bytesOf (paletteLow T [0x001, 0x002] true State.reset) =
        pkt 0x1E (List.replicate 4 [0x00, 0x01, 0x00, 0x02]).flatten := by decide
/-- PL-4. -/
theorem test_paletteHigh : bytesOf (paletteHigh T [0xF80] true State.reset) =
      pkt 0x1F (List.replicate 8 [0x3E, 0x00]).flatten ∧
    leaves (paletteHigh T [0xF80] true State.reset) (fun t =>
      entries t == List.replicate 8 none ++ List.replicate 8 (some 0xF80)) = true := by decide
/-- FD-1 to FD-5. -/
theorem test_scale : [1, 2, 7, 14, 15, 0].map (fun k => scaleColor 0xF80 k 15) = [0x100, 0x210, 0x730, 0xE70, 0xF80, 0] := by
  decide
/-- P8 and P9 of FD-6, and their eight no-op packets before them: the first step of a fade in. -/
theorem test_fadeIn_step : (fadeStep T 10 (fadeColors PF 1) State.reset).buffer =
    (List.replicate 8 (pkt 0x00 [])).flatten ++
    pkt 0x1E [0x00, 0x00, 0x04, 0x11, 0x04, 0x00, 0x00, 0x10, 0x00, 0x01, 0x00, 0x00, 0x00, 0x00, 0x00, 0x00] ++
    pkt 0x1F [0x04, 0x00, 0x00, 0x00, 0x00, 0x00, 0x00, 0x00, 0x00, 0x00, 0x00, 0x01, 0x00, 0x00, 0x00, 0x00] := by decide +kernel
/-- FD-9 to FD-11, and the last packet of SX-8. -/
theorem test_fadeIn : errorOf (fade T fadeInLevels 1 (PF.take 15) State.reset) = some .ambiguousFill ∧
    errorOf (fade T fadeInLevels 1 (PF ++ [0x000]) State.reset) = some .paletteRangeError ∧
    errorOf (fade T fadeInLevels 1 (PF.take 15 ++ [0x1000]) State.reset) = some .paletteRangeError ∧
    (bytesOf (fade T fadeInLevels 2 PF State.reset)).drop (29 * 24) = pkt 0x1F phBytes := by decide +kernel
/-- P0 to P2 of FD-8: the first step of a fade out, at level 14. -/
theorem test_fadeOut : (bytesOf (fade T fadeOutLevels 3 PF State.reset)).take 72 =
    pkt 0x00 [] ++
    pkt 0x1E [0x00, 0x00, 0x3B, 0x2E, 0x38, 0x00, 0x03, 0x20, 0x00, 0x0E, 0x1D, 0x37, 0x0C, 0x33, 0x2E, 0x3B] ++
    pkt 0x1F [0x39, 0x30, 0x00, 0x12, 0x0D, 0x05, 0x19, 0x38, 0x26, 0x2B, 0x33, 0x1E, 0x00, 0x00, 0x04, 0x11] := by decide

/-! ### Image scroll -/

/-- IM-1 and IM-2: one colour, and a tie that goes to the smaller index. -/
theorem test_reduce : reduce (fun _ _ => 4) = (4, 4, rep 12 0) ∧
    reduce (fun _ i => if i ≤ 2 then 5 else 3) = (3, 5, rep 12 0x38) := by decide
/-- IM-4 and IM-5: a third colour, and a tie for colour B. -/
theorem test_reduce_third :
    reduce (fun j i => if 6 * j + i < 40 then 2 else if 6 * j + i < 60 then 7 else 9) =
      (2, 7, rep 6 0 ++ [0x03] ++ rep 5 0x3F) ∧
    reduce (fun j i => if 6 * j + i < 40 then 1 else if 6 * j + i < 56 then 6 else 4) =
      (1, 4, rep 6 0 ++ [0x03] ++ rep 5 0x3F) := by decide
/-- IM-8, IM-10 and IM-12: the shape of the image is checked first. -/
theorem test_scrollImageUp_errors : errorOf (scrollImageUp T (List.replicate 13 [16]) 2 State.reset) = some .outOfBounds ∧
    errorOf (scrollImageUp T [] 2 State.reset) = some .outOfBounds ∧
    errorOf (scrollImageUp T (List.replicate 12 []) 2 State.reset) = some .outOfBounds := by decide
/-- P3 of IM-6: the tile of column 2. -/
theorem test_scrollImageUp_tile : (drawImageTile T (List.replicate 12 (rep 300 4)) 0 State.reset 2).buffer =
    pkt 0x06 [0x04, 0x04, 0x11, 0x02] := by decide

/-- IM-6: the offsets after an image of one tile row. -/
theorem test_scrollImageUp : leaves (scrollImageUp T (List.replicate 12 (rep 300 4)) 2 (screen 0)) (fun t =>
    (t.fb.vTile, t.fb.vOff) == (1, 0)) = true := by decide +kernel

/-! ### Stream -/

/-- ST-1 and ST-6. -/
theorem test_newBuffer : answers (exec .newBuffer ((screen 3).setBuffer [1])) (fun t =>
    cells t 0 0 1 == [none] && t.buffer == []) = true := by decide
/-- ST-2. -/
theorem test_getBuffer : answers (exec .getBuffer (State.reset.setBuffer (pkt 0x01 [0x03]))) (fun t =>
    t.result == some (.bytes (pkt 0x01 [0x03])) && t.buffer == pkt 0x01 [0x03]) = true := by decide
/-- SX-4 and ST-4. -/
theorem test_delayTicks : (padSlots T 3 State.reset).buffer = pkt 0x00 [] ++ pkt 0x00 [] ++ pkt 0x00 [] ∧
    (padSlots T 0 State.reset).buffer = [] := by decide
/-- SX-9: 150 packets a second. -/
theorem test_delaySeconds : execDelaySeconds 1 State.reset = execDelayTicks 150 State.reset := by rfl

/-! ### Indexer, codes and written forms -/

/-- TL-17. -/
theorem test_tilePixel : tilePixel 1 2 5 11 = (17, 23) ∧ tileOf 299 215 = (17, 49, 5, 11) := by decide
/-- The codes of R114. -/
theorem test_error_codes :
    [CommandError.invalidPayload, .outOfBounds, .paletteRangeError, .ambiguousFill].map CommandError.code = [1, 2, 3, 4] := by
  decide
/-- The example of R58 and the listing of SX-7's packet. -/
theorem test_listing : listing (.writeTile 0 0 1 2 (rep 12 0) false) = "writeTile 0, 0, 1, 2, [0x00 x 12], false" ∧
    listing (.tileNormal 1 2 0 0 (Vector.replicate 12 0)) = "TILE_NORMAL a=1 b=2 row=0 col=0 rows=[0x00 x 12]" := by decide

/-! ### Witnesses: states and operands that meet the hypotheses of the statements, each clause at a boundary value -/

/-- A reset session whose host has issued one command. -/
def issued (k : Command) : State := State.reset.setPending (.host [k])

/-- A replay of one packet from the reset framebuffer state. -/
def replaying (b : ForeignPacket) : State := State.reset.setPending (.replay [b])

/-- The command that delays one tick. -/
def delayOne : Command := ⟨.delayTicks 1, rfl⟩

/-- A packet that is well-formed whatever the open parameters are. -/
def livePacket : List Byte := packetBytes Config.live Config.NOOP (List.replicate 16 0)

theorem live_wellFormed : wellFormed Config.live livePacket = true := by
  rw [livePacket, wellFormed_packetBytes Config.live Config.NOOP (by rfl)]; rfl

theorem live_decodes : decodeSealed Config.live livePacket = .ok .noop := by
  have hm : modeOf livePacket = Config.live.modeBits := modeOf_packetBytes ..
  have hd : decode livePacket = .ok .noop := by
    have hl : livePacket.length = 24 := packetBytes_length Config.live Config.NOOP (p := List.replicate 16 0) (by rfl)
    rw [decode, if_pos hl, livePacket, codeOf_packetBytes, payloadOf_packetBytes Config.live Config.NOOP (by rfl)]
    rfl
  have hp : parityOk Config.live livePacket = true := parityOk_packetBytes Config.live Config.NOOP (by rfl)
  simp [decodeSealed, hd, hm, hp]

theorem witness_PacketInstructionRoundTrip :
    (Instr.tileXor 15 0 17 49 (Vector.replicate 12 0x3F)).isPacket = true ∧
    (Instr.tileXor 15 0 17 49 (Vector.replicate 12 0x3F)).wf = true ∧ (Instr.scrollCopy 15 2 5 2 11).wf = true := by decide

theorem witness_WellFormedPacketReencodes : wellFormed T (pkt 0x18 [0x0F, 0x25, 0x2B]) = true := by decide

/-- One packet of each row of R55's table, its fields at the ends of their ranges. -/
theorem witness_WellFormedPacketTable :
    [pkt 0x00 [], pkt 0x01 [0x0F, 0x0F], pkt 0x02 [0x0F], pkt 0x06 ([0x0F, 0x0F, 0x11, 0x31] ++ List.replicate 12 0x3F),
      pkt 0x26 [], pkt 0x14 [0x0F, 0x25, 0x2B], pkt 0x18 [], pkt 0x1E (List.replicate 16 0x3F), pkt 0x1F []].all
        (fun b => b.length == 24 && wellFormed T b) = true := by decide

theorem witness_DecodePacketRule : (pkt 0 []).length = 24 ∧ (List.replicate 23 (0 : Byte)).length ≠ 24 ∧
    (List.replicate 25 (0 : Byte)).length ≠ 24 := by decide
theorem witness_DecodeFieldsRule : (3 : BitVec 6).toNat ∉ [0, 1, 2, 6, 20, 24, 30, 31, 38] ∧
    (63 : BitVec 6).toNat ∉ [0, 1, 2, 6, 20, 24, 30, 31, 38] := by decide

theorem witness_ReservedCodesHaveNoMeaning :
    (3 ∈ [3, 4, 5] ++ List.range' 7 13 ++ [21, 22, 23] ++ [25, 26, 27, 28, 29] ++ List.range' 32 6 ++ List.range' 39 25) ∧
    (63 ∈ [3, 4, 5] ++ List.range' 7 13 ++ [21, 22, 23] ++ [25, 26, 27, 28, 29] ++ List.range' 32 6 ++ List.range' 39 25) ∧
    (List.replicate 16 (0 : Byte)).length = 16 ∧ (rep 16 255).length ≤ 16 ∧ (∀ v ∈ rep 16 255, v ≤ 255) ∧
    Instr.noop ≠ .newBuffer := by decide
theorem witness_ReservedCodesHaveNoMeaning_run :
    exec (.delayTicks 1) State.reset = .next ((padSlots Config.live 1 State.reset).setResult (some .ok)) := by rfl

/-- The nine clauses in turn. -/
theorem witness_StepRunsDecodedInstruction :
    State.reset.pending = .host [] ∧ (issued delayOne).pending = .host (delayOne :: []) ∧ IsSession (issued delayOne) ∧
    (State.reset.setPending (.replay [])).pending = .replay [] ∧
    ((replaying (.whole livePacket)).pending = .replay (.whole livePacket :: []) ∧
      decodeSealed Config.live livePacket = .ok .noop) ∧
    ((replaying (.body 2 (15 :: List.replicate 15 0))).pending = .replay (.body 2 (15 :: List.replicate 15 0) :: []) ∧
      decodeBody 2 (15 :: List.replicate 15 0) = .ok (.borderPreset 15)) ∧
    ((replaying (.whole [])).pending = .replay (.whole [] :: []) ∧ decodeSealed Config.live [] = .error .length) ∧
    ((replaying (.body 2 (16 :: List.replicate 15 0))).pending = .replay (.body 2 (16 :: List.replicate 15 0) :: []) ∧
      decodeBody 2 (16 :: List.replicate 15 0) = .error .field) ∧
    decodeTableWord 8 38 = some (.tileXor 0 0 0 0 (Vector.replicate 12 0)) :=
  ⟨rfl, rfl, ⟨_, rfl⟩, rfl, ⟨rfl, live_decodes⟩, ⟨rfl, rfl⟩, ⟨rfl, rfl⟩, ⟨rfl, rfl⟩, rfl⟩

theorem witness_ReplayStepAppliesOrRefuses :
    ((replaying (.whole livePacket)).pending = .replay (.whole livePacket :: []) ∧
      wellFormed Config.live livePacket = true) ∧
    (replaying (.whole [])).pending = .replay (.whole [] :: []) ∧ wellFormed Config.live [] = false :=
  ⟨⟨rfl, live_wellFormed⟩, rfl, rfl⟩

theorem witness_EncodePacketRule : 16 < (rep 17 0).length ∧ (∃ v ∈ [256], 255 < v) ∧
    (rep 16 255).length ≤ 16 ∧ ∀ v ∈ rep 16 255, v ≤ 255 := by decide
theorem witness_CodecLaws : (rep 16 255).length ≤ 16 ∧ ∀ v ∈ rep 16 255, v ≤ 255 := by decide

/-- The last tile. -/
theorem witness_TileNormalReplacesCells : (17 : BitVec 5).toNat ≤ 17 ∧ (49 : BitVec 6).toNat ≤ 49 := by decide
theorem witness_TileXorCombinesCells : (0 : BitVec 5).toNat ≤ 17 ∧ (49 : BitVec 6).toNat ≤ 49 := by decide
theorem witness_ScrollPresetFillsStrip : (2 : BitVec 2).toNat ≤ 2 ∧ (5 : BitVec 3).toNat ≤ 5 ∧ (1 : BitVec 2).toNat ≤ 2 ∧
    (11 : BitVec 4).toNat ≤ 11 := by decide
theorem witness_ScrollCopyWraps : (0 : BitVec 2).toNat ≤ 2 ∧ (0 : BitVec 3).toNat ≤ 5 ∧ (2 : BitVec 2).toNat ≤ 2 ∧
    (11 : BitVec 4).toNat ≤ 11 := by decide
theorem witness_OutOfRangeFieldsRefused : 17 < (18 : BitVec 5).toNat ∧ 49 < (50 : BitVec 6).toNat ∧
    (3 : BitVec 2) = 3 ∧ 5 < (6 : BitVec 3).toNat ∧ 11 < (12 : BitVec 4).toNat := by decide
theorem witness_PacketsTouchFramebufferOnly :
    ((Instr.scrollPreset 0 2 5 2 11).isPacket = true ∧ (Instr.scrollPreset 0 2 5 2 11).wf = true) ∧
    (Instr.scrollPreset 0 3 5 2 11).isPacket = true ∧ (Instr.scrollPreset 0 3 5 2 11).wf = false := by decide

theorem witness_SetScreenColorRule : 15 < 16 ∧ 15 ≤ 15 := by decide
theorem witness_SetBorderColorRule : 15 < 16 ∧ 15 ≤ 15 := by decide

/-- The four clauses: a tile outside, a colour, a pixel list in its length or in a row, and operands in range. -/
theorem witness_WriteTileRule :
    (Instr.xorBlit 17 49 15 15 (rep 12 63) ∈ tileCommands 17 49 15 15 (rep 12 63) true) ∧
    (Instr.tileBlit 17 49 15 15 (rep 12 63) ∈ tileCommands 17 49 15 15 (rep 12 63) false) ∧
    (17 < 18 ∨ 49 < 49) ∧ (17 < 17 ∨ 49 < 50) ∧ (17 ≤ 17 ∧ 49 ≤ 49 ∧ (15 < 16 ∨ 15 < 15)) ∧
    ((rep 11 63).length ≠ 12 ∨ ∃ v ∈ rep 11 63, 63 < v) ∧ ((rep 12 64).length ≠ 12 ∨ ∃ v ∈ rep 12 64, 63 < v) ∧
    ((rep 12 63).length = 12 ∧ ∀ v ∈ rep 12 63, v ≤ 63) := by decide
theorem witness_XorBlitTwiceRestores : 17 ≤ 17 ∧ 49 ≤ 49 ∧ 15 ≤ 15 ∧ 0 ≤ 15 ∧ (rep 12 63).length = 12 ∧
    ∀ v ∈ rep 12 63, v ≤ 63 := by decide
theorem witness_NormalDrawHidesXor : 0 ≤ 17 ∧ 49 ≤ 49 ∧ 15 ≤ 15 ∧ (rep 12 63).length = 12 ∧ (∀ v ∈ rep 12 63, v ≤ 63) ∧
    (rep 12 0).length = 12 ∧ ∀ v ∈ rep 12 0, v ≤ 63 := by decide

theorem witness_SetCursorRule : (49 ≤ 49 ∨ 17 ≤ 0) ∧ (49 ≤ 0 ∨ 17 ≤ 17) ∧ 48 < 49 ∧ 16 < 17 := by decide
/-- The three clauses: inside the row, at its end, and at the end of the last row. -/
theorem witness_AdvanceCursorRule : (atCursor 47 16).cursorCol.val + 1 < 49 ∧
    ((atCursor 48 15).cursorCol.val = 48 ∧ (atCursor 48 15).cursorRow.val + 1 < 17) ∧
    (atCursor 48 16).cursorCol.val = 48 ∧ (atCursor 48 16).cursorRow.val = 16 := by decide

theorem witness_TextTileRule : 255 < 256 ∧ (255 ≤ 255 ∧ (17 < 18 ∨ 49 < 0) ∧ (17 < 0 ∨ 49 < 50)) ∧ 17 ≤ 17 ∧ 49 ≤ 49 := by
  decide
/-- The clauses: a code above 255, an empty text, a newline off and on the last row, and another code. -/
theorem witness_PrintScreenRule : (∃ ch ∈ [0x41, 256], 255 < ch) ∧ (∀ ch ∈ ([] : List Nat), ch ≤ 255) ∧
    (∀ ch ∈ [0x0A, 255], ch ≤ 255) ∧ (atCursor 0 15).cursorRow.val + 1 < 17 ∧ (atCursor 0 16).cursorRow.val = 16 ∧
    255 ≠ 0x0A := by decide

theorem witness_ScrollCoarseRule : 15 < 16 ∧ 15 ≤ 15 := by decide
theorem witness_ScrollStepRule : 15 < 16 ∧ 15 ≤ 15 ∧ (Direction.left = .left ∨ Direction.left = .right) ∧ 5 < 6 ∧ 5 < 6 ∧
    (Direction.down = .up ∨ Direction.down = .down) ∧ 11 < 12 ∧ 11 < 12 := by decide
theorem witness_WrapScrollIsPeriodic : 15 ≤ 15 := by decide

/-- A session whose palette is all white. -/
def white : State := State.reset.setFb { Framebuffer.reset with palette := Vector.replicate 16 (some 0xFFF) }

/-- The clauses: a list too long, a colour too large, nothing to repeat, an `undef` to retain; then eight colours, one to
repeat, and seven entries to retain. -/
theorem witness_PaletteHalfRule : 8 < (rep 9 0).length ∧ (∃ v ∈ [0x1000], 0xFFF < v) ∧
    ((rep 0 0).length < 8 ∧ true = true ∧ (rep 0 0).length = 0) ∧
    ((rep 7 0xFFF).length < 8 ∧ (∀ v ∈ rep 7 0xFFF, v ≤ 0xFFF) ∧
      ∃ k < 8, (rep 7 0xFFF).length ≤ k ∧ entryOf State.reset (8 + k) = none) ∧
    ((rep 8 0xFFF).length = 8 ∧ ∀ v ∈ rep 8 0xFFF, v ≤ 0xFFF) ∧ 0 < (rep 1 0xFFF).length ∧
    ((rep 1 0xFFF).length ≤ 8 ∧ ∀ k < 8, (rep 1 0xFFF).length ≤ k → entryOf white (8 + k) ≠ none) := by decide
theorem witness_ScaleChannels : 0xFFF ≤ 0xFFF ∧ 15 ≤ 15 ∧ 0 < 15 := by decide
theorem witness_FadeRule : (rep 15 0).length < 16 ∧ 16 < (rep 17 0).length ∧
    ((rep 16 0x1000).length = 16 ∧ ∃ v ∈ rep 16 0x1000, 0xFFF < v) ∧
    (rep 16 0xFFF).length = 16 ∧ ∀ v ∈ rep 16 0xFFF, v ≤ 0xFFF := by decide

/-- A block of one colour, a block of two, and a block of three with a tie for the second. -/
theorem witness_ReductionRule :
    ((∀ j < 12, ∀ i < 6, (fun _ _ => 15 : Nat → Nat → Nat) j i ≤ 15) ∧ countColor (fun _ _ => 15) 15 = 72) ∧
    (∀ j < 12, ∀ i < 6, (fun _ i => i % 2 : Nat → Nat → Nat) j i = 0 ∨ (fun _ i => i % 2 : Nat → Nat → Nat) j i = 1) ∧
    countColor (fun _ i => i % 3) (reduce fun _ i => i % 3).1 ≠ 72 := by decide +kernel

/-- The clauses: no line, lines that are no whole tile row, a short line; then a pixel above 15 and an image in range. -/
theorem witness_ScrollImageRule : ([] : List (List Nat)).length = 0 ∧ (List.replicate 13 (rep 300 0)).length % 12 ≠ 0 ∧
    (∃ line ∈ List.replicate 12 (rep 299 0), line.length ≠ 300) ∧
    (0 < (List.replicate 12 (rep 300 16)).length ∧ (List.replicate 12 (rep 300 16)).length % 12 = 0 ∧
      (∀ line ∈ List.replicate 12 (rep 300 16), line.length = 300) ∧
      ∃ line ∈ List.replicate 12 (rep 300 16), ∃ v ∈ line, 15 < v) ∧
    ∀ line ∈ List.replicate 12 (rep 300 15), ∀ v ∈ line, v ≤ 15 := by decide +kernel

theorem witness_CommandsAlwaysAnswer : (Instr.delaySeconds 0).isPacket = false := by decide
theorem witness_ErrorsLeaveStateUnchanged : (Instr.setScreenColor 16).isPacket = false ∧
    exec (.setScreenColor 16) State.reset = .next (State.reset.setResult (some (.error .paletteRangeError))) ∧
    (State.reset.setResult (some (.error .paletteRangeError))).result = some (.error .paletteRangeError) := ⟨rfl, rfl, rfl⟩

theorem pending_ok (p : Pending) :
    BufferOk Config.live (State.reset.setPending p) ∧ Mirrors Config.live (State.reset.setPending p) := by
  have h : packetsOf (State.reset.setPending p) = [] := by simp [packetsOf, State.reset]
  refine ⟨⟨rfl, ?_⟩, ?_⟩
  · rw [h]; simp
  · rw [Mirrors, h]; rfl

/-- A step of a session and a step of a replay, each with the state after it. -/
theorem witness_StepKeepsPacketsWellFormed :
    (BufferOk Config.live (issued delayOne) ∧ ∃ t, step (issued delayOne) = .next t) ∧
    BufferOk Config.live (replaying (.body 2 (15 :: List.replicate 15 0))) ∧
    ∃ t, step (replaying (.body 2 (15 :: List.replicate 15 0))) = .next t :=
  ⟨⟨(pending_ok _).1, _, rfl⟩, (pending_ok _).1, _, rfl⟩
theorem witness_StepKeepsReplayLaw : BufferOk Config.live (issued delayOne) ∧ Mirrors Config.live (issued delayOne) ∧
    IsSession (issued delayOne) ∧ ∃ t, step (issued delayOne) = .next t :=
  ⟨(pending_ok _).1, (pending_ok _).2, ⟨_, rfl⟩, _, rfl⟩
theorem witness_ReplayLawFromReset : ∀ i ∈ [Instr.setScreenColor 3, .scroll .left 1 none true, .getBuffer],
    i.isPacket = false := by decide

/-- A step that appends, and `newBuffer`. -/
theorem witness_BufferIsAppendOnly :
    (exec (.delayTicks 1) State.reset = .next ((padSlots Config.live 1 State.reset).setResult (some .ok)) ∧
      Instr.delayTicks 1 ≠ .newBuffer) ∧
    exec .newBuffer white = .next (State.reset.setResult (some .ok)) := ⟨⟨rfl, by decide⟩, rfl⟩
theorem witness_CommandsEmitOnlyTheirPackets :
    exec (.delayTicks 1) State.reset = .next ((padSlots Config.live 1 State.reset).setResult (some .ok)) ∧
    Instr.delayTicks 1 ≠ .newBuffer := ⟨rfl, by decide⟩
/-- A step that changes the border, and one that changes the screen colour. -/
theorem witness_ColorRegisterWriters :
    answers (exec (.borderPreset 1) State.reset) (fun t => decide (t.fb.border ≠ State.reset.fb.border)) = true ∧
    answers (exec (.memoryPreset 1 0) State.reset) (fun t => decide (t.fb.screenColor ≠ State.reset.fb.screenColor)) = true ∧
    Instr.borderPreset 1 ≠ .newBuffer := by decide
/-- A step that changes the palette, and one that changes an offset and a counter. -/
theorem witness_PaletteAndOffsetWriters :
    answers (exec (.loadClutHigh (Vector.replicate 8 0)) State.reset)
      (fun t => decide (t.fb.palette ≠ State.reset.fb.palette)) = true ∧
    answers (exec (.scrollCopy 0 2 5 0 0) State.reset) (fun t => decide ((t.fb.hOff, t.fb.vOff, t.fb.hTile, t.fb.vTile) ≠
      (State.reset.fb.hOff, State.reset.fb.vOff, State.reset.fb.hTile, State.reset.fb.vTile))) = true := by decide
theorem witness_CursorWriters : answers (exec (.setCursor 48 16) State.reset)
    (fun t => decide (t.cursorCol ≠ State.reset.cursorCol ∨ t.cursorRow ≠ State.reset.cursorRow)) = true := by decide
/-- A command that succeeds, and one that raises an error. -/
theorem witness_SlotCounts :
    (answers (exec (.delayTicks 1) State.reset) (fun t => decide (t.result = some .ok)) = true ∧
      (Instr.delayTicks 1).isPacket = false ∧ Instr.delayTicks 1 ≠ .newBuffer) ∧
    answers (exec (.setCursor 49 0) State.reset) (fun t => decide (t.result = some (.error .outOfBounds))) = true := by decide
theorem witness_TileIndexerBijective : 17 ≤ 17 ∧ 49 ≤ 49 ∧ 5 ≤ 5 ∧ 11 ≤ 11 ∧ 299 < 300 ∧ 215 < 216 := by decide
theorem witness_BootDefinesEverything : 15 ≤ 15 ∧ 0 ≤ 15 ∧ P8.length = 8 ∧ PH.length = 8 ∧ (∀ v ∈ P8, v ≤ 0xFFF) ∧
    ∀ v ∈ PH, v ≤ 0xFFF := by decide
theorem witness_SessionsShareNothing : [State.reset, white][1]? = some white ∧
    stepSession 1 [State.reset, white] = .next [State.reset, white] := ⟨rfl, rfl⟩

end Sys2Proof.Tests
end

section
/-! The scope family (spec/00_scope.md): what one step of a session and of a replay runs, that every command answers, and
that every step of a session keeps the replay law. -/

namespace Sys2Proof.Machine

/-! ### The two invariants read the framebuffer state and the buffer only -/

section
variable (P : Params) (s : State)

@[simp] theorem bufferOk_setFb (fb : Framebuffer) : BufferOk P (s.setFb fb) ↔ BufferOk P s := .rfl
@[simp] theorem bufferOk_setPending (p : Pending) : BufferOk P (s.setPending p) ↔ BufferOk P s := .rfl
@[simp] theorem bufferOk_setResult (r : Option Result) : BufferOk P (s.setResult r) ↔ BufferOk P s := .rfl
@[simp] theorem mirrors_setPending (p : Pending) : Mirrors P (s.setPending p) ↔ Mirrors P s := .rfl
@[simp] theorem mirrors_setResult (r : Option Result) : Mirrors P (s.setResult r) ↔ Mirrors P s := .rfl

@[simp] theorem packetsOf_newSession : packetsOf (newSession s) = [] := by
  simp [packetsOf, newSession, State.reset]

theorem bufferOk_newSession : BufferOk P (newSession s) := ⟨rfl, by simp⟩

theorem mirrors_newSession : Mirrors P (newSession s) := by rw [Mirrors, packetsOf_newSession]; rfl

end

/-! ### One instruction keeps the invariants -/

section
variable {i : Instr} {s t : State}

/-- Every instruction, a packet's or a command's, keeps the buffer well-formed (R30, R78). -/
theorem exec_bufferOk (hb : BufferOk Config.live s) (h : exec i s = .next t) : BufferOk Config.live t := by
  cases exec_cases h with
  | packet fb _ => simpa using hb
  | raised e _ => simpa using hb
  | session _ => simpa using bufferOk_newSession Config.live s
  | returned b _ => simpa using hb
  | emitted u _ hu => simpa using hu.bufferOk hb

/-- A command keeps the framebuffer state the replay of the stream (R29). A packet instruction does not: it changes the
framebuffer state and appends nothing, which is why `hi` is needed. -/
theorem exec_mirrors (hi : i.isPacket = false) (hb : BufferOk Config.live s) (hm : Mirrors Config.live s)
    (h : exec i s = .next t) : Mirrors Config.live t := by
  cases exec_cases h with
  | packet fb hp => rw [hi] at hp; cases hp
  | raised e _ => simpa using hm
  | session _ => simpa using mirrors_newSession Config.live s
  | returned b _ => simpa using hm
  | emitted u _ hu => simpa using hu.mirrors hb hm

/-- A session stays a session, whatever it runs: no instruction writes `pending` (log entry 5). -/
theorem exec_isSession {rest : List Command} (h : exec i (s.setPending (.host rest)) = .next t) : IsSession t :=
  ⟨rest, exec_pending h⟩

end

/-- Settles O48, by the cases of a step: a session's step is idle or runs a command, which keeps both invariants, and
none replays a foreign packet. -/
theorem stepKeepsReplayLaw : Obligations.StepKeepsReplayLaw := by
  intro s t hb hm hs h
  cases step_cases h with
  | idle => exact ⟨hb, hm, hs⟩
  | command k rest _ hk =>
    exact ⟨exec_bufferOk (by simpa using hb) hk, exec_mirrors k.isCommand (by simpa using hb) (by simpa using hm) hk,
      exec_isSession hk⟩
  | packet b rest i hp _ _ =>
    obtain ⟨commands, hc⟩ := hs
    rw [hc] at hp
    cases hp

/-! ### Every command answers -/

/-- Every command ends in one of two ways: without a value (R11) or with bytes (R60, R110). -/
theorem exec_command {i : Instr} (s : State) (hi : i.isPacket = false) :
    (∃ r, exec i s = answer s r) ∨ ∃ r, exec i s = answerBytes s r := by
  cases i with
  | noop | memoryPreset | borderPreset | tileNormal | scrollPreset | scrollCopy | loadClutLow | loadClutHigh | tileXor =>
    cases hi
  | encodePacket instr payload => exact .inr ⟨_, exec_encodePacket instr payload s⟩
  | getBuffer => exact .inr ⟨_, exec_getBuffer s⟩
  | advanceCursor => exact .inl ⟨_, exec_advanceCursor s⟩
  | smoothScroll direction => exact .inl ⟨_, exec_smoothScroll direction s⟩
  | newBuffer => exact .inl ⟨_, exec_newBuffer s⟩
  | delayTicks n => exact .inl ⟨_, exec_delayTicks n s⟩
  | delaySeconds seconds => exact .inl ⟨_, exec_delaySeconds seconds s⟩
  | _ => exact .inl ⟨_, rfl⟩

theorem answer_answers (s : State) (r : Except CommandError State) :
    ∃ t v, answer s r = .next t ∧ t.result = some v := by
  cases r with
  | ok u => exact ⟨_, _, answer_ok s u, setResult_result ..⟩
  | error e => exact ⟨_, _, answer_error s e, setResult_result ..⟩

theorem answerBytes_answers (s : State) (r : Except CommandError (List Byte)) :
    ∃ t v, answerBytes s r = .next t ∧ t.result = some v := by
  cases r with
  | ok b => exact ⟨_, _, answerBytes_ok s b, setResult_result ..⟩
  | error e => exact ⟨_, _, answerBytes_error s e, setResult_result ..⟩

/-- Settles O44: both ways of ending a command give a next state with a result, an error's too (R113). -/
theorem commandsAlwaysAnswer : Obligations.CommandsAlwaysAnswer := by
  intro i s hi
  obtain ⟨r, hr⟩ | ⟨r, hr⟩ := exec_command s hi
  · rw [hr]; exact answer_answers s r
  · rw [hr]; exact answerBytes_answers s r

/-! ### What a step runs, by the form of `pending` -/

section
variable {s : State}

theorem step_host_nil (hp : s.pending = .host []) : step s = .next s := by simp [step, hp]

theorem step_host_cons {k : Command} {rest : List Command} (hp : s.pending = .host (k :: rest)) :
    step s = exec k.instr (s.setPending (.host rest)) := by simp [step, hp]

theorem step_replay_nil (hp : s.pending = .replay []) : step s = .next s := by simp [step, hp]

theorem step_replay_ok {b : ForeignPacket} {rest : List ForeignPacket} {i : Instr}
    (hp : s.pending = .replay (b :: rest)) (hf : fetch Config.live b = .ok i) :
    step s = exec i (s.setPending (.replay rest)) := by simp [step, hp, hf]

theorem step_replay_error {b : ForeignPacket} {rest : List ForeignPacket} {d : PacketDefect}
    (hp : s.pending = .replay (b :: rest)) (hf : fetch Config.live b = .error d) :
    step s = .refused (.notWellFormed d) := by simp [step, hp, hf]

/-- No step of a session faults or is refused, and it leaves a session (R5, R6). -/
theorem step_session (hs : IsSession s) : ∃ t, step s = .next t ∧ IsSession t := by
  obtain ⟨commands, hc⟩ := hs
  cases commands with
  | nil => exact ⟨s, step_host_nil hc, [], hc⟩
  | cons k rest =>
    obtain ⟨t, _, ht, _⟩ := commandsAlwaysAnswer k.instr (s.setPending (.host rest)) k.isCommand
    exact ⟨t, (step_host_cons hc).trans ht, exec_isSession ht⟩

end

/-! ### Words of the opcode table -/

theorem tableBytes_length (nbits w : Nat) : (tableBytes nbits w).length = 24 := by simp [tableBytes]

/-- The packet placed for a word decodes as the word's bytes do, mode and parity not looked at (log entry 14). -/
theorem fetch_tablePacket (P : Params) (nbits w : Nat) :
    fetch P (tablePacket nbits w) = decode (tableBytes nbits w) := by
  rw [decode, if_pos (tableBytes_length nbits w)]; rfl

theorem decode_of_decodeTableWord {nbits w : Nat} {i : Instr} (h : decodeTableWord nbits w = some i) :
    decode (tableBytes nbits w) = .ok i := by
  unfold decodeTableWord at h
  cases hd : decode (tableBytes nbits w) with
  | error d => rw [hd] at h; cases h
  | ok j => rw [hd] at h; cases h; rfl

/-- The very next step runs a word placed by `withFetchWord`. -/
theorem step_withFetchWord (s : State) {nbits w : Nat} {i : Instr} (h : decodeTableWord nbits w = some i) :
    step (s.withFetchWord nbits w) = exec i (s.setPending (.replay s.replayed)) :=
  step_replay_ok (setPending_pending ..) ((fetch_tablePacket _ nbits w).trans (decode_of_decodeTableWord h))

/-- Settles O8, one clause for each form of `pending`, with what the decoder says of a replay's oldest packet. -/
theorem stepRunsDecodedInstruction : Obligations.StepRunsDecodedInstruction :=
  ⟨fun _ => step_host_nil,
    fun _ k _ hp => ⟨k.isCommand, step_host_cons hp⟩,
    fun _ => step_session,
    fun _ => step_replay_nil,
    fun _ _ _ _ hp hd => step_replay_ok hp hd,
    fun _ _ _ _ _ hp hd => step_replay_ok hp hd,
    fun _ _ _ _ hp hd => step_replay_error hp hd,
    fun _ _ _ _ _ hp hd => step_replay_error hp hd,
    fun s _ _ _ h => step_withFetchWord s h⟩

end Sys2Proof.Machine
end

section
/-! The state family (spec/10_state.md): the reset state, what every step keeps of the buffer, the replay law from reset,
and which instructions write each register of the session. -/

namespace Sys2Proof.Machine

/-! ### The buffer along steps and runs -/

/-- Settles O46, by the cases of a step: idle, a command or a foreign packet, and `exec` keeps the buffer's form. -/
theorem stepKeepsPacketsWellFormed : Obligations.StepKeepsPacketsWellFormed := by
  intro s t hb h
  cases step_cases h with
  | idle => exact hb
  | command k rest _ hk => exact exec_bufferOk (by simpa using hb) hk
  | packet b rest i _ _ hi => exact exec_bufferOk (by simpa using hb) hi

theorem runAll_cons {i : Instr} {s t : State} (h : exec i s = .next t) (rest : List Instr) :
    runAll (i :: rest) s = runAll rest t := by
  simp [runAll, h]

/-- A sequence of commands runs to its end and keeps both invariants, from any state that meets them (R29, R30). -/
theorem runAll_keepsReplayLaw {commands : List Instr} (hc : ∀ i ∈ commands, i.isPacket = false) {s : State}
    (hb : BufferOk Config.live s) (hm : Mirrors Config.live s) :
    ∃ t, runAll commands s = .next t ∧ BufferOk Config.live t ∧ Mirrors Config.live t := by
  induction commands generalizing s with
  | nil => exact ⟨s, rfl, hb, hm⟩
  | cons i rest ih =>
    obtain ⟨hi, hrest⟩ := List.forall_mem_cons.1 hc
    obtain ⟨u, _, hu, _⟩ := commandsAlwaysAnswer i s hi
    rw [runAll_cons hu]
    exact ih hrest (exec_bufferOk hb hu) (exec_mirrors hi hb hm hu)

/-- A new session asked of the reset state is the reset state, so what holds of every new session holds at reset. -/
theorem newSession_reset : newSession State.reset = State.reset := rfl

theorem bufferOk_reset (P : Params) : BufferOk P State.reset := newSession_reset ▸ bufferOk_newSession P State.reset

theorem mirrors_reset (P : Params) : Mirrors P State.reset := newSession_reset ▸ mirrors_newSession P State.reset

/-- Settles O49: the reset state meets the two invariants, and every command keeps them. -/
theorem replayLawFromReset : Obligations.ReplayLawFromReset := fun _ hc =>
  runAll_keepsReplayLaw hc (bufferOk_reset _) (mirrors_reset _)

/-- Settles O50: a packet instruction, an error and returned bytes leave the buffer alone, and `Emits` only appends. -/
theorem bufferIsAppendOnly : Obligations.BufferIsAppendOnly := by
  intro i s t h
  refine ⟨fun hn => ?_, ?_⟩
  · cases exec_cases h with
    | packet fb _ => exact List.prefix_refl _
    | raised e _ => exact List.prefix_refl _
    | session hi => exact absurd hi hn
    | returned b _ => exact List.prefix_refl _
    | emitted u _ hu => exact hu.buffer
  · rintro rfl
    rw [exec_newBuffer, answer_ok] at h
    cases h
    rfl

/-! ### What changes a part of the framebuffer state -/

/-- The effect of a packet instruction on the framebuffer state, its fields taken to be in range (R67 to R76); a command
has none of its own. -/
def packetEffect : Instr → Framebuffer → Framebuffer
  | .memoryPreset color rep => applyMemoryPreset color rep
  | .borderPreset color => applyBorderPreset color
  | .tileNormal a b row col rows => applyTileNormal a b row col rows
  | .scrollPreset color hCmd hOff vCmd vOff => applyScrollPreset color hCmd hOff vCmd vOff
  | .scrollCopy color hCmd hOff vCmd vOff => applyScrollCopy color hCmd hOff vCmd vOff
  | .loadClutLow colors => applyLoadClutLow colors
  | .loadClutHigh colors => applyLoadClutHigh colors
  | .tileXor a b row col rows => applyTileXor a b row col rows
  | _ => id

section
variable {i : Instr} {s t : State}

/-- A packet instruction that answers has had its effect. -/
theorem exec_packet_fb (hi : i.isPacket = true) (h : exec i s = .next t) : t.fb = packetEffect i s.fb := by
  have hrun : ∃ ok, runPacket ok (packetEffect i) s = .next t := by
    cases i with
    | noop | memoryPreset | borderPreset | loadClutLow | loadClutHigh => exact ⟨true, h⟩
    | tileNormal a b row col rows | tileXor a b row col rows => exact ⟨tileFieldsOk row col, h⟩
    | scrollPreset color hc ho vc vo | scrollCopy color hc ho vc vo => exact ⟨scrollFieldsOk hc ho vc vo, h⟩
    | _ => cases hi
  obtain ⟨ok, hok⟩ := hrun
  obtain ⟨_, rfl⟩ := runPacket_cases hok
  rfl

/-- `newBuffer` apart, a part of the framebuffer state changes only by a packet: the packet instruction itself, or one
that the command emits. -/
theorem exec_fb_changed {α : Type} (part : Framebuffer → α) (h : exec i s = .next t) (hn : i ≠ .newBuffer)
    (hne : part t.fb ≠ part s.fb) :
    part (packetEffect i s.fb) ≠ part s.fb ∨
      ∃ code ∈ emittedCodes i, ∃ p fb, part (applyPayload code p fb) ≠ part fb := by
  cases exec_cases h with
  | packet fb hp => exact .inl (exec_packet_fb hp h ▸ hne)
  | raised e _ => exact absurd rfl hne
  | session hi => exact absurd hi hn
  | returned b _ => exact absurd rfl hne
  | emitted u _ hu =>
    right
    by_contra hno
    push Not at hno
    exact hne (show part u.fb = part s.fb from hu.fb_eq part hno)

/-! ### Which commands emit the packets that write a register (R57) -/

theorem emits_memoryPreset (h : Config.MEMORY_PRESET ∈ emittedCodes i) : ∃ n, i = .setScreenColor n := by
  cases i with
  | setScreenColor n => exact ⟨n, rfl⟩
  | _ => simp +decide [emittedCodes, eq_ite_iff] at h

theorem emits_borderPreset (h : Config.BORDER_PRESET ∈ emittedCodes i) : ∃ n, i = .setBorderColor n := by
  cases i with
  | setBorderColor n => exact ⟨n, rfl⟩
  | _ => simp +decide [emittedCodes, eq_ite_iff] at h

theorem emits_loadClut (h : Config.LOAD_CLUT_LOW ∈ emittedCodes i ∨ Config.LOAD_CLUT_HIGH ∈ emittedCodes i) :
    (∃ p d, i = .paletteLow p d) ∨ (∃ p d, i = .paletteHigh p d) ∨ (∃ n p, i = .fadeIn n p) ∨
      ∃ n p, i = .fadeOut n p := by
  cases i with
  | paletteLow p d => exact .inl ⟨p, d, rfl⟩
  | paletteHigh p d => exact .inr (.inl ⟨p, d, rfl⟩)
  | fadeIn n p => exact .inr (.inr (.inl ⟨n, p, rfl⟩))
  | fadeOut n p => exact .inr (.inr (.inr ⟨n, p, rfl⟩))
  | _ => simp +decide [emittedCodes, eq_ite_iff] at h

theorem emits_scroll (h : Config.SCROLL_PRESET ∈ emittedCodes i ∨ Config.SCROLL_COPY ∈ emittedCodes i) :
    (∃ d col st w, i = .scroll d col st w) ∨ (∃ d, i = .smoothScroll d) ∨ i = .advanceCursor ∨
      (∃ text x, i = .printScreen text x) ∨ ∃ image n, i = .scrollImageUp image n := by
  cases i with
  | scroll d col st w => exact .inl ⟨d, col, st, w, rfl⟩
  | smoothScroll d => exact .inr (.inl ⟨d, rfl⟩)
  | advanceCursor => exact .inr (.inr (.inl rfl))
  | printScreen text x => exact .inr (.inr (.inr (.inl ⟨text, x, rfl⟩)))
  | scrollImageUp image n => exact .inr (.inr (.inr (.inr ⟨image, n, rfl⟩)))
  | _ => simp +decide [emittedCodes, eq_ite_iff] at h

/-! ### What writes each register -/

/-- The scroll offsets and counters, the part of the framebuffer state that scrolls write (R21, R22). -/
def scrollPart (fb : Framebuffer) : Fin 6 × Fin 12 × Fin 50 × Fin 18 := (fb.hOff, fb.vOff, fb.hTile, fb.vTile)

theorem screenColor_writer (h : exec i s = .next t) (hn : i ≠ .newBuffer) (hne : t.fb.screenColor ≠ s.fb.screenColor) :
    (∃ n, i = .setScreenColor n) ∨ ∃ color rep, i = .memoryPreset color rep := by
  obtain hp | ⟨code, hc, p, fb, hw⟩ := exec_fb_changed Framebuffer.screenColor h hn hne
  · right
    cases i with
    | memoryPreset color rep => exact ⟨color, rep, rfl⟩
    | _ => exact absurd rfl hp
  · have hpreset : Config.MEMORY_PRESET ∈ emittedCodes i := by
      by_contra hx
      exact hw (applyPayload_screenColor (ne_of_mem_of_not_mem hc hx) p fb)
    exact .inl (emits_memoryPreset hpreset)

theorem border_writer (h : exec i s = .next t) (hn : i ≠ .newBuffer) (hne : t.fb.border ≠ s.fb.border) :
    (∃ n, i = .setBorderColor n) ∨ ∃ color, i = .borderPreset color := by
  obtain hp | ⟨code, hc, p, fb, hw⟩ := exec_fb_changed Framebuffer.border h hn hne
  · right
    cases i with
    | borderPreset color => exact ⟨color, rfl⟩
    | _ => exact absurd rfl hp
  · have hpreset : Config.BORDER_PRESET ∈ emittedCodes i := by
      by_contra hx
      exact hw (applyPayload_border (ne_of_mem_of_not_mem hc hx) p fb)
    exact .inl (emits_borderPreset hpreset)

theorem palette_writer (h : exec i s = .next t) (hn : i ≠ .newBuffer) (hne : t.fb.palette ≠ s.fb.palette) :
    (∃ cs, i = .loadClutLow cs) ∨ (∃ cs, i = .loadClutHigh cs) ∨ (∃ p d, i = .paletteLow p d) ∨
      (∃ p d, i = .paletteHigh p d) ∨ (∃ n p, i = .fadeIn n p) ∨ ∃ n p, i = .fadeOut n p := by
  obtain hp | ⟨code, hc, p, fb, hw⟩ := exec_fb_changed Framebuffer.palette h hn hne
  · cases i with
    | loadClutLow cs => exact .inl ⟨cs, rfl⟩
    | loadClutHigh cs => exact .inr (.inl ⟨cs, rfl⟩)
    | _ => exact absurd rfl hp
  · have hload : Config.LOAD_CLUT_LOW ∈ emittedCodes i ∨ Config.LOAD_CLUT_HIGH ∈ emittedCodes i := by
      by_contra hx
      obtain ⟨hl, hh⟩ := not_or.1 hx
      exact hw (applyPayload_palette (ne_of_mem_of_not_mem hc hl) (ne_of_mem_of_not_mem hc hh) p fb)
    exact .inr (.inr (emits_loadClut hload))

theorem scrollPart_writer (h : exec i s = .next t) (hn : i ≠ .newBuffer) (hne : scrollPart t.fb ≠ scrollPart s.fb) :
    (∃ col hc ho vc vo, i = .scrollPreset col hc ho vc vo) ∨ (∃ col hc ho vc vo, i = .scrollCopy col hc ho vc vo) ∨
      (∃ d col st w, i = .scroll d col st w) ∨ (∃ d, i = .smoothScroll d) ∨ i = .advanceCursor ∨
      (∃ text x, i = .printScreen text x) ∨ ∃ image n, i = .scrollImageUp image n := by
  obtain hp | ⟨code, hc, p, fb, hw⟩ := exec_fb_changed scrollPart h hn hne
  · cases i with
    | scrollPreset col hc ho vc vo => exact .inl ⟨col, hc, ho, vc, vo, rfl⟩
    | scrollCopy col hc ho vc vo => exact .inr (.inl ⟨col, hc, ho, vc, vo, rfl⟩)
    | _ => exact absurd rfl hp
  · have hscroll : Config.SCROLL_PRESET ∈ emittedCodes i ∨ Config.SCROLL_COPY ∈ emittedCodes i := by
      by_contra hx
      obtain ⟨hpre, hcopy⟩ := not_or.1 hx
      obtain ⟨hho, hvo, hht, hvt⟩ :=
        applyPayload_offsets (ne_of_mem_of_not_mem hc hpre) (ne_of_mem_of_not_mem hc hcopy) p fb
      exact hw (by simp only [scrollPart, hho, hvo, hht, hvt])
    exact .inr (.inr (emits_scroll hscroll))

/-- Outside the instructions that may move it, no instruction but `newBuffer` writes the cursor (R24). -/
theorem exec_cursor_eq (h : exec i s = .next t) (hn : i ≠ .newBuffer) (hmv : movesCursor i = false) :
    t.cursorCol = s.cursorCol ∧ t.cursorRow = s.cursorRow := by
  cases exec_cases h with
  | packet fb _ => exact ⟨rfl, rfl⟩
  | raised e _ => exact ⟨rfl, rfl⟩
  | session hi => exact absurd hi hn
  | returned b _ => exact ⟨rfl, rfl⟩
  | emitted u _ hu => exact (hmv ▸ hu).cursor_eq

theorem movesCursor_writer (h : movesCursor i = true) :
    (∃ x y, i = .setCursor x y) ∨ i = .advanceCursor ∨ ∃ text xor, i = .printScreen text xor := by
  cases i with
  | setCursor x y => exact .inl ⟨x, y, rfl⟩
  | advanceCursor => exact .inr (.inl rfl)
  | printScreen text xor => exact .inr (.inr ⟨text, xor, rfl⟩)
  | _ => cases h

end

/-- Settles O52: a changed colour register was written by its own packet, given or emitted. -/
theorem colorRegisterWriters : Obligations.ColorRegisterWriters := fun _ _ _ h hn =>
  ⟨screenColor_writer h hn, border_writer h hn⟩

/-- Settles O53: a changed palette, offset or counter was written by a palette load or a scroll packet, given or
emitted. -/
theorem paletteAndOffsetWriters : Obligations.PaletteAndOffsetWriters := fun _ _ _ h hn =>
  ⟨palette_writer h hn, scrollPart_writer h hn⟩

/-- Settles O54, by `movesCursor`: an instruction for which it is false leaves the cursor where it was. -/
theorem cursorWriters : Obligations.CursorWriters := by
  intro i s t h hn hne
  by_cases hmv : movesCursor i = true
  · exact movesCursor_writer hmv
  · obtain ⟨hcol, hrow⟩ := exec_cursor_eq h hn (Bool.eq_false_iff.2 hmv)
    exact absurd hne (by simp [hcol, hrow])

/-! ### The reset state -/

/-- Settles O47: the reset state is that of a new session. -/
theorem resetMeetsInvariants : Obligations.ResetMeetsInvariants :=
  ⟨⟨[], rfl⟩, reset_wf, bufferOk_reset _, mirrors_reset _⟩

/-- At reset every palette entry is `undef` (R28). -/
theorem entryOf_reset (k : Nat) : entryOf State.reset k = none := by
  have hpal : State.reset.fb.palette.toList = List.replicate 16 none := rfl
  rw [entryOf, hpal, List.getD_eq_getElem?_getD, List.getElem?_replicate]
  split <;> rfl

/-- Settles O57: the canvas and the palette cell by cell, the other fields by the definition of the reset state. -/
theorem resetValues : Obligations.ResetValues :=
  ⟨pixelAt_reset, rfl, rfl, entryOf_reset, rfl, rfl, rfl, rfl, rfl, rfl, rfl⟩

end Sys2Proof.Machine
end

section
/-! The encoding family (spec/30_encoding.md): what a well-formed packet is, that encoding and decoding are inverse on
well-formed packets, and which packets each instruction appends to the buffer. -/

namespace Sys2Proof

/-! ### The bytes of a payload -/

/-- A byte that fits in a field of `w` bits is read by that field without loss. -/
theorem setWidth_setWidth_of_lt {w : Nat} {x : Byte} (h : x.toNat < 2 ^ w) : (x.setWidth w).setWidth 8 = x := by
  apply BitVec.eq_of_toNat_eq
  rw [BitVec.toNat_setWidth, BitVec.toNat_setWidth, Nat.mod_eq_of_lt h, Nat.mod_eq_of_lt x.isLt]

section
variable {p : List Byte}

theorem allZero_iff : allZero p = true ↔ ∀ x ∈ p, x = 0 := by simp [allZero]

theorem take_eq_map_byteAt {n : Nat} (hn : n ≤ p.length) : p.take n = (List.range n).map (byteAt p) := by
  apply List.ext_getElem
  · simpa using hn
  · intro k hk _
    have hkp : k < p.length := by simp at hk; omega
    simp [byteAt, hkp]

/-- A payload whose bytes are 0 from byte `n` on is its first `n` bytes, zero-filled. -/
theorem pad16_map_byteAt (hl : p.length = 16) {n : Nat} (hn : n ≤ 16) (hz : allZero (p.drop n) = true) :
    pad16 ((List.range n).map (byteAt p)) = p := by
  have hzero : p.drop n = List.replicate (16 - n) 0 :=
    List.eq_replicate_iff.2 ⟨by simp [hl], allZero_iff.1 hz⟩
  rw [← take_eq_map_byteAt (by omega), pad16, List.length_take, hl, min_eq_left hn, ← hzero, List.take_append_drop]

/-- A payload is the list of its sixteen bytes. -/
theorem map_byteAt (hl : p.length = 16) : (List.range 16).map (byteAt p) = p := by
  rw [← take_eq_map_byteAt hl.ge, List.take_of_length_le hl.le]

/-- A test on every byte from byte `n` on, as a range of byte numbers. -/
theorem all_drop_iff (hl : p.length = 16) (n : Nat) (f : Byte → Bool) :
    (p.drop n).all f = true ↔ ∀ k < 16, n ≤ k → f (byteAt p k) = true := by
  have hbyte : ∀ k, ∀ h : k < p.length, p[k] = byteAt p k := fun k h => by simp [byteAt, h]
  rw [List.all_eq_true]
  constructor
  · intro h k hk hnk
    refine h _ (List.mem_iff_getElem.2 ⟨k - n, by rw [List.length_drop]; omega, ?_⟩)
    rw [List.getElem_drop, hbyte, Nat.add_sub_cancel' hnk]
  · intro h x hx
    obtain ⟨j, hj, rfl⟩ := List.mem_iff_getElem.1 hx
    rw [List.length_drop] at hj
    rw [List.getElem_drop, hbyte]
    exact h _ (by omega) (by omega)

theorem allZero_drop_iff (hl : p.length = 16) (n : Nat) :
    allZero (p.drop n) = true ↔ ∀ k < 16, n ≤ k → (byteAt p k).toNat = 0 := by
  simp only [allZero, all_drop_iff hl, beq_iff_eq, ← BitVec.toNat_inj, BitVec.ofNat_eq_ofNat, BitVec.toNat_ofNat,
    Nat.zero_mod]

/-! ### The payload constraints in numbers (R55) -/

/-- The table of R55: the nine codes with the constraint on the payload of each, and no other. -/
theorem payloadOk_iff (code : BitVec 6) (p : List Byte) : payloadOk code p = true ↔
    (code = Config.NOOP ∧ allZero p = true) ∨
    (code = Config.MEMORY_PRESET ∧ (byteAt p 0).toNat ≤ 15 ∧ (byteAt p 1).toNat ≤ 15 ∧ allZero (p.drop 2) = true) ∨
    (code = Config.BORDER_PRESET ∧ (byteAt p 0).toNat ≤ 15 ∧ allZero (p.drop 1) = true) ∨
    ((code = Config.TILE_NORMAL ∨ code = Config.TILE_XOR) ∧ tilePayloadOk p = true) ∨
    ((code = Config.SCROLL_PRESET ∨ code = Config.SCROLL_COPY) ∧ scrollPayloadOk p = true) ∨
    ((code = Config.LOAD_CLUT_LOW ∨ code = Config.LOAD_CLUT_HIGH) ∧ clutPayloadOk p = true) := by
  constructor
  · unfold payloadOk
    split_ifs <;> simp_all
  · rintro (⟨rfl, h⟩ | ⟨rfl, h⟩ | ⟨rfl, h⟩ | ⟨rfl | rfl, h⟩ | ⟨rfl | rfl, h⟩ | ⟨rfl | rfl, h⟩) <;>
      simpa +decide [payloadOk, and_assoc] using h

theorem tilePayloadOk_iff (hl : p.length = 16) : tilePayloadOk p = true ↔
    (byteAt p 0).toNat ≤ 15 ∧ (byteAt p 1).toNat ≤ 15 ∧ (byteAt p 2).toNat ≤ 17 ∧ (byteAt p 3).toNat ≤ 49 ∧
      ∀ k < 16, 4 ≤ k → (byteAt p k).toNat ≤ 63 := by
  simp only [tilePayloadOk, Bool.and_eq_true, all_drop_iff hl, decide_eq_true_eq, and_assoc]

theorem clutPayloadOk_iff (hl : p.length = 16) :
    clutPayloadOk p = true ↔ ∀ k < 16, (byteAt p k).toNat ≤ 63 := by
  simpa [clutPayloadOk] using all_drop_iff hl 0 fun x => decide (x.toNat ≤ 63)

/-- A scroll payload holds a colour, then a command and an offset in each of two bytes, every other bit 0 (R53). -/
theorem scrollPayloadOk_iff (hl : p.length = 16) : scrollPayloadOk p = true ↔
    (byteAt p 0).toNat ≤ 15 ∧
    (byteAt p 1).toNat / 64 = 0 ∧ (byteAt p 1).toNat / 16 % 4 ≤ 2 ∧ (byteAt p 1).toNat / 8 % 2 = 0 ∧
    (byteAt p 1).toNat % 8 ≤ 5 ∧
    (byteAt p 2).toNat / 64 = 0 ∧ (byteAt p 2).toNat / 16 % 4 ≤ 2 ∧ (byteAt p 2).toNat % 16 ≤ 11 ∧
    ∀ k < 16, 3 ≤ k → (byteAt p k).toNat = 0 := by
  have hdiv : ∀ x : Byte, x.toNat / 64 % 4 = x.toNat / 64 := fun x => by have := x.isLt; omega
  simp only [scrollPayloadOk, Bool.and_eq_true, decide_eq_true_eq, allZero_drop_iff hl, and_assoc, beq_iff_eq,
    ← BitVec.toNat_inj, fieldHCmd, fieldHOff, fieldVCmd, fieldVOff, BitVec.extractLsb'_toNat, BitVec.toNat_setWidth,
    Nat.shiftRight_eq_div_pow, BitVec.ofNat_eq_ofNat, BitVec.toNat_ofNat, Nat.zero_mod, Nat.reducePow, hdiv]

end

/-! ### What `decodeFields` reads, one equation per code (R64) -/

section
variable (p : List Byte)

theorem decodeFields_noop : decodeFields Config.NOOP p = .instr .noop := rfl
theorem decodeFields_memoryPreset :
    decodeFields Config.MEMORY_PRESET p = .instr (.memoryPreset (fieldColor p) (fieldSecond p)) := rfl
theorem decodeFields_borderPreset : decodeFields Config.BORDER_PRESET p = .instr (.borderPreset (fieldColor p)) := rfl
theorem decodeFields_tileNormal : decodeFields Config.TILE_NORMAL p =
    .instr (.tileNormal (fieldColor p) (fieldSecond p) (fieldRow p) (fieldCol p) (fieldRows p)) := rfl
theorem decodeFields_scrollPreset : decodeFields Config.SCROLL_PRESET p =
    .instr (.scrollPreset (fieldColor p) (fieldHCmd p) (fieldHOff p) (fieldVCmd p) (fieldVOff p)) := rfl
theorem decodeFields_scrollCopy : decodeFields Config.SCROLL_COPY p =
    .instr (.scrollCopy (fieldColor p) (fieldHCmd p) (fieldHOff p) (fieldVCmd p) (fieldVOff p)) := rfl
theorem decodeFields_loadClutLow : decodeFields Config.LOAD_CLUT_LOW p = .instr (.loadClutLow (fieldColors p)) := rfl
theorem decodeFields_loadClutHigh : decodeFields Config.LOAD_CLUT_HIGH p = .instr (.loadClutHigh (fieldColors p)) := rfl
theorem decodeFields_tileXor : decodeFields Config.TILE_XOR p =
    .instr (.tileXor (fieldColor p) (fieldSecond p) (fieldRow p) (fieldCol p) (fieldRows p)) := rfl

end

/-! ### The payloads of the packet instructions, read back -/

section
variable (a b : ColorIndex) (row : BitVec 5) (col : BitVec 6) (rows : Vector (BitVec 6) 12)

theorem tilePayloadOk_tilePayload (hwf : tileFieldsWf row col = true) :
    tilePayloadOk (tilePayload a b row col rows) = true := by
  have hbytes : tilePayload a b row col rows =
      ([a.toNat, b.toNat, row.toNat, col.toNat] ++ rows.toList.map (·.toNat)).map (BitVec.ofNat 8) := by
    simp [tilePayload, Function.comp_def]
  simp only [tileFieldsWf, Bool.and_eq_true, decide_eq_true_eq] at hwf
  rw [hbytes]
  refine tilePayloadOk_bytes hwf.1 hwf.2 (by omega) (by omega) fun v hv => ?_
  obtain ⟨r, _, rfl⟩ := List.mem_map.1 hv
  omega

theorem fieldRows_tilePayload : fieldRows (tilePayload a b row col rows) = rows := by
  apply Vector.ext
  intro j hj
  have hbyte : byteAt (tilePayload a b row col rows) (4 + j) = rows[j].setWidth 8 := by
    simp [tilePayload, byteAt, Nat.add_comm 4 j, hj]
  rw [fieldRows, tabulate_getElem _ _ _ hj, hbyte]
  simp

/-- Every field of a tile packet reads back. -/
theorem decodeFields_tilePayload :
    decodeFields Config.TILE_NORMAL (tilePayload a b row col rows) = .instr (.tileNormal a b row col rows) ∧
      decodeFields Config.TILE_XOR (tilePayload a b row col rows) = .instr (.tileXor a b row col rows) := by
  have hbytes : fieldColor (tilePayload a b row col rows) = (a.setWidth 8).setWidth 4 ∧
      fieldSecond (tilePayload a b row col rows) = (b.setWidth 8).setWidth 4 ∧
      fieldRow (tilePayload a b row col rows) = (row.setWidth 8).setWidth 5 ∧
      fieldCol (tilePayload a b row col rows) = (col.setWidth 8).setWidth 6 := ⟨rfl, rfl, rfl, rfl⟩
  simp [decodeFields_tileNormal, decodeFields_tileXor, hbytes, fieldRows_tilePayload]

end

section
variable (color : ColorIndex) (hCmd : BitVec 2) (hOff : BitVec 3) (vCmd : BitVec 2) (vOff : BitVec 4)

/-- The payload of a scroll packet is the one a scroll command builds from the same numbers (R53, R94). -/
theorem scrollPayload_eq : scrollPayload color hCmd hOff vCmd vOff =
    Machine.scrollBytes color.toNat hCmd.toNat hOff.toNat vCmd.toNat vOff.toNat := by
  have hshift : ∀ c : BitVec 2, c.setWidth 8 <<< 4 = BitVec.ofNat 8 (c.toNat <<< 4) := by decide
  simp [scrollPayload, Machine.scrollBytes, scrollByte, BitVec.ofNat_or, hshift]

section
variable (hwf : scrollFieldsWf hCmd hOff vCmd vOff = true)
include hwf

theorem scrollPayloadOk_scrollPayload :
    scrollPayloadOk (pad16 (scrollPayload color hCmd hOff vCmd vOff)) = true := by
  simp only [scrollFieldsWf, Bool.and_eq_true, decide_eq_true_eq, and_assoc] at hwf
  obtain ⟨hhc, hho, hvc, hvo⟩ := hwf
  rw [scrollPayload_eq]
  exact Machine.scrollPayloadOk_bytes (by omega) hhc hho hvc hvo

/-- Every field of a scroll packet reads back. -/
theorem decodeFields_scrollPayload :
    decodeFields Config.SCROLL_PRESET (pad16 (scrollPayload color hCmd hOff vCmd vOff)) =
        .instr (.scrollPreset color hCmd hOff vCmd vOff) ∧
      decodeFields Config.SCROLL_COPY (pad16 (scrollPayload color hCmd hOff vCmd vOff)) =
        .instr (.scrollCopy color hCmd hOff vCmd vOff) := by
  simp only [scrollFieldsWf, Bool.and_eq_true, decide_eq_true_eq, and_assoc] at hwf
  obtain ⟨hhc, hho, hvc, hvo⟩ := hwf
  have hfields := Machine.scrollBytes_fields (color := color.toNat) hhc hho hvc hvo
  simp [decodeFields_scrollPreset, decodeFields_scrollCopy, scrollPayload_eq, hfields]

end
end

section
variable (colors : Vector Color 8)

/-- The payload of a palette load is the one a palette command packs from the same numbers (R54, R99). -/
theorem clutPayload_eq : clutPayload colors = Machine.packColors (colors.toList.map (·.toNat)) := by
  have hsplit : ∀ c : Color, splitColor c = [BitVec.ofNat 8 (c.toNat >>> 6), BitVec.ofNat 8 (c.toNat &&& 0x3F)] := by
    intro c
    have hlow : c.toNat &&& 0x3F = c.toNat % 64 := Nat.and_two_pow_sub_one_eq_mod c.toNat 6
    simp only [splitColor, List.cons.injEq, ← BitVec.toNat_inj, BitVec.toNat_setWidth, BitVec.extractLsb'_toNat,
      BitVec.toNat_ofNat, hlow, Nat.shiftRight_eq_div_pow, Nat.reducePow, and_true]
    omega
  rw [clutPayload, Machine.packColors, List.flatMap_map]
  exact List.flatMap_congr fun c _ => hsplit c

theorem color_toNat_le : ∀ v ∈ colors.toList.map (·.toNat), v ≤ 0xFFF := by
  intro v hv
  obtain ⟨c, _, rfl⟩ := List.mem_map.1 hv
  omega

theorem clutPayloadOk_clutPayload : clutPayloadOk (clutPayload colors) = true := by
  rw [clutPayload_eq]
  exact Machine.clutPayloadOk_packColors (color_toNat_le colors)

theorem fieldColors_clutPayload : fieldColors (clutPayload colors) = colors := by
  rw [clutPayload_eq, Machine.fieldColors_packColors (by simp) (color_toNat_le colors)]
  apply Vector.ext
  intro k hk
  simp [hk]

end

/-! ### Payloads that meet their constraint, rebuilt from their fields -/

/-- A colour splits into the two six-bit parts it was joined from (R54). -/
theorem splitColor_joined (hi lo : BitVec 6) :
    splitColor ((hi.setWidth 12 <<< 6) ||| lo.setWidth 12) = [hi.setWidth 8, lo.setWidth 8] := by
  have hhigh : ((hi.setWidth 12 <<< 6) ||| lo.setWidth 12).extractLsb' 6 6 = hi := by
    ext i h
    simp [h, show 6 + i < 12 by omega]
  have hlow : ((hi.setWidth 12 <<< 6) ||| lo.setWidth 12).setWidth 6 = lo := by
    ext i h
    simp
  rw [splitColor, hhigh, hlow]

section
variable {p : List Byte} (hl : p.length = 16)

theorem fieldColor_setWidth (h : (byteAt p 0).toNat ≤ 15) : (fieldColor p).setWidth 8 = byteAt p 0 :=
  setWidth_setWidth_of_lt (by omega)

theorem fieldSecond_setWidth (h : (byteAt p 1).toNat ≤ 15) : (fieldSecond p).setWidth 8 = byteAt p 1 :=
  setWidth_setWidth_of_lt (by omega)

theorem scrollFieldsWf_fields (hok : scrollPayloadOk p = true) :
    scrollFieldsWf (fieldHCmd p) (fieldHOff p) (fieldVCmd p) (fieldVOff p) = true := by
  simp only [scrollPayloadOk, Bool.and_eq_true, decide_eq_true_eq] at hok
  simp [scrollFieldsWf, hok]

include hl

theorem tilePayload_fields (hok : tilePayloadOk p = true) :
    tilePayload (fieldColor p) (fieldSecond p) (fieldRow p) (fieldCol p) (fieldRows p) = p := by
  obtain ⟨ha, hb, hr, hc, hrows⟩ := (tilePayloadOk_iff hl).1 hok
  have hpx : (fieldRows p).toList.map (·.setWidth 8) = (List.range 12).map fun j => byteAt p (4 + j) := by
    rw [fieldRows, tabulate_toList, List.map_map]
    refine List.map_congr_left fun j hj => ?_
    have hj' := List.mem_range.1 hj
    have hle := hrows (4 + j) (by omega) (by omega)
    exact setWidth_setWidth_of_lt (by omega)
  have hrow : (fieldRow p).setWidth 8 = byteAt p 2 := setWidth_setWidth_of_lt (by omega)
  have hcol : (fieldCol p).setWidth 8 = byteAt p 3 := setWidth_setWidth_of_lt (by omega)
  rw [tilePayload, fieldColor_setWidth ha, fieldSecond_setWidth hb, hrow, hcol, hpx]
  exact map_byteAt hl

theorem tileFieldsWf_fields (hok : tilePayloadOk p = true) : tileFieldsWf (fieldRow p) (fieldCol p) = true := by
  obtain ⟨_, _, hr, hc, _⟩ := (tilePayloadOk_iff hl).1 hok
  simp only [tileFieldsWf, fieldRow, fieldCol, Bool.and_eq_true, decide_eq_true_eq, BitVec.toNat_setWidth]
  omega

theorem scrollPayload_fields (hok : scrollPayloadOk p = true) :
    pad16 (scrollPayload (fieldColor p) (fieldHCmd p) (fieldHOff p) (fieldVCmd p) (fieldVOff p)) = p := by
  obtain ⟨hcol, h64, _, h8, _, v64, _, _, htail⟩ := (scrollPayloadOk_iff hl).1 hok
  have hbyte1 : ∀ x : Byte, x.toNat / 64 = 0 → x.toNat / 8 % 2 = 0 →
      scrollByte ((x.extractLsb' 4 2).setWidth 8) ((x.setWidth 3).setWidth 8) = x := by decide
  have hbyte2 : ∀ x : Byte, x.toNat / 64 = 0 →
      scrollByte ((x.extractLsb' 4 2).setWidth 8) ((x.setWidth 4).setWidth 8) = x := by decide
  rw [scrollPayload, fieldColor_setWidth hcol, fieldHCmd, fieldHOff, hbyte1 _ h64 h8, fieldVCmd, fieldVOff,
    hbyte2 _ v64]
  exact pad16_map_byteAt hl (n := 3) (by decide) ((allZero_drop_iff hl 3).2 htail)

theorem clutPayload_fields (hok : clutPayloadOk p = true) : clutPayload (fieldColors p) = p := by
  have hle := (clutPayloadOk_iff hl).1 hok
  have hpair : ∀ i ∈ List.range 8, splitColor (joinColor (byteAt p (2 * i)) (byteAt p (2 * i + 1))) =
      [byteAt p (2 * i), byteAt p (2 * i + 1)] := by
    intro i hi
    have hi' := List.mem_range.1 hi
    have hhi := hle (2 * i) (by omega)
    have hlo := hle (2 * i + 1) (by omega)
    rw [joinColor, splitColor_joined, setWidth_setWidth_of_lt (by omega), setWidth_setWidth_of_lt (by omega)]
  rw [clutPayload, fieldColors, tabulate_toList, List.flatMap_map, List.flatMap_congr hpair]
  exact map_byteAt hl

end

/-! ### Encoding and decoding a packet -/

/-- `code` and `p` are the body of the packet instruction `i`: `i` encodes to them, they meet R55's constraint, and they
decode to `i`. -/
structure IsBodyOf (i : Instr) (code : BitVec 6) (p : List Byte) : Prop where
  encodes : encodeBody i = some (code, p)
  length : p.length = 16
  ok : payloadOk code p = true
  decodes : decodeFields code p = .instr i

/-- The packet of a body decodes as the body does: its mode and parity are right (R63). -/
theorem decodeSealed_packetBytes (P : Params) (code : BitVec 6) {p : List Byte} (hl : p.length = 16) :
    decodeSealed P (packetBytes P code p) = decodeBody code p := by
  rw [decodeSealed, decode, if_pos (packetBytes_length P code hl), codeOf_packetBytes, payloadOf_packetBytes P code hl]
  cases decodeBody code p with
  | error d => rfl
  | ok i => simp [modeOf_packetBytes, parityOk_packetBytes P code hl]

theorem decodeBody_reserved {code r : BitVec 6} {p : List Byte} (hl : p.length = 16)
    (hd : decodeFields code p = .reserved r) : decodeBody code p = .error (.reservedCode r) := by
  simp [decodeBody, hl, hd]

section
variable {i : Instr} {code : BitVec 6} {p : List Byte} (h : IsBodyOf i code p) (P : Params)
include h

theorem IsBodyOf.encode_eq : encode P i = some (packetBytes P code p) := by simp [encode, h.encodes]

theorem IsBodyOf.decodeSealed_eq : decodeSealed P (packetBytes P code p) = .ok i := by
  rw [decodeSealed_packetBytes P code h.length]
  simp [decodeBody, h.length, h.decodes, h.ok]

theorem IsBodyOf.wellFormed_eq : wellFormed P (packetBytes P code p) = true := by
  rw [wellFormed_packetBytes P code h.length, h.ok]

/-- Only a packet instruction has a body. -/
theorem IsBodyOf.isPacket : i.isPacket = true := by
  cases i with
  | noop | memoryPreset | borderPreset | tileNormal | scrollPreset | scrollCopy | loadClutLow | loadClutHigh | tileXor =>
    rfl
  | _ => cases h.encodes

end

/-- Every well-formed packet instruction has a body. -/
theorem exists_isBodyOf {i : Instr} (hi : i.isPacket = true) (hwf : i.wf = true) : ∃ code p, IsBodyOf i code p := by
  have hrep : ∀ n : BitVec 4, (n.setWidth 8).toNat ≤ 15 := by decide
  cases i with
  | noop => exact ⟨_, _, rfl, rfl, payloadOk_noop, rfl⟩
  | memoryPreset color rep =>
    refine ⟨_, _, rfl, rfl, ?_, ?_⟩
    · exact (payloadOk_iff ..).2 (.inr (.inl ⟨rfl, hrep color, hrep rep, rfl⟩))
    · show FieldRecord.instr (.memoryPreset ((color.setWidth 8).setWidth 4) ((rep.setWidth 8).setWidth 4)) = _
      simp
  | borderPreset color =>
    refine ⟨_, _, rfl, rfl, ?_, ?_⟩
    · exact (payloadOk_iff ..).2 (.inr (.inr (.inl ⟨rfl, hrep color, rfl⟩)))
    · show FieldRecord.instr (.borderPreset ((color.setWidth 8).setWidth 4)) = _
      simp
  | tileNormal a b row col rows =>
    exact ⟨_, _, rfl, Laws.EncodedLength.tilePayload_length a b row col rows,
      tilePayloadOk_tilePayload a b row col rows hwf, (decodeFields_tilePayload a b row col rows).1⟩
  | tileXor a b row col rows =>
    exact ⟨_, _, rfl, Laws.EncodedLength.tilePayload_length a b row col rows,
      tilePayloadOk_tilePayload a b row col rows hwf, (decodeFields_tilePayload a b row col rows).2⟩
  | scrollPreset color hCmd hOff vCmd vOff =>
    exact ⟨_, _, rfl, rfl, scrollPayloadOk_scrollPayload color hCmd hOff vCmd vOff hwf,
      (decodeFields_scrollPayload color hCmd hOff vCmd vOff hwf).1⟩
  | scrollCopy color hCmd hOff vCmd vOff =>
    exact ⟨_, _, rfl, rfl, scrollPayloadOk_scrollPayload color hCmd hOff vCmd vOff hwf,
      (decodeFields_scrollPayload color hCmd hOff vCmd vOff hwf).2⟩
  | loadClutLow colors =>
    refine ⟨_, _, rfl, Laws.EncodedLength.clutPayload_length colors, clutPayloadOk_clutPayload colors, ?_⟩
    rw [decodeFields_loadClutLow, fieldColors_clutPayload]
  | loadClutHigh colors =>
    refine ⟨_, _, rfl, Laws.EncodedLength.clutPayload_length colors, clutPayloadOk_clutPayload colors, ?_⟩
    rw [decodeFields_loadClutHigh, fieldColors_clutPayload]
  | _ => cases hi

/-- Every payload that meets its instruction's constraint is the body of a well-formed packet instruction. -/
theorem exists_isBodyOf_of_payloadOk {code : BitVec 6} {p : List Byte} (hl : p.length = 16)
    (hok : payloadOk code p = true) : ∃ i, IsBodyOf i code p ∧ i.wf = true := by
  have hbody : ∀ i, encodeBody i = some (code, p) → decodeFields code p = .instr i → IsBodyOf i code p :=
    fun i he hd => ⟨he, hl, hok, hd⟩
  obtain ⟨rfl, hz⟩ | ⟨rfl, ha, hb, hz⟩ | ⟨rfl, ha, hz⟩ | ⟨hcode, ht⟩ | ⟨hcode, hs⟩ | ⟨hcode, hc⟩ :=
    (payloadOk_iff code p).1 hok
  · refine ⟨_, hbody _ ?_ (decodeFields_noop p), rfl⟩
    rw [encodeBody, ← pad16_map_byteAt hl (Nat.zero_le 16) hz]
    rfl
  · refine ⟨_, hbody _ ?_ (decodeFields_memoryPreset p), rfl⟩
    rw [encodeBody, fieldColor_setWidth ha, fieldSecond_setWidth hb]
    exact congrArg _ (congrArg _ (pad16_map_byteAt hl (n := 2) (by decide) hz))
  · refine ⟨_, hbody _ ?_ (decodeFields_borderPreset p), rfl⟩
    rw [encodeBody, fieldColor_setWidth ha]
    exact congrArg _ (congrArg _ (pad16_map_byteAt hl (n := 1) (by decide) hz))
  · have hwf := tileFieldsWf_fields hl ht
    obtain rfl | rfl := hcode
    · exact ⟨_, hbody _ (by rw [encodeBody, tilePayload_fields hl ht]) (decodeFields_tileNormal p), hwf⟩
    · exact ⟨_, hbody _ (by rw [encodeBody, tilePayload_fields hl ht]) (decodeFields_tileXor p), hwf⟩
  · have hwf := scrollFieldsWf_fields hs
    obtain rfl | rfl := hcode
    · exact ⟨_, hbody _ (by rw [encodeBody, scrollPayload_fields hl hs]) (decodeFields_scrollPreset p), hwf⟩
    · exact ⟨_, hbody _ (by rw [encodeBody, scrollPayload_fields hl hs]) (decodeFields_scrollCopy p), hwf⟩
  · obtain rfl | rfl := hcode
    · exact ⟨_, hbody _ (by rw [encodeBody, clutPayload_fields hl hc]) (decodeFields_loadClutLow p), rfl⟩
    · exact ⟨_, hbody _ (by rw [encodeBody, clutPayload_fields hl hc]) (decodeFields_loadClutHigh p), rfl⟩

/-- A well-formed packet has 24 bytes, the right mode and parity, and a payload that meets its constraint (R55). -/
theorem wellFormed_iff (P : Params) (b : List Byte) : wellFormed P b = true ↔
    b.length = 24 ∧ modeOf b = P.modeBits ∧ parityOk P b = true ∧ payloadOk (codeOf b) (payloadOf b) = true := by
  simp only [wellFormed, Bool.and_eq_true, beq_iff_eq, and_assoc]

theorem payloadOf_length {b : List Byte} (hl : b.length = 24) : (payloadOf b).length = 16 := by simp [payloadOf, hl]

/-- Settles O1: the packet of an instruction's body is well-formed and decodes as the body does. -/
theorem packetInstructionRoundTrip : Obligations.PacketInstructionRoundTrip := by
  intro P i hi hwf
  obtain ⟨code, p, h⟩ := exists_isBodyOf hi hwf
  exact ⟨_, h.encode_eq P, packetBytes_length P code h.length, h.wellFormed_eq P, h.decodeSealed_eq P⟩

/-- Settles O2: a well-formed packet is built from its own code and payload, which are the body of an instruction. -/
theorem wellFormedPacketReencodes : Obligations.WellFormedPacketReencodes := by
  intro P b hb
  obtain ⟨hl, hmode, hparity, hok⟩ := (wellFormed_iff P b).1 hb
  obtain ⟨i, h, hwf⟩ := exists_isBodyOf_of_payloadOk (payloadOf_length hl) hok
  have hself := packetBytes_of_parts hl hmode hparity
  exact ⟨i, hself ▸ h.decodeSealed_eq P, h.isPacket, hwf, hself ▸ h.encode_eq P⟩

/-! ### Well-formed packets in numbers -/

theorem byteAt_payloadOf (b : List Byte) {k : Nat} (hk : k < 16) : byteAt (payloadOf b) k = b.getD (k + 1) 0 := by
  simp [byteAt, payloadOf, List.getD_eq_getElem?_getD, hk]

theorem modeOf_eq_iff (P : Params) (b : List Byte) :
    modeOf b = P.modeBits ↔ (b.getD 0 0).toNat / 64 = P.modeBits.toNat := by
  have hlt := (b.getD 0 0).isLt
  rw [← BitVec.toNat_inj, modeOf, BitVec.extractLsb'_toNat, Nat.shiftRight_eq_div_pow, byteAt,
    Nat.mod_eq_of_lt (by omega)]

theorem parityOk_iff (P : Params) {b : List Byte} (hl : b.length = 24) :
    parityOk P b = true ↔ b.drop 17 = (P.parity (b.getD 0 0) ((b.drop 1).take 16)).toList := by
  rw [parityOk, beq_iff_eq, List.take_of_length_le (by simp [hl])]
  rfl

theorem codeOf_eq_iff (b : List Byte) (code : BitVec 6) : codeOf b = code ↔ (b.getD 0 0).toNat % 64 = code.toNat := by
  rw [← BitVec.toNat_inj, codeOf, BitVec.toNat_setWidth]
  rfl

/-- Settles O3: R55's table for the code and the payload of the packet, each row in numbers. -/
theorem wellFormedPacketTable : Obligations.WellFormedPacketTable := by
  intro P b hl p code
  have hp : ∀ k < 16, (byteAt (payloadOf b) k).toNat = p k := fun k hk => by rw [byteAt_payloadOf b hk]
  have hlp := payloadOf_length hl
  have hz : allZero (payloadOf b) = true ↔ ∀ k < 16, (byteAt (payloadOf b) k).toNat = 0 := by
    simpa using allZero_drop_iff hlp 0
  rw [wellFormed_iff, payloadOk_iff, tilePayloadOk_iff hlp, scrollPayloadOk_iff hlp, clutPayloadOk_iff hlp, hz,
    allZero_drop_iff hlp, allZero_drop_iff hlp, modeOf_eq_iff, parityOk_iff P hl]
  simp +contextual only [hl, true_and, codeOf_eq_iff, hp, hp 0 (by decide), hp 1 (by decide), hp 2 (by decide),
    hp 3 (by decide)]
  rfl

end Sys2Proof

namespace Sys2Proof.Machine

/-! ### The packets an instruction appends -/

/-- Settles O51: the one ending that changes the buffer emits well-formed packets of the command's row (R57, R78). -/
theorem commandsEmitOnlyTheirPackets : Obligations.CommandsEmitOnlyTheirPackets := by
  intro i s t h hn
  cases exec_cases h with
  | packet fb _ => exact ⟨[], by simp, by simp⟩
  | raised e _ => exact ⟨[], by simp, by simp⟩
  | session hi => exact absurd hi hn
  | returned b _ => exact ⟨[], by simp, by simp⟩
  | emitted u _ hu => exact hu.packets

/-! ### Reserved codes (R48) -/

/-- The nine codes of R47; the other 55 are reserved. -/
def packetCodes : List (BitVec 6) :=
  [Config.NOOP, Config.MEMORY_PRESET, Config.BORDER_PRESET, Config.TILE_NORMAL, Config.SCROLL_PRESET,
    Config.SCROLL_COPY, Config.LOAD_CLUT_LOW, Config.LOAD_CLUT_HIGH, Config.TILE_XOR]

theorem mem_packetCodes_of_payloadOk {code : BitVec 6} {p : List Byte} (h : payloadOk code p = true) :
    code ∈ packetCodes := by
  obtain ⟨rfl, _⟩ | ⟨rfl, _⟩ | ⟨rfl, _⟩ | ⟨rfl | rfl, _⟩ | ⟨rfl | rfl, _⟩ | ⟨rfl | rfl, _⟩ :=
    (payloadOk_iff code p).1 h <;> decide

theorem mem_packetCodes_of_wellFormed {P : Params} {b : List Byte} (h : wellFormed P b = true) :
    codeOf b ∈ packetCodes :=
  mem_packetCodes_of_payloadOk ((wellFormed_iff P b).1 h).2.2.2

theorem decodeFields_reserved {code : BitVec 6} (h : code ∉ packetCodes) (p : List Byte) :
    decodeFields code p = .reserved code := by
  simp only [packetCodes, List.mem_cons, not_or] at h
  simp [decodeFields, h]

/-- `encodePacket` returns the packet of any code, reserved or not (R60). -/
theorem exec_encodePacket_bytes (n : Nat) {payload : List Nat} (s : State) (hl : payload.length ≤ 16)
    (hv : ∀ v ∈ payload, v ≤ 255) :
    exec (.encodePacket n payload) s = .next (s.setResult (some (.bytes
      (packetBytes Config.live (BitVec.ofNat 6 n) (pad16 (payload.map (BitVec.ofNat 8))))))) := by
  have hcheck : checkPayload payload = .ok () := by
    rw [checkPayload, if_neg (by omega), if_pos (by simpa using hv)]
  rw [exec_encodePacket, encodePacket, hcheck]
  rfl

/-- Settles O7: the codes listed are none of the nine, and only a packet of the nine is well-formed, decodes or is
emitted. -/
theorem reservedCodesHaveNoMeaning : Obligations.ReservedCodesHaveNoMeaning := by
  intro n hn
  have hreserved : BitVec.ofNat 6 n ∉ packetCodes := by revert n; decide
  refine ⟨fun P p hp => ⟨?_, ?_⟩, fun payload s hl hv => ?_, fun i s t h hi => ?_⟩
  · rw [wellFormed_packetBytes P _ hp, Bool.eq_false_iff]
    exact mt mem_packetCodes_of_payloadOk hreserved
  · rw [decodeSealed_packetBytes P _ hp, decodeBody_reserved hp (decodeFields_reserved hreserved p)]
  · exact ⟨_, exec_encodePacket_bytes n s hl hv, codeOf_packetBytes ..⟩
  · obtain ⟨bs, hbuf, hbs⟩ := commandsEmitOnlyTheirPackets i s t h hi
    refine ⟨bs, hbuf, fun b hb => ?_⟩
    have hwf := (hbs b hb).1
    exact ⟨((wellFormed_iff _ b).1 hwf).1, ne_of_mem_of_not_mem (mem_packetCodes_of_wellFormed hwf) hreserved⟩

/-! ### Pseudo-commands (R59) -/

/-- A character code that passes its check is drawn by `writeTile` (R91). -/
theorem textTile_eq_writeTile (P : Params) {ch : Nat} (h : ch ≤ 255) (x y : Nat) (xor : Bool) (s : State) :
    textTile P ch x y xor s =
      writeTile P (y + Config.TEXT_ROW0) (x + Config.TEXT_COL0) Config.TEXT_BG Config.TEXT_FG (glyphRows P ch) xor
        s := by
  rw [textTile, checkChar, if_neg (by omega)]

/-- Settles O56, by the four pseudo-commands; any other instruction is its own expansion. -/
theorem pseudoCommandsExpand : Obligations.PseudoCommandsExpand := by
  intro i s
  cases i with
  | textTile ch x y xor =>
    rw [expandPseudo]
    split
    · rename_i hch
      rw [exec_writeTile, exec_textTile, textTile_eq_writeTile _ hch]
    · rfl
  | tileBlit row col a b px => rw [expandPseudo, exec_writeTile, exec_tileBlit]
  | xorBlit row col a b px => rw [expandPseudo, exec_writeTile, exec_xorBlit]
  | delaySeconds seconds => rw [expandPseudo, exec_delayTicks, exec_delaySeconds]
  | _ => rfl

/-! ### Written-out packets -/

/-- Settles O6: the decoder runs on each of the nine packets. -/
theorem specWordsDecode : Obligations.SpecWordsDecode := by
  refine ⟨?_, ?_, ?_, ?_, ?_, ?_, ?_, ?_, ?_⟩ <;> decide

end Sys2Proof.Machine
end

section
/-! The codec family (spec/40_packet_codec.md): what the codec reads and writes in numbers, what a packet instruction
does to the framebuffer state and when it is refused, and what each of the nine leaves at every cell and register. -/

namespace Sys2Proof

/-! ### Bit fields as numbers (R63, R64) -/

theorem extractLsb'_eq_ofNat_div (x : Byte) (lo w : Nat) : x.extractLsb' lo w = BitVec.ofNat w (x.toNat / 2 ^ lo) := by
  rw [← Nat.shiftRight_eq_div_pow]; rfl

/-- A colour is its high six bits and then its low six (R35, R54). -/
theorem joinColor_toNat (hi lo : Byte) : (joinColor hi lo).toNat = 64 * (hi.toNat % 64) + lo.toNat % 64 := by
  have hjoin : ∀ h l : BitVec 6, ((h.setWidth 12 <<< 6) ||| l.setWidth 12).toNat = 64 * h.toNat + l.toNat := by decide
  simp [joinColor, hjoin]

section
variable (p : List Byte)

theorem fieldColor_eq : fieldColor p = BitVec.ofNat 4 (p.getD 0 0).toNat := (BitVec.ofNat_toNat ..).symm
theorem fieldSecond_eq : fieldSecond p = BitVec.ofNat 4 (p.getD 1 0).toNat := (BitVec.ofNat_toNat ..).symm
theorem fieldRow_eq : fieldRow p = BitVec.ofNat 5 (p.getD 2 0).toNat := (BitVec.ofNat_toNat ..).symm
theorem fieldCol_eq : fieldCol p = BitVec.ofNat 6 (p.getD 3 0).toNat := (BitVec.ofNat_toNat ..).symm
theorem fieldHCmd_eq : fieldHCmd p = BitVec.ofNat 2 ((p.getD 1 0).toNat / 16) := extractLsb'_eq_ofNat_div ..
theorem fieldHOff_eq : fieldHOff p = BitVec.ofNat 3 (p.getD 1 0).toNat := (BitVec.ofNat_toNat ..).symm
theorem fieldVCmd_eq : fieldVCmd p = BitVec.ofNat 2 ((p.getD 2 0).toNat / 16) := extractLsb'_eq_ofNat_div ..
theorem fieldVOff_eq : fieldVOff p = BitVec.ofNat 4 (p.getD 2 0).toNat := (BitVec.ofNat_toNat ..).symm

theorem fieldRows_toNat {j : Nat} (h : j < 12) : (fieldRows p)[j].toNat = (p.getD (4 + j) 0).toNat % 64 := by
  rw [fieldRows, tabulate_getElem _ _ _ h, BitVec.toNat_setWidth]; rfl

theorem fieldColors_toNat {i : Nat} (h : i < 8) :
    (fieldColors p)[i].toNat = 64 * ((p.getD (2 * i) 0).toNat % 64) + (p.getD (2 * i + 1) 0).toNat % 64 := by
  rw [fieldColors, tabulate_getElem _ _ _ h, joinColor_toNat]; rfl

end

/-- Settles O5, by the equation of `decodeFields` at each code and the number that each field is. -/
theorem decodeFieldsRule : Obligations.DecodeFieldsRule := by
  intro p n
  simp only [n, ← fieldColor_eq, ← fieldSecond_eq, ← fieldRow_eq, ← fieldCol_eq, ← fieldHCmd_eq, ← fieldHOff_eq,
    ← fieldVCmd_eq, ← fieldVOff_eq]
  refine ⟨decodeFields_noop p, decodeFields_memoryPreset p, decodeFields_borderPreset p,
    ⟨fieldRows p, fun j h => fieldRows_toNat p h, decodeFields_tileNormal p, decodeFields_tileXor p⟩,
    decodeFields_scrollPreset p, decodeFields_scrollCopy p,
    ⟨fieldColors p, fun i h => fieldColors_toNat p h, decodeFields_loadClutLow p, decodeFields_loadClutHigh p⟩,
    fun code hcode => Machine.decodeFields_reserved ?_ p⟩
  intro hmem
  exact hcode (List.mem_map_of_mem (f := BitVec.toNat) hmem)

/-! ### The parts of a packet as numbers (R63) -/

theorem modeOf_eq (b : List Byte) : modeOf b = BitVec.ofNat 2 ((b.getD 0 0).toNat / 64) := extractLsb'_eq_ofNat_div ..

theorem codeOf_eq (b : List Byte) : codeOf b = BitVec.ofNat 6 ((b.getD 0 0).toNat % 64) :=
  (codeOf_eq_iff b _).2 (by simp)

/-- Settles O4: the definition on either side of its test of the length, each part as a number. -/
theorem decodePacketRule : Obligations.DecodePacketRule := by
  refine fun P b => ⟨fun hl => if_neg hl, fun hl => ?_⟩
  have hparity : parityOk P b = decide (b.drop 17 = (P.parity (b.getD 0 0) ((b.drop 1).take 16)).toList) := by
    rw [Bool.eq_iff_iff, decide_eq_true_iff, parityOk_iff P hl]
  rw [decodePacket, if_pos hl, modeOf_eq, codeOf_eq, hparity, payloadOf]

/-- Byte 0 in numbers (R46, R60). -/
theorem byte0_ofNat (P : Params) (n : Nat) :
    byte0 P (BitVec.ofNat 6 n) = BitVec.ofNat 8 (64 * P.modeBits.toNat + n % 64) := by
  have hjoin : ∀ (m : BitVec 2) (c : BitVec 6),
      ((m.setWidth 8 <<< 6) ||| c.setWidth 8 : Byte) = BitVec.ofNat 8 (64 * m.toNat + c.toNat) := by decide
  rw [byte0, hjoin, BitVec.toNat_ofNat]

/-- A code is masked to 6 bits (R60). -/
theorem ofNat_mod_code (n : Nat) : BitVec.ofNat 6 (n % 64) = BitVec.ofNat 6 n := by
  simp [← BitVec.toNat_inj]

/-- The operand of `encodePacket` as payload bytes, zero-filled (R10, R60). -/
theorem pad16_map_ofNat (payload : List Nat) : pad16 (payload.map (BitVec.ofNat 8)) =
    payload.map (BitVec.ofNat 8) ++ List.replicate (16 - payload.length) 0 := by
  rw [pad16, List.length_map]

/-! ### Decoding and well-formedness (R55, R63) -/

theorem payloadOk_of_decodeBody {code : BitVec 6} {p : List Byte} {i : Instr} (h : decodeBody code p = .ok i) :
    payloadOk code p = true := by
  unfold decodeBody at h
  split at h
  · split at h
    · cases h
    · split_ifs at h with hok
      exact hok
  · cases h

/-- Only a well-formed packet decodes with its mode and parity checked. -/
theorem wellFormed_of_decodeSealed {P : Params} {b : List Byte} {i : Instr} (h : decodeSealed P b = .ok i) :
    wellFormed P b = true := by
  unfold decodeSealed at h
  split at h
  · cases h
  · rename_i j hdecode
    split_ifs at h with hmode hparity
    unfold decode at hdecode
    split_ifs at hdecode with hl
    exact (wellFormed_iff P b).2 ⟨hl, hmode, hparity, payloadOk_of_decodeBody hdecode⟩

end Sys2Proof

namespace Sys2Proof.Machine

/-! ### The codec command (R60, R78) -/

theorem checkPayload_ok {payload : List Nat} (hl : payload.length ≤ 16) (hv : ∀ v ∈ payload, v ≤ 255) :
    checkPayload payload = .ok () := by
  rw [checkPayload, if_neg (by omega), if_pos (by simpa using hv)]

theorem checkPayload_error {payload : List Nat} (h : 16 < payload.length ∨ ∃ v ∈ payload, 255 < v) :
    checkPayload payload = .error .invalidPayload := by
  rw [checkPayload]
  split_ifs with hl hv
  · rfl
  · simp only [List.all_eq_true, decide_eq_true_eq] at hv
    obtain h | ⟨v, hmem, h⟩ := h
    · exact absurd h hl
    · exact absurd (hv v hmem) (by omega)
  · rfl

theorem encodePacket_ok (P : Params) (n : Nat) {payload : List Nat} (hl : payload.length ≤ 16)
    (hv : ∀ v ∈ payload, v ≤ 255) :
    encodePacket P n payload = .ok (packetBytes P (BitVec.ofNat 6 n) (pad16 (payload.map (BitVec.ofNat 8)))) := by
  rw [encodePacket, checkPayload_ok hl hv]

/-- Settles O10: a payload fails a check, or passes both and is encoded; either answer writes the result alone. -/
theorem encodePacketRule : Obligations.EncodePacketRule := by
  refine fun n payload s => ⟨fun h => ?_, fun hl hv => ?_⟩
  · rw [exec_encodePacket, encodePacket, checkPayload_error h]
    rfl
  · rw [exec_encodePacket_bytes n s hl hv, packetBytes, byte0_ofNat, pad16_map_ofNat]
    rfl

/-- Settles O11: masking and zero-filling give the same code and payload, and a built packet reads back as its parts. -/
theorem codecLaws : Obligations.CodecLaws := by
  intro P n payload hl hv
  have hlen : (pad16 (payload.map (BitVec.ofNat 8))).length = 16 := pad16_length (by simpa using hl)
  have hb := packetBytes_length P (BitVec.ofNat 6 n) hlen
  refine ⟨_, encodePacket_ok P n hl hv, hb, ?_, ?_, ?_⟩
  · rw [encodePacket_ok P _ hl hv, ofNat_mod_code]
  · have hfill : (payload ++ List.replicate (16 - payload.length) 0).map (BitVec.ofNat 8) =
        pad16 (payload.map (BitVec.ofNat 8)) := by simp [pad16]
    have hvfill : ∀ v ∈ payload ++ List.replicate (16 - payload.length) 0, v ≤ 255 := by
      intro v hmem
      obtain h | h := List.mem_append.1 hmem
      · exact hv v h
      · simp [List.eq_of_mem_replicate h]
    rw [encodePacket_ok P n (by simp; omega) hvfill, hfill, pad16_of_length hlen]
  · rw [decodePacket, if_pos hb, modeOf_packetBytes, codeOf_packetBytes, payloadOf_packetBytes P _ hlen,
      parityOk_packetBytes P _ hlen, pad16_map_ofNat]

/-! ### What a packet instruction does (R66, R77) -/

theorem tileFieldsOk_eq_wf (row : BitVec 5) (col : BitVec 6) : tileFieldsOk row col = tileFieldsWf row col :=
  Bool.decide_and ..

theorem scrollFieldsOk_eq_wf (hCmd : BitVec 2) (hOff : BitVec 3) (vCmd : BitVec 2) (vOff : BitVec 4) :
    scrollFieldsOk hCmd hOff vCmd vOff = scrollFieldsWf hCmd hOff vCmd vOff := by
  simp [scrollFieldsOk, scrollFieldsWf, Bool.and_assoc]

section
variable (i : Instr) (hi : i.isPacket = true)
include hi

/-- The check of a packet instruction's meaning is its well-formedness, and its effect is `packetEffect`. -/
theorem exec_packet (s : State) : exec i s = runPacket i.wf (packetEffect i) s := by
  cases i with
  | noop | memoryPreset | borderPreset | loadClutLow | loadClutHigh => rfl
  | tileNormal a b row col rows => rw [exec_tileNormal, tileFieldsOk_eq_wf]; rfl
  | tileXor a b row col rows => rw [exec_tileXor, tileFieldsOk_eq_wf]; rfl
  | scrollPreset color hc ho vc vo => rw [exec_scrollPreset, scrollFieldsOk_eq_wf]; rfl
  | scrollCopy color hc ho vc vo => rw [exec_scrollCopy, scrollFieldsOk_eq_wf]; rfl
  | _ => cases hi

theorem exec_packet_of_wf (hwf : i.wf = true) (s : State) : exec i s = .next (s.setFb (packetEffect i s.fb)) := by
  rw [exec_packet i hi, hwf, runPacket_true]

theorem exec_packet_of_not_wf (hwf : i.wf = false) (s : State) : exec i s = .refused (.notWellFormed .field) := by
  rw [exec_packet i hi, hwf, runPacket_false]

end

/-- Settles O22, by the two answers of a packet instruction. -/
theorem packetsTouchFramebufferOnly : Obligations.PacketsTouchFramebufferOnly := fun i s hi =>
  ⟨fun hwf => ⟨_, exec_packet_of_wf i hi hwf s⟩, fun hwf => exec_packet_of_not_wf i hi hwf s⟩

theorem tileFieldsWf_iff (row : BitVec 5) (col : BitVec 6) :
    tileFieldsWf row col = true ↔ row.toNat ≤ 17 ∧ col.toNat ≤ 49 := by
  simp [tileFieldsWf]

theorem scrollFieldsWf_iff (hCmd : BitVec 2) (hOff : BitVec 3) (vCmd : BitVec 2) (vOff : BitVec 4) :
    scrollFieldsWf hCmd hOff vCmd vOff = true ↔
      hCmd.toNat ≤ 2 ∧ hOff.toNat ≤ 5 ∧ vCmd.toNat ≤ 2 ∧ vOff.toNat ≤ 11 := by
  simp [scrollFieldsWf, and_assoc]

/-- Settles O21: a field out of range makes the instruction ill-formed. -/
theorem outOfRangeFieldsRefused : Obligations.OutOfRangeFieldsRefused := by
  refine ⟨fun a b row col rows s h => ?_, fun color hCmd hOff vCmd vOff s h => ?_⟩
  · have hwf : tileFieldsWf row col = false := by
      rw [Bool.eq_false_iff, ne_eq, tileFieldsWf_iff]; omega
    exact ⟨exec_packet_of_not_wf (.tileNormal a b row col rows) rfl hwf s,
      exec_packet_of_not_wf (.tileXor a b row col rows) rfl hwf s⟩
  · have hwf : scrollFieldsWf hCmd hOff vCmd vOff = false := by
      rw [Bool.eq_false_iff, ne_eq, scrollFieldsWf_iff]; bv_omega
    exact ⟨exec_packet_of_not_wf (.scrollPreset color hCmd hOff vCmd vOff) rfl hwf s,
      exec_packet_of_not_wf (.scrollCopy color hCmd hOff vCmd vOff) rfl hwf s⟩

/-! ### The replay of a packet (R66, R77) -/

/-- `Apply`'s dispatch on a code has the effect of the instruction the payload decodes to. -/
theorem applyPayload_eq_packetEffect {code : BitVec 6} {p : List Byte} {i : Instr} (h : decodeFields code p = .instr i)
    (fb : Framebuffer) : applyPayload code p fb = packetEffect i fb := by
  unfold decodeFields at h
  unfold applyPayload
  split_ifs at h ⊢ <;> cases h <;> rfl

/-- Settles O9: a packet decodes exactly when it is well-formed, and then `Apply` and `exec` have the same effect. -/
theorem replayStepAppliesOrRefuses : Obligations.ReplayStepAppliesOrRefuses := by
  refine fun s b rest hp => ⟨fun hb => ⟨by simp [applyPacket, hb], ?_⟩, fun hb => ?_⟩
  · cases hd : decodeSealed Config.live b with
    | error d => exact ⟨d, step_replay_error hp hd⟩
    | ok i => exact absurd (wellFormed_of_decodeSealed hd) (by simp [hb])
  · obtain ⟨hl, hmode, hparity, hok⟩ := (wellFormed_iff _ b).1 hb
    obtain ⟨i, hbody, hwf⟩ := exists_isBodyOf_of_payloadOk (payloadOf_length hl) hok
    have hdecode := hbody.decodeSealed_eq Config.live
    rw [packetBytes_of_parts hl hmode hparity] at hdecode
    have hexec := exec_packet_of_wf i hbody.isPacket hwf (s.setPending (.replay rest))
    refine ⟨i, packetEffect i s.fb, hbody.decodes, ?_, hexec, (step_replay_ok hp hdecode).trans hexec⟩
    rw [applyPacket, if_pos hb, applyPayload_eq_packetEffect hbody.decodes]

/-! ### The presets (R67 to R69) -/

/-- Settles O12: NOOP has no effect. -/
theorem noopChangesNothing : Obligations.NoopChangesNothing := exec_packet_of_wf .noop rfl rfl

/-- Settles O14: the effect of BORDER_PRESET is the border alone. -/
theorem borderPresetSetsBorder : Obligations.BorderPresetSetsBorder := fun color =>
  exec_packet_of_wf (.borderPreset color) rfl rfl

/-- Settles O13: a canvas built from a constant reads as that constant at every cell. -/
theorem memoryPresetFillsCanvas : Obligations.MemoryPresetFillsCanvas := by
  refine fun color rep s => ⟨_, exec_packet_of_wf (.memoryPreset color rep) rfl rfl s, fun y x hy hx => ?_, rfl⟩
  exact (pixelAt_canvasOf _ y x).trans (if_pos ⟨hy, hx⟩)

/-! ### The tile packets (R70, R71) -/

theorem tileColor_eq (a b : ColorIndex) (rows : Vector (BitVec 6) 12) (i : Nat) {j : Nat} (h : j < 12) :
    tileColor a b rows i j = if rows[j].getLsbD (5 - i) then b else a := by
  simp [tileColor, pixelBit, List.getD_eq_getElem?_getD, h]

/-- What a tile write leaves at the cell at column offset `i` and line offset `j` of tile `(r, c)` (R79, R80). -/
theorem pixelAt_drawCells_tile (f : Cell → ColorIndex → Cell) (a b : ColorIndex) (row col : Nat)
    (rows : Vector (BitVec 6) 12) (cv : Canvas) {r c i j : Nat} (hr : r ≤ 17) (hc : c ≤ 49) (hi : i ≤ 5) (hj : j < 12) :
    pixelAt (drawCells f a b row col rows cv) (12 * r + j) (6 * c + i) =
      if r = row ∧ c = col then f (pixelAt cv (12 * r + j) (6 * c + i)) (if rows[j].getLsbD (5 - i) then b else a)
      else pixelAt cv (12 * r + j) (6 * c + i) := by
  have hin : 12 * r + j < 216 ∧ 6 * c + i < 300 := by omega
  have hrow : (12 * r + j) / 12 = r := by omega
  have hcol : (6 * c + i) / 6 = c := by omega
  have hx : (6 * c + i) % 6 = i := by omega
  have hy : (12 * r + j) % 12 = j := by omega
  simp only [pixelAt_drawCells, hin, hrow, hcol, hx, hy, true_and, tileColor_eq _ _ _ _ hj, and_self]

/-- Settles O15: the cell rule of a tile write that replaces. -/
theorem tileNormalReplacesCells : Obligations.TileNormalReplacesCells := fun a b row col rows s hrow hcol =>
  ⟨_, exec_packet_of_wf (.tileNormal a b row col rows) rfl ((tileFieldsWf_iff row col).2 ⟨hrow, hcol⟩) s,
    fun _ _ _ _ hr hc hi hj => pixelAt_drawCells_tile _ _ _ _ _ _ _ hr hc hi hj, rfl⟩

/-- Settles O16: the cell rule of a tile write that combines, for an `undef` cell and for a colour. -/
theorem tileXorCombinesCells : Obligations.TileXorCombinesCells := by
  refine fun a b row col rows s hrow hcol =>
    ⟨_, exec_packet_of_wf (.tileXor a b row col rows) rfl ((tileFieldsWf_iff row col).2 ⟨hrow, hcol⟩) s,
      fun r c i j hr hc hi hj => ?_, rfl⟩
  refine (pixelAt_drawCells_tile _ _ _ _ _ _ _ hr hc hi hj).trans ?_
  cases pixelAt s.fb.canvas (12 * r + j) (6 * c + i) <;> rfl

/-! ### The scroll packets (R72 to R74) -/

/-- A cell that is not exposed comes from one tile away, within the axis. -/
theorem sourceIndex_of_not_exposed {cmd : BitVec 2} {size dist n : Nat} (hd : dist ≤ size) (hn : n < size)
    (h : ¬ exposed cmd size dist n) :
    sourceIndex cmd size dist n = if cmd = 2 then n + dist else if cmd = 1 then n - dist else n := by
  obtain ⟨h2, h1⟩ := not_or.1 h
  unfold sourceIndex
  split_ifs with hc2 hc1
  · have hlt : n < size - dist := not_le.1 fun hle => h2 ⟨hc2, hle⟩
    exact Nat.mod_eq_of_lt (by omega)
  · have hle : dist ≤ n := not_lt.1 fun hlt => h1 ⟨hc1, hlt⟩
    rw [show n + (size - dist) = n - dist + size by omega, Nat.add_mod_right, Nat.mod_eq_of_lt (by omega)]
  · rfl

theorem sourceIndex_eq_mod (cmd : BitVec 2) {size n : Nat} (dist : Nat) (hn : n < size) :
    sourceIndex cmd size dist n = (if cmd = 2 then n + dist else if cmd = 1 then n + (size - dist) else n) % size := by
  unfold sourceIndex
  split_ifs
  · rfl
  · rfl
  · exact (Nat.mod_eq_of_lt hn).symm

theorem nextHTile_val (h : Fin 50) (cmd : BitVec 2) : (nextHTile h cmd).val =
    (if cmd = 2 then h.val + 1 else if cmd = 1 then h.val + 49 else h.val) % 50 := by
  unfold nextHTile
  split_ifs
  · rfl
  · rfl
  · exact (Nat.mod_eq_of_lt h.isLt).symm

theorem nextVTile_val (v : Fin 18) (cmd : BitVec 2) : (nextVTile v cmd).val =
    (if cmd = 2 then v.val + 1 else if cmd = 1 then v.val + 17 else v.val) % 18 := by
  unfold nextVTile
  split_ifs
  · rfl
  · rfl
  · exact (Nat.mod_eq_of_lt v.isLt).symm

/-- Settles O17: the cell rule of a filling shift, and the counters and offsets in numbers. -/
theorem scrollPresetFillsStrip : Obligations.ScrollPresetFillsStrip := by
  refine fun color hCmd hOff vCmd vOff s hhc hho hvc hvo =>
    ⟨_, exec_packet_of_wf (.scrollPreset color hCmd hOff vCmd vOff) rfl
        ((scrollFieldsWf_iff ..).2 ⟨hhc, hho, hvc, hvo⟩) s, fun y x hy hx => ?_,
      nextHTile_val .., nextVTile_val .., Nat.mod_eq_of_lt (by omega), Nat.mod_eq_of_lt (by omega), rfl⟩
  refine (pixelAt_shift_fill s.fb.canvas hCmd vCmd color hy hx).trans ?_
  by_cases hexp : exposed hCmd 300 6 x ∨ exposed vCmd 216 12 y
  · exact (if_pos hexp).trans (if_pos (or_assoc.1 hexp)).symm
  · obtain ⟨hh, hv⟩ := not_or.1 hexp
    rw [if_neg hexp, sourceIndex_of_not_exposed (by decide) hx hh, sourceIndex_of_not_exposed (by decide) hy hv]
    exact (if_neg (mt or_assoc.2 hexp)).symm

/-- Settles O18: the cell rule of a wrapping shift, and the counters and offsets in numbers. -/
theorem scrollCopyWraps : Obligations.ScrollCopyWraps := by
  refine fun color hCmd hOff vCmd vOff s hhc hho hvc hvo =>
    ⟨_, exec_packet_of_wf (.scrollCopy color hCmd hOff vCmd vOff) rfl
        ((scrollFieldsWf_iff ..).2 ⟨hhc, hho, hvc, hvo⟩) s, fun y x hy hx => ?_,
      nextHTile_val .., nextVTile_val .., Nat.mod_eq_of_lt (by omega), Nat.mod_eq_of_lt (by omega), rfl⟩
  refine (pixelAt_shift_wrap s.fb.canvas hCmd vCmd hy hx).trans ?_
  rw [sourceIndex_eq_mod vCmd 12 hy, sourceIndex_eq_mod hCmd 6 hx]

/-- Settles O19: whichever half comes first, a cell is filled when either axis exposes it and comes from its source on
both axes otherwise. -/
theorem shiftHalvesCommute : Obligations.ShiftHalvesCommute := by
  refine fun cv hCmd vCmd m => canvas_ext fun y x hy hx => ?_
  have hy' := sourceIndex_lt (cmd := vCmd) (dist := 12) hy
  have hx' := sourceIndex_lt (cmd := hCmd) (dist := 6) hx
  cases m with
  | wrap =>
    rw [pixelAt_shiftV_wrap _ _ hy hx, pixelAt_shiftH_wrap _ _ hy' hx, pixelAt_shiftH_wrap _ _ hy hx,
      pixelAt_shiftV_wrap _ _ hy hx']
  | fill color =>
    rw [pixelAt_shiftV_fill _ _ _ hy hx, pixelAt_shiftH_fill _ _ _ hy' hx, pixelAt_shiftH_fill _ _ _ hy hx,
      pixelAt_shiftV_fill _ _ _ hy hx']
    split_ifs <;> rfl

/-! ### The palette packets (R75, R76) -/

theorem entryOf_eq (s : State) {k : Nat} (h : k < 16) : entryOf s k = s.fb.palette[k] := by
  simp [entryOf, List.getD_eq_getElem?_getD, h]

/-- Settles O20: each entry is read inside or outside the half that is loaded. -/
theorem clutLoadsHalves : Obligations.ClutLoadsHalves := by
  refine fun colors s => ⟨⟨_, exec_packet_of_wf (.loadClutLow colors) rfl rfl s, fun k hk => ?_, rfl⟩,
    ⟨_, exec_packet_of_wf (.loadClutHigh colors) rfl rfl s, fun k hk => ?_, rfl⟩⟩
  all_goals
    have hlow : k < 16 := by omega
    have hhigh : 8 + k < 16 := by omega
    simp [entryOf_eq _ hlow, entryOf_eq _ hhigh, packetEffect, applyLoadClutLow, applyLoadClutHigh, loadHalf_getElem, hk,
      hhigh]

end Sys2Proof.Machine
end

section
/-! The screen family (spec/41_screen_tile.md R79 to R90): the tile indexer, what a preset, a tile draw and a coarse
scroll do to the state, and the rule of each colour, tile and cursor command. -/

namespace Sys2Proof.Machine

/-! ### The tile indexer (R79) -/

theorem tileOf_tilePixel (r c : Nat) {i j : Nat} (hi : i ≤ 5) (hj : j ≤ 11) :
    tileOf (tilePixel r c i j).1 (tilePixel r c i j).2 = (r, c, i, j) := by
  simp only [tileOf, tilePixel, Prod.mk.injEq]
  omega

theorem tilePixel_tileOf (x y : Nat) :
    tilePixel (tileOf x y).1 (tileOf x y).2.1 (tileOf x y).2.2.1 (tileOf x y).2.2.2 = (x, y) :=
  Prod.ext (Nat.div_add_mod x 6) (Nat.div_add_mod y 12)

/-- Settles O58: quotient and remainder by the tile's width and height determine a pixel and lie in range. -/
theorem tileIndexerBijective : Obligations.TileIndexerBijective := by
  refine ⟨fun _ _ _ _ => rfl, fun _ _ => rfl, fun r c i j hr hc hi hj => ⟨?_, ?_, tileOf_tilePixel r c hi hj⟩,
    fun x y hx hy => ⟨?_, ?_, ?_, ?_, tilePixel_tileOf x y⟩⟩
  all_goals
    simp only [tilePixel, tileOf]
    omega

/-! ### The colour commands (R81, R82) -/

/-- The colour field is the low nibble of a payload's first byte (R64). -/
theorem fieldColor_cons (n : Nat) (rest : List Byte) : fieldColor (BitVec.ofNat 8 n :: rest) = BitVec.ofNat 4 n :=
  BitVec.setWidth_ofNat_of_le (by decide) n

theorem setScreenColor_ok (P : Params) {index : Nat} (h : index ≤ 15) (s : State) :
    setScreenColor P index s = .ok (issue P Config.MEMORY_PRESET [BitVec.ofNat 8 index, 0] s) := by
  rw [setScreenColor, checkIndex_ok h]

theorem setScreenColor_error (P : Params) {index : Nat} (h : 15 < index) (s : State) :
    setScreenColor P index s = .error .paletteRangeError := by
  rw [setScreenColor, checkIndex_error h]

theorem setBorderColor_ok (P : Params) {index : Nat} (h : index ≤ 15) (s : State) :
    setBorderColor P index s = .ok (issue P Config.BORDER_PRESET [BitVec.ofNat 8 index] s) := by
  rw [setBorderColor, checkIndex_ok h]

theorem setBorderColor_error (P : Params) {index : Nat} (h : 15 < index) (s : State) :
    setBorderColor P index s = .error .paletteRangeError := by
  rw [setBorderColor, checkIndex_error h]

/-- The effect of the packet of `setScreenColor` (R68, R81). -/
theorem applyPayload_screenColorBytes (index : Nat) (fb : Framebuffer) :
    applyPayload Config.MEMORY_PRESET (pad16 [BitVec.ofNat 8 index, 0]) fb =
      applyMemoryPreset (BitVec.ofNat 4 index) 0 fb :=
  congrArg (applyMemoryPreset · 0 fb) (fieldColor_cons index _)

/-- The effect of the packet of `setBorderColor` (R69, R82). -/
theorem applyPayload_borderColorBytes (index : Nat) (fb : Framebuffer) :
    applyPayload Config.BORDER_PRESET (pad16 [BitVec.ofNat 8 index]) fb =
      applyBorderPreset (BitVec.ofNat 4 index) fb :=
  congrArg (applyBorderPreset · fb) (fieldColor_cons index _)

theorem pixelAt_applyMemoryPreset (color : ColorIndex) (rep : BitVec 4) (fb : Framebuffer) {y x : Nat} (hy : y < 216)
    (hx : x < 300) : pixelAt (applyMemoryPreset color rep fb).canvas y x = some color :=
  (pixelAt_canvasOf _ y x).trans (if_pos ⟨hy, hx⟩)

/-- Settles O23: the index fails its check, or one MEMORY_PRESET fills the canvas with it. -/
theorem setScreenColorRule : Obligations.SetScreenColorRule := by
  refine fun index s => ⟨fun h => ?_, fun h => ?_⟩
  · rw [exec_setScreenColor, setScreenColor_error _ h, answer_error]
    rfl
  · rw [exec_setScreenColor, setScreenColor_ok _ h, answer_ok, issue, applyPayload_screenColorBytes]
    exact ⟨_, rfl, fun y x hy hx => pixelAt_applyMemoryPreset _ 0 s.fb hy hx, rfl⟩

/-- Settles O24: the index fails its check, or one BORDER_PRESET makes it the border. -/
theorem setBorderColorRule : Obligations.SetBorderColorRule := by
  refine fun index s => ⟨fun h => ?_, fun h => ?_⟩
  · rw [exec_setBorderColor, setBorderColor_error _ h, answer_error]
    rfl
  · rw [exec_setBorderColor, setBorderColor_ok _ h, answer_ok, issue, applyPayload_borderColorBytes]
    rfl

/-! ### The checks of a tile write (R83) -/

theorem checkTile_address {row col : Nat} (a b : Nat) (px : List Nat) (h : 17 < row ∨ 49 < col) :
    checkTile row col a b px = .error .outOfBounds := if_pos h

theorem checkTile_color {row col a b : Nat} (px : List Nat) (hr : row ≤ 17) (hc : col ≤ 49) (h : 15 < a ∨ 15 < b) :
    checkTile row col a b px = .error .paletteRangeError := by
  rw [checkTile, if_neg (by omega), if_pos h]

theorem checkTile_pixels {row col a b : Nat} {px : List Nat} (hr : row ≤ 17) (hc : col ≤ 49) (ha : a ≤ 15)
    (hb : b ≤ 15) (h : px.length ≠ 12 ∨ ∃ v ∈ px, 63 < v) :
    checkTile row col a b px = .error .invalidPayload := by
  rw [checkTile, if_neg (by omega), if_neg (by omega)]
  split_ifs with hl hv
  · simp only [List.all_eq_true, decide_eq_true_eq] at hv
    obtain hne | ⟨v, hmem, h⟩ := h
    · exact absurd hl hne
    · exact absurd (hv v hmem) (by omega)
  · rfl
  · rfl

theorem writeTile_ok (P : Params) {row col a b : Nat} {px : List Nat} (h : checkTile row col a b px = .ok ())
    (xor : Bool) (s : State) : writeTile P row col a b px xor s = .ok (drawTile P row col a b px xor s) := by
  rw [writeTile, h]

theorem writeTile_error (P : Params) {row col a b : Nat} {px : List Nat} {e : CommandError}
    (h : checkTile row col a b px = .error e) (xor : Bool) (s : State) :
    writeTile P row col a b px xor s = .error e := by
  rw [writeTile, h]

/-! ### What a tile draw does (R70, R71, R83) -/

/-- The colour a pixel of a tile command's pixel list selects (R80). -/
def selectedColor (a b : Nat) (px : List Nat) (i j : Nat) : ColorIndex :=
  BitVec.ofNat 4 (if (px.getD j 0).testBit (5 - i) then b else a)

/-- A selected colour put on a cell: combined by exclusive-or, or in its place. -/
def paint (xor : Bool) (old : Cell) (v : ColorIndex) : Cell := if xor then old.map (· ^^^ v) else some v

/-- Painting the same colour twice by exclusive-or restores the cell, `undef` or not (R90). -/
theorem paint_xor_twice (old : Cell) (v : ColorIndex) : paint true (paint true old v) v = old := by
  cases old with
  | none => rfl
  | some c => simp [paint]

theorem tileColor_payload {row col a b : Nat} {px : List Nat} {i j : Nat} (hi : i < 6) (hj : j < 12)
    (hl : px.length = 12) :
    tileColor (BitVec.ofNat 4 a) (BitVec.ofNat 4 b) (fieldRows (([a, b, row, col] ++ px).map (BitVec.ofNat 8))) i j =
      selectedColor a b px i j := by
  rw [tileColor_bytes _ _ hi hj hl, selectedColor, apply_ite (BitVec.ofNat 4)]

/-- A tile draw writes the canvas and appends its packet (R83). -/
theorem drawTile_frame (P : Params) (row col a b : Nat) (px : List Nat) (xor : Bool) (s : State) :
    drawTile P row col a b px xor s = { s with
      fb := { s.fb with canvas := (drawTile P row col a b px xor s).fb.canvas }
      buffer := s.buffer ++ packetBytes P (if xor then Config.TILE_XOR else Config.TILE_NORMAL)
        (pad16 (([a, b, row, col] ++ px).map (BitVec.ofNat 8))) } := by
  cases xor <;> rfl

section
variable {row col : Nat} {px : List Nat} (hr : row ≤ 17) (hc : col ≤ 49) (hl : px.length = 12)
include hr hc hl

/-- The canvas after a tile draw, as the packet's fields give it. -/
theorem drawTile_canvas (P : Params) (a b : Nat) (xor : Bool) (s : State) :
    (drawTile P row col a b px xor s).fb.canvas =
      drawCells (paint xor) (BitVec.ofNat 4 a) (BitVec.ofNat 4 b) row col
        (fieldRows (([a, b, row, col] ++ px).map (BitVec.ofNat 8))) s.fb.canvas := by
  obtain ⟨hfa, hfb, hfr, hfc⟩ := tileBytes_fields (a := a) (b := b) (px := px) hr hc
  have hpad := pad16_of_length (p := ([a, b, row, col] ++ px).map (BitVec.ofNat 8)) (by simp [hl])
  rw [drawTile, issue_fb, hpad]
  cases xor with
  | false =>
    rw [if_neg Bool.false_ne_true, applyPayload_tileNormal, hfa, hfb, applyTileNormal, hfr, hfc]
    rfl
  | true =>
    rw [if_pos rfl, applyPayload_tileXor, hfa, hfb, applyTileXor, hfr, hfc]
    rfl

/-- What a tile draw leaves at every cell. -/
theorem pixelAt_drawTile (P : Params) (a b : Nat) (xor : Bool) (s : State) {y x : Nat} (hy : y < 216) (hx : x < 300) :
    pixelAt (drawTile P row col a b px xor s).fb.canvas y x =
      if y / 12 = row ∧ x / 6 = col then paint xor (pixelAt s.fb.canvas y x) (selectedColor a b px (x % 6) (y % 12))
      else pixelAt s.fb.canvas y x := by
  rw [drawTile_canvas hr hc hl, pixelAt_drawCells,
    tileColor_payload (Nat.mod_lt x (by decide)) (Nat.mod_lt y (by decide)) hl]
  simp only [hy, hx, and_self, true_and]

/-- What a tile draw leaves at the cell at column offset `i` and line offset `j` of tile `(r, c)` (R79). -/
theorem pixelAt_drawTile_tile (P : Params) (a b : Nat) (xor : Bool) (s : State) {r c i j : Nat} (hr' : r ≤ 17)
    (hc' : c ≤ 49) (hi : i ≤ 5) (hj : j ≤ 11) :
    pixelAt (drawTile P row col a b px xor s).fb.canvas (12 * r + j) (6 * c + i) =
      if r = row ∧ c = col then paint xor (pixelAt s.fb.canvas (12 * r + j) (6 * c + i)) (selectedColor a b px i j)
      else pixelAt s.fb.canvas (12 * r + j) (6 * c + i) := by
  obtain ⟨hrow, hcol, hx, hy⟩ : (12 * r + j) / 12 = r ∧ (6 * c + i) / 6 = c ∧ (6 * c + i) % 6 = i ∧
    (12 * r + j) % 12 = j := by omega
  rw [pixelAt_drawTile hr hc hl P a b xor s (by omega) (by omega), hrow, hcol, hx, hy]

/-- Drawing the same tile twice by exclusive-or restores the canvas (R90). -/
theorem drawTile_xor_twice_canvas (P : Params) (a b : Nat) (s : State) (r : Option Result) :
    (drawTile P row col a b px true ((drawTile P row col a b px true s).setResult r)).fb.canvas = s.fb.canvas := by
  refine canvas_ext fun y x hy hx => ?_
  rw [pixelAt_drawTile hr hc hl _ _ _ _ _ hy hx, setResult_fb, pixelAt_drawTile hr hc hl _ _ _ _ _ hy hx]
  split_ifs with htile
  · exact paint_xor_twice _ _
  · rfl

end

/-! ### The tile commands (R83 to R85, R90) -/

/-- Every command that draws a tile is `writeTile` (R84, R85). -/
theorem exec_tileCommands {row col a b : Nat} {px : List Nat} {xor : Bool} {i : Instr}
    (hi : i ∈ tileCommands row col a b px xor) (s : State) :
    exec i s = answer s (writeTile Config.live row col a b px xor s) := by
  obtain rfl | rfl := List.mem_pair.1 hi
  · exact exec_writeTile ..
  · cases xor <;> rfl

/-- Settles O25: the first check that fails is the answer, and a draw that passes them all paints the tile's cells. -/
theorem writeTileRule : Obligations.WriteTileRule := by
  intro row col colorA colorB px xor s i hi
  rw [exec_tileCommands hi]
  refine ⟨fun h => ?_, fun hr hc h => ?_, fun hr hc ha hb h => ?_, fun hr hc ha hb hl hpx => ?_⟩
  · rw [writeTile_error _ (checkTile_address _ _ _ h)]
    rfl
  · rw [writeTile_error _ (checkTile_color _ hr hc h)]
    rfl
  · rw [writeTile_error _ (checkTile_pixels hr hc ha hb h)]
    rfl
  · rw [writeTile_ok _ (checkTile_ok hr hc ha hb hl hpx), answer_ok]
    exact ⟨_, rfl, fun _ _ _ _ hr' hc' hdx hdy =>
        pixelAt_drawTile_tile hr hc hl Config.live colorA colorB xor s hr' hc' hdx hdy,
      congrArg (State.setResult · (some .ok)) (drawTile_frame ..)⟩

/-- Settles O26: the second draw repaints every cell of the tile with the colour the first one used. -/
theorem xorBlitTwiceRestores : Obligations.XorBlitTwiceRestores := by
  intro row col colorA colorB px s hr hc ha hb hl hpx
  have hexec : ∀ s', exec (.xorBlit row col colorA colorB px) s' =
      .next ((drawTile Config.live row col colorA colorB px true s').setResult (some .ok)) := fun s' => by
    rw [exec_xorBlit, writeTile_ok _ (checkTile_ok hr hc ha hb hl hpx), answer_ok]
  refine ⟨_, _, hexec s, packetBytes_length Config.live Config.TILE_XOR (pad16_length (by simp [hl])), rfl, ?_⟩
  rw [hexec, drawTile_frame, drawTile_xor_twice_canvas hr hc hl]
  rfl

/-! ### The cursor (R86) -/

/-- Settles O28: outside the text area is an error, and inside it reduction modulo its size changes nothing. -/
theorem setCursorRule : Obligations.SetCursorRule := by
  refine fun x y s => ⟨fun h => ?_, fun hx hy => ?_⟩
  · have hcheck : checkCursor x y = .error .outOfBounds := if_pos h
    rw [exec_setCursor, setCursor, hcheck]
    rfl
  · have hcheck : checkCursor x y = .ok () := if_neg (not_or.2 ⟨not_le.2 hx, not_le.2 hy⟩)
    have hcol : Fin.ofNat 49 x = ⟨x, hx⟩ := Fin.ext (Nat.mod_eq_of_lt hx)
    have hrow : Fin.ofNat 17 y = ⟨y, hy⟩ := Fin.ext (Nat.mod_eq_of_lt hy)
    rw [exec_setCursor, setCursor, hcheck, hcol, hrow]
    rfl

/-! ### The coarse scroll (R94) -/

/-- A scroll's payload in numbers: the command is the high nibble and the offset the low one. -/
theorem scrollBytes_eq (color hc vc : Nat) {ho vo : Nat} (hho : ho < 16) (hvo : vo < 16) :
    scrollBytes color hc ho vc vo =
      [BitVec.ofNat 8 color, BitVec.ofNat 8 (16 * hc + ho), BitVec.ofNat 8 (16 * vc + vo)] := by
  have nibbles : ∀ cmd off : Nat, off < 16 → cmd <<< 4 ||| off = 16 * cmd + off := fun cmd off h => by
    rw [← Nat.shiftLeft_add_eq_or_of_lt (i := 4) h, Nat.shiftLeft_eq, Nat.mul_comm]
  rw [scrollBytes, nibbles hc ho hho, nibbles vc vo hvo]

/-- A coarse scroll moves the canvas and the counters by one tile and keeps the fine offsets (R94). -/
theorem coarseScroll_fb (P : Params) (d : Direction) (color : Nat) (wrap : Bool) (s : State) :
    (coarseScroll P d color wrap s).fb = { s.fb with
      canvas := shiftCanvas s.fb.canvas (BitVec.ofNat 2 (scrollCommand d).1) (BitVec.ofNat 2 (scrollCommand d).2)
        (if wrap then .wrap else .fill (BitVec.ofNat 4 color))
      hTile := nextHTile s.fb.hTile (BitVec.ofNat 2 (scrollCommand d).1)
      vTile := nextVTile s.fb.vTile (BitVec.ofNat 2 (scrollCommand d).2) } := by
  obtain ⟨hhc, hvc⟩ := scrollCommand_le d
  have keepH : ∀ v : Fin 6, Fin.ofNat 6 (BitVec.ofNat 3 v.val).toNat = v := by decide
  have keepV : ∀ v : Fin 12, Fin.ofNat 12 (BitVec.ofNat 4 v.val).toNat = v := by decide
  rw [coarseScroll, issue_fb, applyPayload_scrollBytes wrap hhc (by omega) hvc (by omega), applyScroll, keepH, keepV]

/-- A coarse scroll writes the framebuffer and appends its packet, which carries the fine offsets (R94). -/
theorem coarseScroll_frame (P : Params) (d : Direction) (color : Nat) (wrap : Bool) (s : State) :
    coarseScroll P d color wrap s = { s with
      fb := (coarseScroll P d color wrap s).fb
      buffer := s.buffer ++ packetBytes P (scrollCode wrap)
        (pad16 [BitVec.ofNat 8 color, BitVec.ofNat 8 (16 * (scrollCommand d).1 + s.fb.hOff.val),
          BitVec.ofNat 8 (16 * (scrollCommand d).2 + s.fb.vOff.val)]) } := by
  rw [← scrollBytes_eq _ _ _ (by omega) (by omega)]
  rfl

/-! ### Advancing the cursor (R87 to R89) -/

theorem textScroll_fb (P : Params) (s : State) : (textScroll P s).fb = { s.fb with
    canvas := shiftCanvas s.fb.canvas 0 2 (.fill 0)
    vTile := nextVTile s.fb.vTile 2 } := coarseScroll_fb P .up 0 false s

/-- The canvas moved up by one tile, the last 12 lines filled (R89). -/
theorem pixelAt_shift_up_fill (cv : Canvas) (color : ColorIndex) {y x : Nat} (hy : y < 216) (hx : x < 300) :
    pixelAt (shiftCanvas cv 0 2 (.fill color)) y x = if 204 ≤ y then some color else pixelAt cv (y + 12) x := by
  rw [pixelAt_shift_fill _ _ _ _ hy hx]
  by_cases hlast : 204 ≤ y
  · rw [if_pos hlast, if_pos (.inr (.inl ⟨rfl, hlast⟩))]
  · have hh : ¬ exposed 0 300 6 x := by simp [exposed]
    have hv : ¬ exposed 2 216 12 y := by simp [exposed]; omega
    rw [if_neg hlast, if_neg (not_or.2 ⟨hh, hv⟩), sourceIndex_of_not_exposed (by decide) hx hh,
      sourceIndex_of_not_exposed (by decide) hy hv]
    rfl

/-- The text scroll's packet carries the fine offsets of the state it scrolls (R89, R94). -/
theorem textScroll_frame (P : Params) (s : State) : textScroll P s = { s with
    fb := (textScroll P s).fb
    buffer := s.buffer ++ packetBytes P Config.SCROLL_PRESET
      (pad16 [0, BitVec.ofNat 8 s.fb.hOff.val, BitVec.ofNat 8 (0x20 + s.fb.vOff.val)]) } := by
  have hframe := coarseScroll_frame P .up 0 false s
  rw [scrollCommand, Nat.mul_zero, Nat.zero_add] at hframe
  exact hframe

section
variable (P : Params) {s : State}

theorem advanceCursor_within_row (h : s.cursorCol.val + 1 < 49) :
    advanceCursor P s = s.setCursor ⟨s.cursorCol.val + 1, h⟩ s.cursorRow := by
  have hcol : Fin.ofNat 49 (s.cursorCol.val + 1) = ⟨s.cursorCol.val + 1, h⟩ := Fin.ext (Nat.mod_eq_of_lt h)
  rw [← hcol]
  exact if_pos h

theorem advanceCursor_at_row_end (hcol : s.cursorCol.val = 48) : advanceCursor P s = newLine P s :=
  if_neg (by simp [hcol, Config.TEXT_COLS])

theorem newLine_next_row (h : s.cursorRow.val + 1 < 17) :
    newLine P s = s.setCursor 0 ⟨s.cursorRow.val + 1, h⟩ := by
  have hrow : Fin.ofNat 17 (s.cursorRow.val + 1) = ⟨s.cursorRow.val + 1, h⟩ := Fin.ext (Nat.mod_eq_of_lt h)
  rw [← hrow]
  exact if_pos h

theorem newLine_last_row (hrow : s.cursorRow.val = 16) : newLine P s = textScroll P (s.setCursor 0 s.cursorRow) :=
  if_neg (by simp [hrow, Config.TEXT_ROWS])

end

/-- Settles O29: the cursor moves within its row, to the next row, or stays in the last row over a text scroll. -/
theorem advanceCursorRule : Obligations.AdvanceCursorRule := by
  refine fun s => ⟨fun h => ?_, fun hcol h => ?_, fun hcol hrow => ?_⟩
  · rw [exec_advanceCursor, advanceCursor_within_row _ h]
    rfl
  · rw [exec_advanceCursor, advanceCursor_at_row_end _ hcol, newLine_next_row _ h]
    rfl
  · rw [exec_advanceCursor, advanceCursor_at_row_end _ hcol, newLine_last_row _ hrow, answer_ok, textScroll_frame,
      textScroll_fb]
    exact ⟨_, rfl, fun y x hy hx => pixelAt_shift_up_fill _ _ hy hx, nextVTile_val .., rfl⟩

end Sys2Proof.Machine
end

section
/-! The text and scroll family (spec/42_text_scroll.md R91 to R97): drawing a character, printing a text, and how far the
scrolls move the visible content and the coarse position. -/

namespace Sys2Proof.Machine

/-! ### Drawing a character (R91) -/

theorem checkChar_error {ch : Nat} (h : 255 < ch) : checkChar ch = .error .invalidPayload := if_pos h

theorem textTile_error (P : Params) {ch : Nat} (h : 255 < ch) (x y : Nat) (xor : Bool) (s : State) :
    textTile P ch x y xor s = .error .invalidPayload := by
  rw [textTile, checkChar_error h]

/-- Only the tile address of a character can fail: its colours are fixed, and a glyph is a pixel list (R91). -/
theorem textTile_ok (P : Params) {ch x y : Nat} (hch : ch ≤ 255) (hy : y ≤ 17) (hx : x ≤ 49) (xor : Bool) (s : State) :
    textTile P ch x y xor s = .ok (drawGlyph P ch x y xor s) := by
  obtain ⟨hl, hpx⟩ := glyphRows_ok P ch
  exact (textTile_eq_writeTile P hch x y xor s).trans
    (writeTile_ok P (checkTile_ok hy hx (by decide) (by decide) hl hpx) xor s)

theorem textTile_address (P : Params) {ch x y : Nat} (hch : ch ≤ 255) (h : 17 < y ∨ 49 < x) (xor : Bool) (s : State) :
    textTile P ch x y xor s = .error .outOfBounds :=
  (textTile_eq_writeTile P hch x y xor s).trans (writeTile_error P (checkTile_address _ _ _ h) xor s)

/-- Settles O30: the character's check, then `writeTile`, of whose checks only that of the address can fail. -/
theorem textTileRule : Obligations.TextTileRule := by
  refine fun ch x y xor s => ⟨fun h => ?_, fun h => ?_, fun h haddr => ?_, fun h hy hx => ?_⟩
  · rw [exec_textTile, textTile_error _ h]
    rfl
  · rw [exec_textTile, textTile_eq_writeTile _ h, exec_writeTile]
    rfl
  · rw [exec_textTile, textTile_address _ h haddr]
    rfl
  · rw [exec_textTile, textTile_ok _ h hy hx, answer_ok, drawGlyph, drawTile_frame]
    exact ⟨_, rfl, rfl, rfl, rfl⟩

/-! ### What the result of the command before cannot change -/

section
variable (P : Params) (r : Option Result) (s : State)

theorem newLine_setResult : newLine P (s.setResult r) = (newLine P s).setResult r := by
  rw [newLine, newLine, apply_ite (State.setResult · r)]
  rfl

theorem advanceCursor_setResult : advanceCursor P (s.setResult r) = (advanceCursor P s).setResult r := by
  rw [advanceCursor, advanceCursor, newLine_setResult, apply_ite (State.setResult · r)]
  rfl

theorem printChar_setResult (xor : Bool) (ch : Nat) :
    printChar P xor (s.setResult r) ch = (printChar P xor s ch).setResult r := by
  rw [printChar, printChar, apply_ite (State.setResult · r), ← newLine_setResult, ← advanceCursor_setResult]
  rfl

theorem foldl_printChar_setResult (xor : Bool) (text : List Nat) :
    text.foldl (printChar P xor) (s.setResult r) = (text.foldl (printChar P xor) s).setResult r := by
  induction text generalizing s with
  | nil => rfl
  | cons ch rest ih => rw [List.foldl_cons, List.foldl_cons, printChar_setResult, ih]

end

/-! ### What text leaves alone (R92) -/

/-- The part of a state that text never writes: all but the canvas, `vTile`, the cursor and the buffer. -/
def textUntouched (s : State) :
    (Option ColorIndex × Option ColorIndex × Palette) × (Fin 6 × Fin 12 × Fin 50) × Pending × Option Result :=
  ((s.fb.screenColor, s.fb.border, s.fb.palette), (s.fb.hOff, s.fb.vOff, s.fb.hTile), s.pending, s.result)

theorem eq_of_textUntouched {s t : State} (h : textUntouched t = textUntouched s) : t = { s with
    fb := { s.fb with canvas := t.fb.canvas, vTile := t.fb.vTile }
    cursorCol := t.cursorCol
    cursorRow := t.cursorRow
    buffer := t.buffer } := by
  obtain ⟨⟨⟩⟩ := t
  cases h
  rfl

section
variable (P : Params) (s : State)

theorem textUntouched_newLine : textUntouched (newLine P s) = textUntouched s := by
  unfold newLine
  split
  · rfl
  · rw [textScroll_frame, textScroll_fb]
    rfl

theorem textUntouched_advanceCursor : textUntouched (advanceCursor P s) = textUntouched s := by
  unfold advanceCursor
  split
  · rfl
  · exact textUntouched_newLine P s

theorem textUntouched_printChar (xor : Bool) (ch : Nat) : textUntouched (printChar P xor s ch) = textUntouched s := by
  unfold printChar
  split
  · exact textUntouched_newLine P s
  · rw [textUntouched_advanceCursor, drawGlyph, drawTile_frame]
    rfl

theorem textUntouched_foldl_printChar (xor : Bool) (text : List Nat) :
    textUntouched (text.foldl (printChar P xor) s) = textUntouched s := by
  induction text generalizing s with
  | nil => rfl
  | cons ch rest ih => rw [List.foldl_cons, ih, textUntouched_printChar]

end

/-! ### Printing a text (R92) -/

theorem checkText_ok {text : List Nat} (h : ∀ ch ∈ text, ch ≤ 255) : checkText text = .ok () :=
  if_pos (by simpa using h)

theorem checkText_error {text : List Nat} (h : ∃ ch ∈ text, 255 < ch) : checkText text = .error .invalidPayload :=
  if_neg (by simpa using h)

section
variable {text : List Nat} (h : ∀ ch ∈ text, ch ≤ 255) (xor : Bool) (s : State)
include h

theorem printScreen_ok (P : Params) : printScreen P text xor s = .ok (text.foldl (printChar P xor) s) := by
  rw [printScreen, checkText_ok h]

theorem exec_printScreen_setResult (r : Option Result) :
    exec (.printScreen text xor) (s.setResult r) = exec (.printScreen text xor) s := by
  rw [exec_printScreen, exec_printScreen, printScreen_ok h, printScreen_ok h, foldl_printChar_setResult]
  rfl

end

/-- Printing a text is printing its first character and then the rest. -/
theorem exec_printScreen_cons {ch : Nat} {rest : List Nat} (h : ∀ c ∈ ch :: rest, c ≤ 255) (xor : Bool) (s : State) :
    exec (.printScreen (ch :: rest) xor) s = exec (.printScreen rest xor) (printChar Config.live xor s ch) := by
  rw [exec_printScreen, exec_printScreen, printScreen_ok h, printScreen_ok (List.forall_mem_cons.1 h).2]
  rfl

/-- A newline is `NewLine()` alone (R92). -/
theorem printChar_newline (P : Params) (xor : Bool) (s : State) : printChar P xor s 0x0A = newLine P s := rfl

theorem printChar_glyph (P : Params) (xor : Bool) (s : State) {ch : Nat} (h : ch ≠ 0x0A) :
    printChar P xor s ch = advanceCursor P (drawGlyph P ch s.cursorCol.val s.cursorRow.val xor s) := if_neg h

/-- Settles O31: the recursion of the fold over the text, with the answer of each step's own command. -/
theorem printScreenRule : Obligations.PrintScreenRule := by
  refine fun text xor s => ⟨fun h => ?_, fun h => ⟨?_, ?_, ?_, ?_⟩⟩
  · rw [exec_printScreen, printScreen, checkText_error h]
    rfl
  · have hok := printScreen_ok h xor s Config.live
    rw [exec_printScreen, hok, answer_ok]
    exact ⟨_, rfl, (printScreen_does _ text xor s _ hok).buffer, congrArg (State.setResult · (some .ok))
      (eq_of_textUntouched (textUntouched_foldl_printChar Config.live s xor text))⟩
  · rintro rfl
    rfl
  · rintro rest rfl
    rw [exec_printScreen_cons h, printChar_newline]
    refine ⟨fun hrow => ?_, fun hrow => ?_⟩
    · rw [newLine_next_row _ hrow]
      rfl
    · rw [newLine_last_row _ hrow]
      exact ⟨_, rfl, (exec_printScreen_setResult (List.forall_mem_cons.1 h).2 xor _ _).symm⟩
  · rintro ch rest rfl hne
    obtain ⟨hch, hrest⟩ := List.forall_mem_cons.1 h
    have hdraw := textTile_ok Config.live hch (x := s.cursorCol.val) (y := s.cursorRow.val) (by omega) (by omega) xor s
    rw [exec_textTile, hdraw, answer_ok]
    refine ⟨_, _, rfl, rfl, exec_advanceCursor _, ?_⟩
    rw [exec_printScreen_cons h, printChar_glyph _ _ _ hne, advanceCursor_setResult, exec_printScreen_setResult hrest,
      exec_printScreen_setResult hrest]

/-! ### The packet of a scroll command in numbers (R94 to R96) -/

section
variable (P : Params) (wrap : Bool) (color : Nat) {hc ho vc vo : Nat}

/-- A scroll command's packet moves the canvas and the counters by its commands and sets both fine offsets. -/
theorem issue_scrollBytes (hhc : hc ≤ 2) (hho : ho < 6) (hvc : vc ≤ 2) (hvo : vo < 12) (s : State) :
    issue P (scrollCode wrap) (scrollBytes color hc ho vc vo) s = { s with
      fb := { s.fb with
        canvas := shiftCanvas s.fb.canvas (BitVec.ofNat 2 hc) (BitVec.ofNat 2 vc)
          (if wrap then .wrap else .fill (BitVec.ofNat 4 color))
        hTile := nextHTile s.fb.hTile (BitVec.ofNat 2 hc)
        vTile := nextVTile s.fb.vTile (BitVec.ofNat 2 vc)
        hOff := ⟨ho, hho⟩
        vOff := ⟨vo, hvo⟩ }
      buffer := s.buffer ++ packetBytes P (scrollCode wrap)
        (pad16 [BitVec.ofNat 8 color, BitVec.ofNat 8 (16 * hc + ho), BitVec.ofNat 8 (16 * vc + vo)]) } := by
  have hoff : Fin.ofNat 6 (BitVec.ofNat 3 ho).toNat = ⟨ho, hho⟩ := by revert ho; decide
  have voff : Fin.ofNat 12 (BitVec.ofNat 4 vo).toNat = ⟨vo, hvo⟩ := by revert vo; decide
  rw [issue, applyPayload_scrollBytes wrap hhc (by omega) hvc (by omega), applyScroll, hoff, voff,
    scrollBytes_eq _ _ _ (by omega) (by omega)]
  rfl

/-- With both commands 0 the packet sets the fine offsets and nothing else (R95). -/
theorem issue_scrollBytes_step (hho : ho < 6) (hvo : vo < 12) (s : State) :
    issue P (scrollCode wrap) (scrollBytes color 0 ho 0 vo) s = { s with
      fb := { s.fb with hOff := ⟨ho, hho⟩, vOff := ⟨vo, hvo⟩ }
      buffer := s.buffer ++ packetBytes P (scrollCode wrap)
        (pad16 [BitVec.ofNat 8 color, BitVec.ofNat 8 ho, BitVec.ofNat 8 vo]) } := by
  have hcanvas : shiftCanvas s.fb.canvas (BitVec.ofNat 2 0) (BitVec.ofNat 2 0)
      (if wrap then .wrap else .fill (BitVec.ofNat 4 color)) = s.fb.canvas := shiftCanvas_none ..
  rw [issue_scrollBytes P wrap color (Nat.zero_le 2) hho (Nat.zero_le 2) hvo, hcanvas, Nat.mul_zero, Nat.zero_add,
    Nat.zero_add]
  rfl

end

theorem nextHTile_ofNat (t : Fin 50) {hc : Nat} (h : hc ≤ 2) : (nextHTile t (BitVec.ofNat 2 hc)).val =
    (t.val + (if hc = 2 then 1 else if hc = 1 then 49 else 0)) % 50 := by
  rw [nextHTile_val]
  interval_cases hc <;> rfl

theorem nextVTile_ofNat (t : Fin 18) {vc : Nat} (h : vc ≤ 2) : (nextVTile t (BitVec.ofNat 2 vc)).val =
    (t.val + (if vc = 2 then 1 else if vc = 1 then 17 else 0)) % 18 := by
  rw [nextVTile_val]
  interval_cases vc <;> rfl

/-! ### `scroll` (R94, R95) -/

section
variable (P : Params) (d : Direction) {color : Nat} (wrap : Bool) (s : State)

theorem scroll_color_error (h : 15 < color) (step : Option Nat) :
    scroll P d color step wrap s = .error .paletteRangeError := by
  simp only [scroll, checkIndex_error h]

variable (hcol : color ≤ 15)
include hcol

theorem scroll_coarse : scroll P d color none wrap s = .ok (coarseScroll P d color wrap s) := by
  rw [scroll, checkIndex_ok hcol]

theorem scroll_step_horizontal (hd : isHorizontal d = true) (n : Nat) : scroll P d color (some n) wrap s =
    if 5 < n then .error .outOfBounds
    else .ok (issue P (scrollCode wrap) (scrollBytes color 0 n 0 s.fb.vOff.val) s) := by
  simp only [scroll, checkIndex_ok hcol, if_pos hd]

theorem scroll_step_vertical (hd : isHorizontal d = false) (n : Nat) : scroll P d color (some n) wrap s =
    if 11 < n then .error .outOfBounds
    else .ok (issue P (scrollCode wrap) (scrollBytes color 0 s.fb.hOff.val 0 n) s) := by
  simp only [scroll, checkIndex_ok hcol, hd, Bool.false_eq_true, if_false]

end

/-- What a shift of either mode leaves at a cell: the strip it exposes is filled unless the shift wraps (R74). -/
theorem pixelAt_shift (cv : Canvas) (hCmd vCmd : BitVec 2) (wrap : Bool) (color : ColorIndex) {y x : Nat} (hy : y < 216)
    (hx : x < 300) : pixelAt (shiftCanvas cv hCmd vCmd (if wrap then .wrap else .fill color)) y x =
      if (exposed hCmd 300 6 x ∨ exposed vCmd 216 12 y) ∧ wrap = false then some color
      else pixelAt cv (sourceIndex vCmd 216 12 y) (sourceIndex hCmd 300 6 x) := by
  cases wrap with
  | true => simpa using pixelAt_shift_wrap cv hCmd vCmd hy hx
  | false => simpa using pixelAt_shift_fill cv hCmd vCmd color hy hx

/-- Settles O32: the frame of a coarse scroll, and in each direction the cell rule and the counters. -/
theorem scrollCoarseRule : Obligations.ScrollCoarseRule := by
  refine fun d color wrap s => ⟨fun h => ?_, fun h => ?_⟩
  · rw [exec_scroll, scroll_color_error _ _ _ _ h]
    rfl
  · intro hCmd vCmd
    have hcmd : scrollCommand d = (hCmd, vCmd) := by cases d <;> rfl
    rw [exec_scroll, scroll_coarse _ _ _ _ h, answer_ok, coarseScroll_frame, coarseScroll_fb, hcmd]
    refine ⟨_, rfl, fun y x hy hx => (pixelAt_shift _ _ _ _ _ hy hx).trans ?_, ?_, ?_, rfl⟩
    · cases d <;> simp [hCmd, vCmd, exposed, sourceIndex]
    · cases d <;> exact nextHTile_val ..
    · cases d <;> exact nextVTile_val ..

/-- Settles O33: the colour, then the step against the range of its axis, then a packet that moves nothing. -/
theorem scrollStepRule : Obligations.ScrollStepRule := by
  refine fun d color n wrap s => ⟨fun h => ?_, fun h hd => ?_, fun h hd => ?_⟩
  · rw [exec_scroll, scroll_color_error _ _ _ _ h]
    rfl
  · have haxis : isHorizontal d = true := by obtain rfl | rfl := hd <;> rfl
    rw [exec_scroll, scroll_step_horizontal _ _ _ _ h haxis]
    refine ⟨fun hn => by rw [if_pos hn]; rfl, fun hn => ?_⟩
    rw [if_neg (by omega), issue_scrollBytes_step _ _ _ hn (by omega)]
    rfl
  · have haxis : isHorizontal d = false := by obtain rfl | rfl := hd <;> rfl
    rw [exec_scroll, scroll_step_vertical _ _ _ _ h haxis]
    refine ⟨fun hn => by rw [if_pos hn]; rfl, fun hn => ?_⟩
    rw [if_neg (by omega), issue_scrollBytes_step _ _ _ (by omega) hn]
    rfl

/-! ### How far a scroll moves the visible content and the position (R23, R96, R97) -/

/-- The horizontal scroll offsets as one number of pixels: the counter's tiles and the fine offset (R21, R22). -/
def hPosition (fb : Framebuffer) : Nat := 6 * fb.hTile.val + fb.hOff.val

/-- The vertical scroll offsets as one number of pixels (R21, R22). -/
def vPosition (fb : Framebuffer) : Nat := 12 * fb.vTile.val + fb.vOff.val

/-- `b` is `a` scrolled by `dy` lines and `dx` columns around the ends of the canvas: the visible content and both
positions move by that much, and nothing outside canvas, offsets and counters differs. -/
structure ScrolledBy (dy dx : Nat) (a b : Framebuffer) : Prop where
  view : ∀ y x, view b y x = view a (y + dy) (x + dx)
  columns : hPosition b = (hPosition a + dx) % 300
  lines : vPosition b = (vPosition a + dy) % 216
  screenColor : b.screenColor = a.screenColor
  border : b.border = a.border
  palette : b.palette = a.palette

theorem view_mod_line (fb : Framebuffer) (y x : Nat) : view fb (y % 216) x = view fb y x := by
  rw [view, view, Nat.mod_add_mod]

theorem view_mod_column (fb : Framebuffer) (y x : Nat) : view fb y (x % 300) = view fb y x := by
  rw [view, view, Nat.mod_add_mod]

theorem view_add_turn (fb : Framebuffer) {dy dx : Nat} (hy : dy % 216 = 0) (hx : dx % 300 = 0) (y x : Nat) :
    view fb (y + dy) (x + dx) = view fb y x := by
  rw [← view_mod_line, ← view_mod_column, ← view_mod_line fb y, ← view_mod_column fb (y % 216) x]
  congr 1 <;> omega

/-- Every cell of the canvas is seen somewhere. -/
theorem pixelAt_eq_view (fb : Framebuffer) {y x : Nat} (hy : y < 216) (hx : x < 300) :
    pixelAt fb.canvas y x = view fb (y + (216 - fb.vOff.val)) (x + (300 - fb.hOff.val)) := by
  have hline : (y + (216 - fb.vOff.val) + fb.vOff.val) % 216 = y := by omega
  have hcolumn : (x + (300 - fb.hOff.val) + fb.hOff.val) % 300 = x := by omega
  rw [view, hline, hcolumn]

section
variable {dy dx dy' dx' : Nat} {a b c : Framebuffer}

theorem ScrolledBy.refl : ScrolledBy 0 0 a a where
  view _ _ := rfl
  columns := by simp only [hPosition]; omega
  lines := by simp only [vPosition]; omega
  screenColor := rfl
  border := rfl
  palette := rfl

theorem ScrolledBy.trans (h : ScrolledBy dy dx a b) (h' : ScrolledBy dy' dx' b c) :
    ScrolledBy (dy + dy') (dx + dx') a c where
  view y x := by rw [h'.view, h.view, Nat.add_assoc, Nat.add_assoc, Nat.add_comm dy', Nat.add_comm dx']
  columns := by rw [h'.columns, h.columns, Nat.mod_add_mod, Nat.add_assoc]
  lines := by rw [h'.lines, h.lines, Nat.mod_add_mod, Nat.add_assoc]
  screenColor := h'.screenColor.trans h.screenColor
  border := h'.border.trans h.border
  palette := h'.palette.trans h.palette

/-- Scrolled by whole turns of both axes, a framebuffer state is the same: the positions determine the offsets and the
counters, and the visible content then determines the canvas (R97). -/
theorem ScrolledBy.eq_of_turn (h : ScrolledBy dy dx a b) (hy : dy % 216 = 0) (hx : dx % 300 = 0) : b = a := by
  obtain ⟨hview, hh, hv, hsc, hbo, hpal⟩ := h
  simp only [hPosition, vPosition] at hh hv
  have hhTile : b.hTile = a.hTile := by omega
  have hvTile : b.vTile = a.vTile := by omega
  have hhOff : b.hOff = a.hOff := by omega
  have hvOff : b.vOff = a.vOff := by omega
  have hcanvas : b.canvas = a.canvas := canvas_ext fun y x hy' hx' => by
    rw [pixelAt_eq_view b hy' hx', pixelAt_eq_view a hy' hx', hview, hhOff, hvOff, view_add_turn a hy hx]
  cases a
  cases b
  simp only at hhTile hvTile hhOff hvOff hcanvas hsc hbo hpal
  simp only [hhTile, hvTile, hhOff, hvOff, hcanvas, hsc, hbo, hpal]

end

/-! ### A wrapping move -/

/-- How far along an axis of `size` cells a coarse wrap move brings its cells from (R74). -/
def coarseMove (cmd : BitVec 2) (size dist : Nat) : Nat := if cmd = 2 then dist else if cmd = 1 then size - dist else 0

theorem sourceIndex_mod (cmd : BitVec 2) (size dist n : Nat) :
    sourceIndex cmd size dist (n % size) = (n + coarseMove cmd size dist) % size := by
  unfold sourceIndex coarseMove
  split_ifs
  · exact Nat.mod_add_mod ..
  · exact Nat.mod_add_mod ..
  · rfl

/-- The counter's change is the coarse move's, in tiles. -/
theorem nextHTile_position (t : Fin 50) (cmd : BitVec 2) :
    6 * (nextHTile t cmd).val = (6 * t.val + coarseMove cmd 300 6) % 300 := by
  rw [nextHTile_val, coarseMove]
  split_ifs <;> omega

theorem nextVTile_position (t : Fin 18) (cmd : BitVec 2) :
    12 * (nextVTile t cmd).val = (12 * t.val + coarseMove cmd 216 12) % 216 := by
  rw [nextVTile_val, coarseMove]
  split_ifs <;> omega

/-- A wrapping scroll moves view and position alike: by its coarse move and by the change of the fine offset. -/
theorem scrolledBy_wrap (fb : Framebuffer) {hCmd vCmd : BitVec 2} {ho : Fin 6} {vo : Fin 12} {dy dx : Nat}
    (hx : (fb.hOff.val + dx) % 300 = (ho.val + coarseMove hCmd 300 6) % 300)
    (hy : (fb.vOff.val + dy) % 216 = (vo.val + coarseMove vCmd 216 12) % 216) :
    ScrolledBy dy dx fb { fb with
      canvas := shiftCanvas fb.canvas hCmd vCmd .wrap
      hTile := nextHTile fb.hTile hCmd
      vTile := nextVTile fb.vTile vCmd
      hOff := ho
      vOff := vo } where
  view y x := by
    rw [view, pixelAt_shift_wrap _ _ _ (Nat.mod_lt _ (by decide)) (Nat.mod_lt _ (by decide)), sourceIndex_mod,
      sourceIndex_mod, view]
    congr 1 <;> dsimp only <;> omega
  columns := by
    have hTile := nextHTile_position fb.hTile hCmd
    simp only [hPosition]
    omega
  lines := by
    have hTile := nextVTile_position fb.vTile vCmd
    simp only [vPosition]
    omega
  screenColor := rfl
  border := rfl
  palette := rfl

/-- A move of the visible content by `n` pixels in a direction, as lines and columns around the ends (R93, R96). -/
def pixelMove (n : Nat) : Direction → Nat × Nat
  | .left => (0, n)
  | .right => (0, 300 - n)
  | .up => (n, 0)
  | .down => (216 - n, 0)

/-- The size of a tile along a direction's axis. -/
def tileSize (d : Direction) : Nat := if isHorizontal d then 6 else 12

/-- A coarse wrap scroll moves by one tile (R94). -/
theorem coarseScroll_scrolledBy (P : Params) (d : Direction) (color : Nat) (s : State) :
    ScrolledBy (pixelMove (tileSize d) d).1 (pixelMove (tileSize d) d).2 s.fb (coarseScroll P d color true s).fb := by
  rw [coarseScroll_fb]
  cases d <;> exact scrolledBy_wrap s.fb rfl rfl

/-! ### `smoothScroll` (R96) -/

section
variable {d : Direction} {h v hc ho vc vo : Nat} (hfields : smoothFields d h v = (hc, ho, vc, vo)) (hh : h < 6)
  (hv : v < 12)
include hfields hh hv

theorem smoothFields_bounds : hc ≤ 2 ∧ ho < 6 ∧ vc ≤ 2 ∧ vo < 12 := by
  obtain ⟨hhc, hho, hvc, hvo⟩ := smoothFields_le d (Nat.le_of_lt_succ hh) (Nat.le_of_lt_succ hv)
  rw [hfields] at hhc hho hvc hvo
  exact ⟨hhc, Nat.lt_succ_of_le hho, hvc, Nat.lt_succ_of_le hvo⟩

/-- The fine offset and the coarse move of a smooth scroll's packet make up a move by one pixel, with or without a
carry. -/
theorem smoothFields_move :
    (h + (pixelMove 1 d).2) % 300 = (ho + coarseMove (BitVec.ofNat 2 hc) 300 6) % 300 ∧
      (v + (pixelMove 1 d).1) % 216 = (vo + coarseMove (BitVec.ofNat 2 vc) 216 12) % 216 := by
  cases d
  all_goals
    simp only [smoothFields] at hfields
    split at hfields <;> cases hfields <;> simp [pixelMove, coarseMove] <;> omega

end

/-- A smooth scroll is its packet, and nothing else differs (R96). -/
theorem smoothScroll_frame {P : Params} {d : Direction} {s : State} {hc ho vc vo : Nat}
    (hfields : smoothFields d s.fb.hOff.val s.fb.vOff.val = (hc, ho, vc, vo)) (hhc : hc ≤ 2) (hho : ho < 6)
    (hvc : vc ≤ 2) (hvo : vo < 12) : smoothScroll P d s = { s with
      fb := { s.fb with
        canvas := shiftCanvas s.fb.canvas (BitVec.ofNat 2 hc) (BitVec.ofNat 2 vc) .wrap
        hTile := nextHTile s.fb.hTile (BitVec.ofNat 2 hc)
        vTile := nextVTile s.fb.vTile (BitVec.ofNat 2 vc)
        hOff := ⟨ho, hho⟩
        vOff := ⟨vo, hvo⟩ }
      buffer := s.buffer ++ packetBytes P Config.SCROLL_COPY
        (pad16 [0, BitVec.ofNat 8 (16 * hc + ho), BitVec.ofNat 8 (16 * vc + vo)]) } := by
  rw [smoothScroll, hfields]
  exact issue_scrollBytes P true 0 hhc hho hvc hvo s

/-- The visible content moves by exactly one pixel, with or without a carry (R96). -/
theorem smoothScroll_scrolledBy (P : Params) (d : Direction) (s : State) :
    ScrolledBy (pixelMove 1 d).1 (pixelMove 1 d).2 s.fb (smoothScroll P d s).fb := by
  rcases hfields : smoothFields d s.fb.hOff.val s.fb.vOff.val with ⟨hc, ho, vc, vo⟩
  obtain ⟨hhc, hho, hvc, hvo⟩ := smoothFields_bounds hfields s.fb.hOff.isLt s.fb.vOff.isLt
  obtain ⟨hx, hy⟩ := smoothFields_move hfields s.fb.hOff.isLt s.fb.vOff.isLt
  rw [smoothScroll_frame hfields hhc hho hvc hvo]
  exact scrolledBy_wrap s.fb hx hy

/-- Settles O34: the fields of the packet, whose frame gives every register, and the move by one pixel. -/
theorem smoothScrollRule : Obligations.SmoothScrollRule := by
  intro d s h v hc ho vc vo
  have hh : h < 6 := s.fb.hOff.isLt
  have hv : v < 12 := s.fb.vOff.isLt
  have hfields : smoothFields d h v = (hc, ho, vc, vo) := by
    cases d
    all_goals
      simp only [smoothFields, hc, ho, vc, vo]
      split <;> simp <;> omega
  clear_value hc ho vc vo
  obtain ⟨hhc, hho, hvc, hvo⟩ := smoothFields_bounds hfields hh hv
  have hview := (smoothScroll_scrolledBy Config.live d s).view
  rw [smoothScroll_frame hfields hhc hho hvc hvo] at hview
  rw [exec_smoothScroll, answer_ok, smoothScroll_frame hfields hhc hho hvc hvo]
  refine ⟨_, rfl, fun y x _ _ => (hview y x).trans ?_, ?_, rfl, rfl, nextHTile_ofNat _ hhc, nextVTile_ofNat _ hvc, rfl⟩
  · cases d <;> simp only [pixelMove, view_mod_line, view_mod_column, Nat.add_zero]
  · rintro rfl rfl
    exact shiftCanvas_none s.fb.canvas .wrap

/-! ### A full turn (R97) -/

/-- `Issue` appends one packet, 24 bytes (R65). -/
theorem issue_buffer_length (P : Params) (code : BitVec 6) {p : List Byte} (hp : p.length ≤ 16) (s : State) :
    (issue P code p s).buffer.length = s.buffer.length + 24 := by
  rw [issue_buffer, List.length_append, packetBytes_length P code (pad16_length hp)]

/-- What repeats over a run of one instruction: each execution scrolls by the same move and appends one packet. -/
theorem runAll_replicate_scrolledBy {i : Instr} {dy dx : Nat}
    (hstep : ∀ s, ∃ t, exec i s = .next t ∧ ScrolledBy dy dx s.fb t.fb ∧ t.buffer.length = s.buffer.length + 24)
    (n : Nat) (s : State) : ∃ t, runAll (List.replicate n i) s = .next t ∧
      ScrolledBy (n * dy) (n * dx) s.fb t.fb ∧ t.buffer.length = s.buffer.length + 24 * n := by
  induction n generalizing s with
  | zero => exact ⟨s, rfl, by simpa using ScrolledBy.refl, rfl⟩
  | succ n ih =>
    obtain ⟨u, hu, hmove, hlen⟩ := hstep s
    obtain ⟨t, ht, hmove', hlen'⟩ := ih u
    refine ⟨t, (runAll_cons hu _).trans ht, ?_, by omega⟩
    rw [Nat.succ_mul, Nat.succ_mul, Nat.add_comm _ dy, Nat.add_comm _ dx]
    exact hmove.trans hmove'

theorem exec_scroll_scrolledBy (d : Direction) {color : Nat} (hcol : color ≤ 15) (s : State) :
    ∃ t, exec (.scroll d color none true) s = .next t ∧
      ScrolledBy (pixelMove (tileSize d) d).1 (pixelMove (tileSize d) d).2 s.fb t.fb ∧
      t.buffer.length = s.buffer.length + 24 := by
  rw [exec_scroll, scroll_coarse _ _ _ _ hcol, answer_ok]
  refine ⟨_, rfl, coarseScroll_scrolledBy Config.live d color s, ?_⟩
  exact issue_buffer_length _ _ (by simp [scrollBytes]) s

theorem exec_smoothScroll_scrolledBy (d : Direction) (s : State) :
    ∃ t, exec (.smoothScroll d) s = .next t ∧ ScrolledBy (pixelMove 1 d).1 (pixelMove 1 d).2 s.fb t.fb ∧
      t.buffer.length = s.buffer.length + 24 := by
  rw [exec_smoothScroll, answer_ok]
  refine ⟨_, rfl, smoothScroll_scrolledBy Config.live d s, ?_⟩
  exact issue_buffer_length _ _ (by simp [scrollBytes]) s

/-- Settles O35: as many moves as a direction's axis has tiles, or pixels, are whole turns. -/
theorem wrapScrollIsPeriodic : Obligations.WrapScrollIsPeriodic := by
  intro d color s hcol tiles pixels
  obtain ⟨t, ht, hmove, hlen⟩ := runAll_replicate_scrolledBy (exec_scroll_scrolledBy d hcol) tiles s
  obtain ⟨u, hu, hmove', hlen'⟩ := runAll_replicate_scrolledBy (exec_smoothScroll_scrolledBy d) pixels s
  refine ⟨⟨t, ht, hmove.eq_of_turn ?_ ?_, hlen⟩, ⟨u, hu, hmove'.eq_of_turn ?_ ?_, hlen'⟩⟩
  all_goals
    simp only [tiles, pixels]
    cases d <;> rfl

end Sys2Proof.Machine
end

section
/-! The palette, fade and image family (spec/43_palette_fade_image.md R99 to R108): scaling a colour, the slots and the
load of half a palette, the fades, the two-colour reduction of a block, and the image scroll as a script of commands. -/

namespace Sys2Proof.Machine

/-! ### Scaling a colour (R103) -/

theorem scaledChannel_le (n : Nat) {num den : Nat} (h : num ≤ den) : n * num / den ≤ n :=
  Nat.div_le_of_le_mul (Nat.mul_comm den n ▸ Nat.mul_le_mul_left n h)

/-- Three 4-bit channels put side by side are their sum by place value. -/
theorem channels_eq_sum (r : Nat) {g b : Nat} (hg : g < 16) (hb : b < 16) :
    r <<< 8 ||| g <<< 4 ||| b = 256 * r + 16 * g + b := by
  rw [Nat.or_assoc, ← Nat.shiftLeft_add_eq_or_of_lt (i := 4) hb, Nat.shiftLeft_eq g,
    ← Nat.shiftLeft_add_eq_or_of_lt (i := 8) (by omega), Nat.shiftLeft_eq]
  omega

theorem scaleColor_eq (v : Nat) {num den : Nat} (h : num ≤ den) : scaleColor v num den =
    256 * (v / 256 % 16 * num / den) + 16 * (v / 16 % 16 * num / den) + v % 16 * num / den := by
  have channel_lt (n : Nat) : n % 16 * num / den < 16 := (scaledChannel_le _ h).trans_lt (Nat.mod_lt n (by decide))
  rw [scaleColor, Nat.shiftRight_eq_div_pow, Nat.shiftRight_eq_div_pow]
  exact channels_eq_sum _ (channel_lt _) (channel_lt _)

theorem scaleColor_full {v den : Nat} (hv : v ≤ 0xFFF) (hden : 0 < den) : scaleColor v den den = v := by
  simp only [scaleColor_eq v le_rfl, Nat.mul_div_cancel _ hden]
  omega

theorem scaleColor_zero (v den : Nat) : scaleColor v 0 den = 0 := by simp [scaleColor]

/-- Settles O37: the scaled channels stay within four bits, so that division reads them back from the sum. -/
theorem scaleChannels : Obligations.ScaleChannels := by
  intro v num den hv hnum hden
  have hred : v / 256 % 16 = v / 256 := Nat.mod_eq_of_lt (by omega)
  have hg := scaledChannel_le (v / 16 % 16) hnum
  have hb := scaledChannel_le (v % 16) hnum
  refine ⟨?_, ?_, ?_, scaleColor_le hnum, scaleColor_full hv hden, scaleColor_zero v den⟩
  all_goals
    rw [scaleColor_eq v hnum, hred]
    generalize v / 256 * num / den = r, v / 16 % 16 * num / den = g, v % 16 * num / den = b at *
    omega

/-! ### The slots of a half load (R102) -/

theorem mem_drop_range {m n k : Nat} : k ∈ (List.range m).drop n ↔ k < m ∧ n ≤ k := by
  simp only [List.range_eq_range', List.drop_range', List.mem_range'_1]
  omega

/-- The colour of slot `k` of a half load that is not ambiguous: supplied, repeated or retained (R102). -/
def slotColor (pal : Palette) (palette : List Nat) (dup : Bool) (base k : Nat) : Nat :=
  if k < palette.length then palette.getD k 0
  else if dup then palette.getD (k % palette.length) 0
  else (paletteEntry pal (base + k)).getD 0

section
variable (pal : Palette) {palette : List Nat} {dup : Bool} {base : Nat}

theorem retained_length (n : Nat) : (retained pal base n).length = 8 - n := by simp [retained]

theorem retained_all_isSome {n : Nat} : (retained pal base n).all (·.isSome) = true ↔
    ∀ k < 8, n ≤ k → paletteEntry pal (base + k) ≠ none := by
  simp only [retained, List.all_map, List.all_eq_true, mem_drop_range, Function.comp_apply, Option.isSome_iff_ne_none,
    and_imp]

theorem halfSlots_out_of_range (h : 8 < palette.length ∨ ∃ v ∈ palette, 0xFFF < v) :
    halfSlots pal palette dup base = .error .paletteRangeError := by
  rw [halfSlots]
  obtain h | ⟨v, hv, hlt⟩ := h
  · rw [if_pos h]
  · have hall : ¬ (palette.all fun v => decide (v ≤ 0xFFF)) = true := fun hall =>
      absurd (of_decide_eq_true (List.all_eq_true.1 hall v hv)) (by omega)
    rw [if_neg hall, ite_self]

variable (hval : ∀ v ∈ palette, v ≤ 0xFFF)
include hval

theorem halfSlots_ambiguous (hlen : palette.length < 8)
    (h : (dup = true ∧ palette.length = 0) ∨
      (dup = false ∧ ∃ k < 8, palette.length ≤ k ∧ paletteEntry pal (base + k) = none)) :
    halfSlots pal palette dup base = .error .ambiguousFill := by
  rw [halfSlots, if_neg (by omega), if_pos (by simpa using hval), if_neg (by omega)]
  obtain ⟨rfl, hempty⟩ | ⟨rfl, k, hk, hle, hnone⟩ := h
  · rw [if_pos rfl, if_pos hempty]
  · rw [if_neg Bool.false_ne_true, if_neg fun hall => (retained_all_isSome pal).1 hall k hk hle hnone]

theorem halfSlots_full (hlen : palette.length = 8) :
    halfSlots pal palette dup base = .ok ((List.range 8).map (slotColor pal palette dup base)) := by
  rw [halfSlots, if_neg (by omega), if_pos (by simpa using hval), if_pos hlen]
  refine congrArg Except.ok (List.ext_getElem (by simpa using hlen) fun k hk _ => ?_)
  simp [slotColor, hk]

theorem halfSlots_repeated (hlen : palette.length < 8) (hpos : 0 < palette.length) :
    halfSlots pal palette true base = .ok ((List.range 8).map (slotColor pal palette true base)) := by
  rw [halfSlots, if_neg (by omega), if_pos (by simpa using hval), if_neg (by omega), if_pos rfl, if_neg (by omega)]
  refine congrArg Except.ok (List.map_congr_left fun k _ => ?_)
  rw [slotColor, if_pos rfl]
  split_ifs with hk
  · rw [Nat.mod_eq_of_lt hk]
  · rfl

theorem halfSlots_retained (hlen : palette.length < 8)
    (h : ∀ k < 8, palette.length ≤ k → paletteEntry pal (base + k) ≠ none) :
    halfSlots pal palette false base = .ok ((List.range 8).map (slotColor pal palette false base)) := by
  have hall := (retained_all_isSome pal).2 h
  have hsome : (retained pal base palette.length).filterMap id =
      (retained pal base palette.length).map (Option.getD · 0) := by
    refine List.filterMap_eq_map_iff_forall_eq_some.2 fun e he => ?_
    obtain ⟨v, rfl⟩ := Option.isSome_iff_exists.1 (List.all_eq_true.1 hall e he)
    rfl
  rw [halfSlots, if_neg (by omega), if_pos (by simpa using hval), if_neg (by omega), if_neg Bool.false_ne_true,
    if_pos hall, hsome]
  have hcount : palette.length + (8 - palette.length) = 8 := by omega
  refine congrArg Except.ok (List.ext_getElem (by simpa [retained_length] using hcount) fun k hk _ => ?_)
  simp only [retained, slotColor, List.getElem_append, List.getElem_map, List.getElem_drop, List.getElem_range,
    Bool.false_eq_true, if_false]
  split_ifs with hlt
  · simp [hlt]
  · rw [Nat.add_sub_cancel' (not_lt.1 hlt)]

theorem halfSlots_ok (hlen : palette.length ≤ 8)
    (h : palette.length = 8 ∨ (dup = true ∧ 0 < palette.length) ∨
      (dup = false ∧ ∀ k < 8, palette.length ≤ k → paletteEntry pal (base + k) ≠ none)) :
    halfSlots pal palette dup base = .ok ((List.range 8).map (slotColor pal palette dup base)) := by
  obtain h8 | hlt := hlen.eq_or_lt
  · exact halfSlots_full pal hval h8
  · obtain h8 | ⟨rfl, hpos⟩ | ⟨rfl, hkeep⟩ := h
    · exact halfSlots_full pal hval h8
    · exact halfSlots_repeated pal hval hlt hpos
    · exact halfSlots_retained pal hval hlt hkeep

end

/-! ### Loading half of the palette (R99 to R101) -/

/-- The first entry of a half of the palette. -/
def halfBase (high : Bool) : Nat := if high then 8 else 0

/-- The packet that loads a half of the palette (R75, R76). -/
def halfCode (high : Bool) : BitVec 6 := if high then Config.LOAD_CLUT_HIGH else Config.LOAD_CLUT_LOW

theorem packColors_eq (colors : List Nat) : packColors colors = colorBytes colors := by
  have hand : ∀ v : Nat, v &&& 0x3F = v % 64 := fun v => Nat.and_two_pow_sub_one_eq_mod v 6
  simp only [packColors, colorBytes, Nat.shiftRight_eq_div_pow, hand, Nat.reducePow]

theorem exec_paletteHalf (high dup : Bool) (palette : List Nat) (s : State) :
    exec (if high then .paletteHigh palette dup else .paletteLow palette dup) s =
      answer s ((halfSlots s.fb.palette palette dup (halfBase high)).map fun slots =>
        issue Config.live (halfCode high) (packColors slots) s) := by
  cases high
  · simp only [Bool.false_eq_true, if_false, exec_paletteLow, paletteLow, halfBase]
    cases halfSlots s.fb.palette palette dup 0 <;> rfl
  · simp only [if_true, exec_paletteHigh, paletteHigh, halfBase]
    cases halfSlots s.fb.palette palette dup 8 <;> rfl

section
variable (P : Params) (high : Bool) {colors : List Nat} (hl : colors.length = 8) (h : ∀ v ∈ colors, v ≤ 0xFFF)
  (s : State)
include hl h

/-- Eight 12-bit colours, loaded into a half of the palette by one packet (R75, R76, R99). -/
theorem issue_halfCode : issue P (halfCode high) (packColors colors) s = { s with
    fb := { s.fb with
      palette := loadHalf (halfBase high) (tabulate 8 fun k => BitVec.ofNat 12 (colors.getD k 0)) s.fb.palette }
    buffer := s.buffer ++ packetBytes P (halfCode high) (pad16 (colorBytes colors)) } := by
  rw [issue, pad16_of_length (packColors_issue_ok hl h).1, ← packColors_eq,
    pad16_of_length (packColors_issue_ok hl h).1, ← fieldColors_packColors hl h]
  cases high <;> rfl

/-- A half load writes its eight entries and no other. -/
theorem entryOf_issue_halfCode {k : Nat} (hk : k < 8) :
    entryOf (issue P (halfCode high) (packColors colors) s) (halfBase high + k) =
        some (BitVec.ofNat 12 (colors.getD k 0)) ∧
      entryOf (issue P (halfCode high) (packColors colors) s) (8 - halfBase high + k) =
        entryOf s (8 - halfBase high + k) := by
  have hbase : halfBase high = 0 ∨ halfBase high = 8 := by cases high <;> decide
  rw [issue_halfCode P high hl h, entryOf_eq _ (by omega), entryOf_eq _ (by omega), entryOf_eq _ (by omega),
    loadHalf_getElem, loadHalf_getElem, dif_pos (by omega), dif_neg (by omega)]
  simp only [tabulate_getElem, Nat.add_sub_cancel_left, and_self]

/-- The eight colours of a half load can be read back from the palette. -/
theorem colors_issue_halfCode : ((List.range 8).map fun k =>
    ((entryOf (issue P (halfCode high) (packColors colors) s) (halfBase high + k)).getD 0).toNat) = colors := by
  refine List.ext_getElem (by simpa using hl.symm) fun k hk hk' => ?_
  have hle := h _ (List.getElem_mem hk')
  rw [List.getElem_map, List.getElem_range, (entryOf_issue_halfCode P high hl h s (by omega)).1,
    List.getD_eq_getElem _ _ hk', Option.getD_some, BitVec.toNat_ofNat, Nat.mod_eq_of_lt (by omega)]

/-- A half load writes the palette and appends one packet, that of the eight colours it leaves in its half (R99). -/
theorem issue_halfCode_frame : issue P (halfCode high) (packColors colors) s = { s with
    fb := { s.fb with palette := (issue P (halfCode high) (packColors colors) s).fb.palette }
    buffer := s.buffer ++ packetBytes P (halfCode high) (pad16 (colorBytes ((List.range 8).map fun k =>
      ((entryOf (issue P (halfCode high) (packColors colors) s) (halfBase high + k)).getD 0).toNat))) } := by
  rw [colors_issue_halfCode P high hl h, issue_halfCode P high hl h]

end

/-- An entry loaded with the colour of a slot that is not ambiguous: a retained slot keeps its entry (R102). -/
theorem ofNat_slotColor (s : State) {palette : List Nat} {dup : Bool} {base : Nat}
    (h : palette.length = 8 ∨ (dup = true ∧ 0 < palette.length) ∨
      (dup = false ∧ ∀ k < 8, palette.length ≤ k → entryOf s (base + k) ≠ none)) {k : Nat} (hk : k < 8) :
    some (BitVec.ofNat 12 (slotColor s.fb.palette palette dup base k)) =
      if k < palette.length then some (BitVec.ofNat 12 (palette.getD k 0))
      else if dup then some (BitVec.ofNat 12 (palette.getD (k % palette.length) 0))
      else entryOf s (base + k) := by
  unfold slotColor
  split_ifs with hlt hdup
  · rfl
  · rfl
  · obtain h8 | ⟨htrue, -⟩ | ⟨-, hkeep⟩ := h
    · omega
    · exact absurd htrue hdup
    · obtain ⟨c, hc⟩ := Option.ne_none_iff_exists'.1 (hkeep k hk (not_lt.1 hlt))
      have hentry : paletteEntry s.fb.palette (base + k) = some c.toNat := congrArg (Option.map _) hc
      rw [hentry, hc, Option.getD_some, BitVec.ofNat_toNat, BitVec.setWidth_eq]

theorem paletteEntry_eq_none (s : State) (k : Nat) : paletteEntry s.fb.palette k = none ↔ entryOf s k = none :=
  Option.map_eq_none_iff

/-- Settles O36: the slots decide between the two errors and the load of one half. -/
theorem paletteHalfRule : Obligations.PaletteHalfRule := by
  intro high dup palette s i base n
  have hexec : exec i s = answer s ((halfSlots s.fb.palette palette dup base).map fun slots =>
    issue Config.live (halfCode high) (packColors slots) s) := exec_paletteHalf high dup palette s
  simp only [hexec]
  refine ⟨fun h => ?_, fun hlen hval h => ?_, fun hlen hval h => ?_⟩
  · rw [halfSlots_out_of_range _ h]
    rfl
  · rw [halfSlots_ambiguous _ hval hlen (by simpa only [paletteEntry_eq_none] using h)]
    rfl
  · have hslots := halfSlots_ok s.fb.palette hval hlen (by simpa only [ne_eq, paletteEntry_eq_none] using h)
    obtain ⟨hl, hle⟩ := halfSlots_inv hslots
    rw [hslots]
    refine ⟨_, rfl, fun k hk => ?_, congrArg (State.setResult · (some .ok)) (issue_halfCode_frame _ high hl hle s)⟩
    obtain ⟨hloaded, hkept⟩ := entryOf_issue_halfCode Config.live high hl hle s hk
    refine ⟨hloaded.trans ?_, hkept⟩
    rw [← ofNat_slotColor s h hk, List.getD_eq_getElem _ _ (by simpa using hk), List.getElem_map, List.getElem_range]

/-! ### Fades (R104, R105) -/

theorem checkFade_short {palette : List Nat} (h : palette.length < 16) : checkFade palette = .error .ambiguousFill :=
  if_pos h

theorem checkFade_out_of_range {palette : List Nat}
    (h : 16 < palette.length ∨ (palette.length = 16 ∧ ∃ v ∈ palette, 0xFFF < v)) :
    checkFade palette = .error .paletteRangeError := by
  rw [checkFade, if_neg (by omega)]
  obtain h | ⟨hlen, hv⟩ := h
  · rw [if_pos h]
  · rw [if_neg (by omega), if_neg (by simpa using hv)]

theorem checkFade_ok {palette : List Nat} (hlen : palette.length = 16) (h : ∀ v ∈ palette, v ≤ 0xFFF) :
    checkFade palette = .ok () := by
  rw [checkFade, if_neg (by omega), if_neg (by omega), if_pos (by simpa using h)]

/-- The palette whose sixteen entries are the given colours. -/
def paletteOf (colors : List Nat) : Palette := tabulate 16 fun k => some (BitVec.ofNat 12 (colors.getD k 0))

/-- Two half loads write all sixteen entries, whatever was there. -/
theorem loadHalf_both (colors : List Nat) (pal : Palette) :
    loadHalf 8 (tabulate 8 fun k => BitVec.ofNat 12 ((colors.drop 8).getD k 0))
      (loadHalf 0 (tabulate 8 fun k => BitVec.ofNat 12 ((colors.take 8).getD k 0)) pal) = paletteOf colors := by
  refine Vector.ext fun k hk => ?_
  rw [loadHalf_getElem _ _ _ _ hk, loadHalf_getElem _ _ _ _ hk, paletteOf, tabulate_getElem _ _ _ hk]
  by_cases h8 : 8 ≤ k
  · simp [h8, hk]
  · simp [h8, Nat.not_le.1 h8]

theorem fadeBytes_cons (speed : Nat) (palette : List Nat) (k : Nat) (rest : List Nat) :
    fadeBytes speed palette (k :: rest) = fadeBytes speed palette [k] ++ fadeBytes speed palette rest :=
  List.flatMap_append (xs := [k]) (ys := rest)

section
variable (speed : Nat) {palette : List Nat} (hl : palette.length = 16)
include hl

/-- One step of a fade: both halves are loaded, after the padding, and nothing else changes. -/
theorem fadeStep_eq {level : Nat} (hlev : level ≤ 15) (s : State) :
    fadeStep Config.live speed (fadeColors palette level) s = { s with
      fb := { s.fb with palette := paletteOf (fadeColors palette level) }
      buffer := s.buffer ++ fadeBytes speed palette [level] } := by
  have hlen : (fadeColors palette level).length = 16 := (List.length_map _).trans hl
  have hle : ∀ v ∈ fadeColors palette level, v ≤ 0xFFF := fun v hv => by
    obtain ⟨w, -, rfl⟩ := List.mem_map.1 hv
    exact scaleColor_le hlev
  have hlow : ∀ t, loadLow Config.live ((fadeColors palette level).take 8) t = _ :=
    issue_halfCode _ false (by simp [hlen]) fun v hv => hle v (List.mem_of_mem_take hv)
  have hhigh : ∀ t, loadHigh Config.live ((fadeColors palette level).drop 8) t = _ :=
    issue_halfCode _ true (by simp [hlen]) fun v hv => hle v (List.mem_of_mem_drop hv)
  rw [fadeStep, padSlots_eq, hlow, hhigh, ← loadHalf_both _ s.fb.palette, fadeBytes, List.flatMap_singleton,
    List.map_take, List.map_drop]
  simp only [setBuffer_buffer, List.append_assoc]
  rfl

/-- A fade leaves the palette of its last step, and appends the bytes of every step. -/
theorem fadeThrough_eq {levels : List Nat} (hlev : ∀ k ∈ levels, k ≤ 15) (s : State) :
    fadeThrough Config.live speed palette levels s = { s with
      fb := { s.fb with palette := levels.foldl (fun _ k => paletteOf (fadeColors palette k)) s.fb.palette }
      buffer := s.buffer ++ fadeBytes speed palette levels } := by
  induction levels generalizing s with
  | nil => simp [fadeThrough, fadeBytes]
  | cons k rest ih =>
    obtain ⟨hk, hrest⟩ := List.forall_mem_cons.1 hlev
    have hfirst : fadeThrough Config.live speed palette (k :: rest) s =
      fadeThrough Config.live speed palette rest (fadeStep Config.live speed (fadeColors palette k) s) := rfl
    rw [hfirst, ih hrest, fadeStep_eq speed hl hk, fadeBytes_cons speed palette k rest, List.append_assoc]
    rfl

end

theorem emitted_length (code : BitVec 6) {p : List Byte} (h : p.length ≤ 16) : (emitted code p).length = 24 :=
  packetBytes_length _ _ (pad16_length h)

theorem colorBytes_length (colors : List Nat) : (colorBytes colors).length = 2 * colors.length := by
  rw [← packColors_eq, packColors_length]

theorem fadeBytes_length (speed : Nat) {palette : List Nat} (hl : palette.length = 16) (levels : List Nat) :
    (fadeBytes speed palette levels).length = 24 * (levels.length * max speed 2) := by
  induction levels with
  | nil => simp [fadeBytes]
  | cons k rest ih =>
    have hload (code : BitVec 6) {colors : List Nat} (hc : colors.length = 8) :
        (emitted code (colorBytes colors)).length = 24 := emitted_length code (by rw [colorBytes_length, hc])
    have hstep : (fadeBytes speed palette [k]).length = 24 * max speed 2 := by
      rw [fadeBytes, List.flatMap_singleton, List.length_append, List.length_append, hload _ (by simp [hl]),
        hload _ (by simp [hl]), List.length_flatten, List.map_replicate, List.sum_replicate_nat,
        emitted_length _ (p := []) (by decide)]
      omega
    rw [fadeBytes_cons, List.length_append, ih, hstep, List.length_cons]
    ring

theorem entryOf_paletteOf {s : State} {colors : List Nat} (h : s.fb.palette = paletteOf colors) {k : Nat}
    (hk : k < 16) : entryOf s k = some (BitVec.ofNat 12 (colors.getD k 0)) := by
  rw [entryOf_eq s hk]
  simp [h, paletteOf]

theorem fadeColors_full {palette : List Nat} (h : ∀ v ∈ palette, v ≤ 0xFFF) : fadeColors palette 15 = palette :=
  (List.map_congr_left fun v hv => scaleColor_full (h v hv) (by decide)).trans (List.map_id' palette)

theorem fadeColors_zero_getD (palette : List Nat) (k : Nat) : (fadeColors palette 0).getD k 0 = 0 := by
  simp [fadeColors, scaleColor_zero]

/-- Settles O38: the operand's checks, and the palette of the last step, at full scale or at none. -/
theorem fadeRule : Obligations.FadeRule := by
  intro out speed palette s i levels
  have hexec : exec i s = answer s (fade Config.live levels speed palette s) := by cases out <;> rfl
  have hlev : ∀ k ∈ levels, k ≤ 15 := by cases out <;> decide
  simp only [hexec]
  refine ⟨fun h => ?_, fun h => ?_, fun hl h => ?_⟩
  · rw [fade, checkFade_short h]
    rfl
  · rw [fade, checkFade_out_of_range h]
    rfl
  · rw [fade, checkFade_ok hl h]
    have hfade := fadeThrough_eq speed hl hlev s
    refine ⟨_, rfl, fun k hk => ?_, ?_, ?_⟩
    · cases out with
      | false =>
        have hlast := entryOf_paletteOf (colors := fadeColors palette 15) (congrArg (·.fb.palette) hfade) hk
        rwa [fadeColors_full h] at hlast
      | true =>
        have hlast := entryOf_paletteOf (colors := fadeColors palette 0) (congrArg (·.fb.palette) hfade) hk
        rwa [fadeColors_zero_getD] at hlast
    · have hsteps : levels.length = 15 := by cases out <;> rfl
      rw [setResult_buffer, hfade, List.length_append, fadeBytes_length speed hl, hsteps]
    · rw [hfade]
      rfl

/-! ### The reduction of an image tile (R106) -/

theorem mostFrequent_eq_none (count : Nat → Nat) {vs : List Nat} (h : mostFrequent count vs = none) : vs = [] := by
  cases vs with
  | nil => rfl
  | cons v rest =>
    rw [mostFrequent] at h
    split at h
    · cases h
    · split at h <;> cases h

/-- In an increasing list, the most frequent colour is the smallest of those with the largest count. -/
theorem mostFrequent_spec (count : Nat → Nat) {vs : List Nat} (hvs : vs.Pairwise (· < ·)) {a : Nat}
    (h : mostFrequent count vs = some a) : ∀ v ∈ vs, count v ≤ count a ∧ (count v = count a → a ≤ v) := by
  induction vs generalizing a with
  | nil => cases h
  | cons u rest ih =>
    obtain ⟨hu, hrest⟩ := List.pairwise_cons.1 hvs
    rw [mostFrequent] at h
    split at h
    next hnone =>
      cases h
      simp [mostFrequent_eq_none count hnone]
    next w hw =>
      have hlt := hu w (mostFrequent_mem count hw)
      have hmax := ih hrest hw
      split at h
      next hle =>
        cases h
        refine List.forall_mem_cons.2 ⟨⟨le_rfl, fun _ => le_rfl⟩, fun v hv => ⟨(hmax v hv).1.trans hle, fun _ => ?_⟩⟩
        exact (hu v hv).le
      next hle =>
        cases h
        exact List.forall_mem_cons.2 ⟨⟨(not_le.1 hle).le, fun heq => absurd heq.ge hle⟩, hmax⟩

section
variable (block : Nat → Nat → Nat)

theorem mem_blockPixels {v : Nat} : v ∈ blockPixels block ↔ ∃ j < 12, ∃ i < 6, block j i = v := by
  simp [blockPixels]

theorem countColor_pos {v : Nat} : 0 < countColor block v ↔ ∃ j < 12, ∃ i < 6, block j i = v :=
  List.count_pos_iff.trans (mem_blockPixels block)

theorem countColor_eq_all {v : Nat} : countColor block v = 72 ↔ ∀ j < 12, ∀ i < 6, block j i = v := by
  have hlen : (blockPixels block).length = 72 := rfl
  rw [countColor, ← hlen, List.count_eq_length]
  simp only [mem_blockPixels]
  exact ⟨fun h j hj i hi => (h _ ⟨j, hj, i, hi, rfl⟩).symm, fun h _ ⟨j, hj, i, hi, hv⟩ => (h j hj i hi).symm.trans hv⟩

theorem dominantColor_spec {v : Nat} (hv : v ≤ 15) : countColor block v ≤ countColor block (dominantColor block) ∧
    (countColor block v = countColor block (dominantColor block) → dominantColor block ≤ v) := by
  rw [dominantColor]
  cases h : mostFrequent (countColor block) (List.range 16) with
  | none => exact absurd (mostFrequent_eq_none _ h) (by decide)
  | some a => exact mostFrequent_spec _ List.pairwise_lt_range h v (List.mem_range.2 (by omega))

theorem secondColor_one_color (h : countColor block (dominantColor block) = 72) :
    secondColor block = dominantColor block := if_pos h

/-- The colours that can be colour B: those present other than A. -/
def otherColors : List Nat :=
  (List.range 16).filter fun v => decide (v ≠ dominantColor block) && decide (0 < countColor block v)

theorem mem_otherColors {v : Nat} :
    v ∈ otherColors block ↔ v ≤ 15 ∧ v ≠ dominantColor block ∧ 0 < countColor block v := by
  simp [otherColors, Nat.lt_succ_iff]

variable (hblock : ∀ j < 12, ∀ i < 6, block j i ≤ 15) (h : countColor block (dominantColor block) ≠ 72)
include hblock h

theorem mostFrequent_otherColors :
    mostFrequent (countColor block) (otherColors block) = some (secondColor block) := by
  have hsecond : secondColor block =
    (mostFrequent (countColor block) (otherColors block)).getD (dominantColor block) := if_neg h
  cases hb : mostFrequent (countColor block) (otherColors block) with
  | some b => rw [hsecond, hb, Option.getD_some]
  | none =>
    refine absurd ((countColor_eq_all block).2 fun j hj i hi => ?_) h
    by_contra hne
    have hmem := (mem_otherColors block).2 ⟨hblock j hj i hi, hne, (countColor_pos block).2 ⟨j, hj, i, hi, rfl⟩⟩
    simp [mostFrequent_eq_none _ hb] at hmem

theorem secondColor_mem : secondColor block ∈ otherColors block :=
  mostFrequent_mem _ (mostFrequent_otherColors block hblock h)

theorem secondColor_spec {v : Nat} (hv : v ≤ 15) (hne : v ≠ dominantColor block) :
    countColor block v ≤ countColor block (secondColor block) ∧
      (countColor block v = countColor block (secondColor block) → secondColor block ≤ v) := by
  obtain ⟨-, -, hpos⟩ := (mem_otherColors block).1 (secondColor_mem block hblock h)
  by_cases hcount : 0 < countColor block v
  · exact mostFrequent_spec _ (List.pairwise_lt_range.filter _) (mostFrequent_otherColors block hblock h) v
      ((mem_otherColors block).2 ⟨hv, hne, hcount⟩)
  · omega

end

/-- A pixel row is the number its six bits spell, the leftmost pixel the highest (R106). -/
theorem sum_pixelBits (b : Nat → Bool) : ((List.range 6).map fun i => (b i).toNat <<< (5 - i)).sum =
    Nat.ofBits fun k : Fin 6 => b (5 - k) := by
  change (b 0).toNat <<< 5 + ((b 1).toNat <<< 4 + ((b 2).toNat <<< 3 + ((b 3).toNat <<< 2 + ((b 4).toNat <<< 1 +
      ((b 5).toNat <<< 0 + 0))))) =
    2 * (2 * (2 * (2 * (2 * (2 * 0 + (b 0).toNat) + (b 1).toNat) + (b 2).toNat) + (b 3).toNat) + (b 4).toNat) +
      (b 5).toNat
  omega

theorem testBit_pixelSum (b : Nat → Bool) {i : Nat} (hi : i < 6) :
    ((List.range 6).map fun i => (b i).toNat <<< (5 - i)).sum.testBit (5 - i) = b i := by
  rw [sum_pixelBits, Nat.testBit_ofBits_lt _ _ (by omega), Nat.sub_sub_self (Nat.le_of_lt_succ hi)]

theorem testBit_reducedRows (block : Nat → Nat → Nat) {j i : Nat} (hj : j < 12) (hi : i < 6) :
    ((reducedRows block).getD j 0).testBit (5 - i) = decide (block j i ≠ dominantColor block) := by
  have htoNat : ∀ i, (if block j i = dominantColor block then 0 else 1) =
    (decide (block j i ≠ dominantColor block)).toNat := fun i => by simp [Bool.toNat, Bool.cond_not, Bool.cond_decide]
  rw [List.getD_eq_getElem _ _ ((reducedRows_ok block).1.symm ▸ hj)]
  simp only [reducedRows, List.getElem_map, List.getElem_range, htoNat]
  exact testBit_pixelSum (fun i => decide (block j i ≠ dominantColor block)) hi

/-- Among two colours, a pixel other than A is B, for both colours are present (R106). -/
theorem secondColor_of_two_colors {block : Nat → Nat → Nat} (hblock : ∀ j < 12, ∀ i < 6, block j i ≤ 15) {p q : Nat}
    (htwo : ∀ j < 12, ∀ i < 6, block j i = p ∨ block j i = q) {j i : Nat} (hj : j < 12) (hi : i < 6)
    (hne : block j i ≠ dominantColor block) : secondColor block = block j i := by
  have hpixel : 0 < countColor block (block j i) := (countColor_pos block).2 ⟨j, hj, i, hi, rfl⟩
  have hmany : countColor block (dominantColor block) ≠ 72 := fun hall =>
    hne ((countColor_eq_all block).1 hall j hj i hi)
  obtain ⟨-, hb, hbpos⟩ := (mem_otherColors block).1 (secondColor_mem block hblock hmany)
  have hapos := hpixel.trans_le (dominantColor_spec block (hblock j hj i hi)).1
  obtain ⟨ja, hja, ia, hia, ha⟩ := (countColor_pos block).1 hapos
  obtain ⟨jb, hjb, ib, hib, hb'⟩ := (countColor_pos block).1 hbpos
  have hx := htwo j hj i hi
  have hA := htwo ja hja ia hia
  have hB := htwo jb hjb ib hib
  omega

/-- Settles O39: the choice of both colours, the bits of the rows, and two colours reproduced from them. -/
theorem reductionRule : Obligations.ReductionRule := by
  intro block hblock count a b rows
  obtain ⟨hlen, hrows⟩ := reducedRows_ok block
  have hbit : ∀ j < 12, ∀ i < 6, (rows.getD j 0).testBit (5 - i) = decide (block j i ≠ a) := fun j hj i hi =>
    testBit_reducedRows block hj hi
  refine ⟨⟨dominantColor_le block, fun v hv => dominantColor_spec block hv⟩, secondColor_one_color block,
    fun hmany => ?_, ⟨hlen, fun j hj => ⟨?_, hbit j hj⟩⟩, fun ⟨p, q, htwo⟩ j hj i hi => ?_⟩
  · obtain ⟨hb, hne, hpos⟩ := (mem_otherColors block).1 (secondColor_mem block hblock hmany)
    exact ⟨hb, hne, hpos, fun v hv hva => secondColor_spec block hblock hmany hv hva⟩
  · rw [List.getD_eq_getElem _ _ (hlen.symm ▸ hj)]
    exact hrows _ (List.getElem_mem _)
  · rw [hbit j hj i hi]
    by_cases hpix : block j i = a
    · simp [hpix]
    · rw [if_pos (decide_eq_true hpix)]
      exact secondColor_of_two_colors hblock htwo hj hi hpix

/-! ### `scrollImageUp` and its script of commands (R107, R108) -/

theorem checkImage_shape {image : List (List Nat)}
    (h : image.length = 0 ∨ image.length % 12 ≠ 0 ∨ ∃ line ∈ image, line.length ≠ 300) :
    checkImage image = .error .outOfBounds := by
  obtain h | h | hline := h
  · exact if_pos (.inl h)
  · exact if_pos (.inr h)
  · have hall : ¬ (image.all fun line => decide (line.length = 300)) = true := by simpa using hline
    rw [checkImage, if_neg hall, ite_self]

section
variable {image : List (List Nat)} (hpos : 0 < image.length) (hmod : image.length % 12 = 0)
  (hlines : ∀ line ∈ image, line.length = 300)
include hpos hmod hlines

theorem checkImage_pixel (h : ∃ line ∈ image, ∃ v ∈ line, 15 < v) : checkImage image = .error .paletteRangeError := by
  rw [checkImage, if_neg (by omega), if_pos (by simpa using hlines), if_neg (by simpa using h)]

theorem checkImage_ok (h : ∀ line ∈ image, ∀ v ∈ line, v ≤ 15) : checkImage image = .ok () := by
  rw [checkImage, if_neg (by omega), if_pos (by simpa using hlines), if_pos (by simpa using h)]

end

theorem runAll_append {xs : List Instr} {s t : State} (h : runAll xs s = .next t) (ys : List Instr) :
    runAll (xs ++ ys) s = runAll ys t := by
  induction xs generalizing s with
  | nil =>
    cases h
    rfl
  | cons i rest ih =>
    rw [runAll] at h
    split at h
    next u hu => exact (runAll_cons hu _).trans (ih h)
    · cases h
    · cases h

/-- Running a script has the effect `f`, whatever the result before it, and its last command answers `ok`. -/
def Performs (script : List Instr) (f : State → State) : Prop :=
  ∀ s r, runAll script (s.setResult r) = .next ((f s).setResult (if script.isEmpty then r else some .ok))

theorem Performs.nil : Performs [] id := fun _ _ => rfl

theorem Performs.single {i : Instr} {f : State → State}
    (h : ∀ s r, exec i (s.setResult r) = .next ((f s).setResult (some .ok))) : Performs [i] f :=
  fun s r => runAll_cons (h s r) []

theorem Performs.append {xs ys : List Instr} {f g : State → State} (hf : Performs xs f) (hg : Performs ys g) :
    Performs (xs ++ ys) fun s => g (f s) := by
  intro s r
  rw [runAll_append (hf s r), hg]
  cases xs <;> cases ys <;> rfl

theorem Performs.foldl {α : Type} {script : α → List Instr} {f : State → α → State} {xs : List α}
    (h : ∀ a ∈ xs, Performs (script a) (f · a)) : Performs (xs.flatMap script) fun s => xs.foldl f s := by
  induction xs with
  | nil => exact .nil
  | cons a rest ih =>
    obtain ⟨ha, hrest⟩ := List.forall_mem_cons.1 h
    exact ha.append (ih hrest)

theorem performs_smoothScroll (d : Direction) : Performs [.smoothScroll d] (smoothScroll Config.live d) :=
  .single fun _ _ => rfl

theorem performs_delayTicks (n : Nat) : Performs [.delayTicks n] (padSlots Config.live n) :=
  .single fun s r => by
    rw [exec_delayTicks, answer_ok, padSlots_eq, padSlots_eq]
    rfl

/-- The command that draws the reduction of image tile (k, c) (R106, R108). -/
def imageTileCommand (image : List (List Nat)) (k c : Nat) : Instr :=
  .writeTile 17 c (dominantColor (imageTile image k c)) (secondColor (imageTile image k c))
    (reducedRows (imageTile image k c)) false

theorem performs_imageTileCommand (image : List (List Nat)) (k : Nat) {c : Nat} (hc : c < 50) :
    Performs [imageTileCommand image k c] (drawImageTile Config.live image k · c) := by
  obtain ⟨hlen, hrows⟩ := reducedRows_ok (imageTile image k c)
  refine .single fun s r => ?_
  have hcheck := checkTile_ok le_rfl (show c ≤ 49 by omega) (dominantColor_le (imageTile image k c))
    (secondColor_le (imageTile image k c)) hlen hrows
  rw [imageTileCommand, exec_writeTile, writeTile_ok _ hcheck]
  rfl

theorem performs_drawImageTiles (image : List (List Nat)) (k : Nat) :
    Performs ((List.range 50).map (imageTileCommand image k)) fun s =>
      (List.range 50).foldl (drawImageTile Config.live image k) s := by
  rw [List.map_eq_flatMap]
  exact .foldl fun c hc => performs_imageTileCommand image k (List.mem_range.1 hc)

theorem performs_scrollLines (speed n : Nat) :
    Performs (List.replicate n [Instr.smoothScroll .up, .delayTicks (max speed 1 - 1)]).flatten
      (scrollLines Config.live speed n) := by
  induction n with
  | zero => exact .nil
  | succ n ih => exact ((performs_smoothScroll .up).append (performs_delayTicks _)).append ih

theorem performs_imageScript (image : List (List Nat)) (speed : Nat) :
    Performs (imageScript image speed) fun s =>
      (List.range (image.length / 12)).foldl (showImageRow Config.live image speed) s :=
  .foldl fun k _ => (performs_drawImageTiles image k).append (performs_scrollLines speed 12)

theorem imageScript_ne_nil {image : List (List Nat)} (speed : Nat) (h : 0 < image.length / 12) :
    imageScript image speed ≠ [] := by
  simpa [imageScript] using ⟨0, h⟩

/-! ### What an image scroll changes (R108) -/

/-- The part of a state that an image scroll never writes: all but the canvas, the vertical offsets and the buffer. -/
def imageUntouched (s : State) :
    (Option ColorIndex × Option ColorIndex × Palette) × (Fin 6 × Fin 50) × (Fin 49 × Fin 17) × Pending ×
      Option Result :=
  ((s.fb.screenColor, s.fb.border, s.fb.palette), (s.fb.hOff, s.fb.hTile), (s.cursorCol, s.cursorRow), s.pending,
    s.result)

/-- `t` is reached from `s` by a part of an image scroll: `lines` lines up, in `packets` packets. -/
structure ImageStep (lines packets : Nat) (s t : State) : Prop where
  lines : vPosition t.fb = (vPosition s.fb + lines) % 216
  packets : t.buffer.length = s.buffer.length + 24 * packets
  untouched : imageUntouched t = imageUntouched s

theorem vPosition_mod (fb : Framebuffer) : vPosition fb % 216 = vPosition fb := by
  simp only [vPosition]
  omega

section
variable {lines packets lines' packets' : Nat} {s t u : State}

theorem ImageStep.refl : ImageStep 0 0 s s where
  lines := (vPosition_mod s.fb).symm
  packets := rfl
  untouched := rfl

theorem ImageStep.trans (h : ImageStep lines packets s t) (h' : ImageStep lines' packets' t u) :
    ImageStep (lines + lines') (packets + packets') s u where
  lines := by rw [h'.lines, h.lines, Nat.mod_add_mod, Nat.add_assoc]
  packets := by rw [h'.packets, h.packets, Nat.mul_add, Nat.add_assoc]
  untouched := h'.untouched.trans h.untouched

theorem ImageStep.foldl {α : Type} {f : State → α → State} (h : ∀ s a, ImageStep lines packets s (f s a)) (xs : List α)
    (s : State) : ImageStep (xs.length * lines) (xs.length * packets) s (xs.foldl f s) := by
  induction xs generalizing s with
  | nil => simpa using ImageStep.refl
  | cons a rest ih =>
    simpa only [List.length_cons, Nat.succ_mul, Nat.add_comm, List.foldl_cons] using (h s a).trans (ih (f s a))

/-- Scrolled by whole tiles, a state has moved its coarse vertical offset alone. -/
theorem ImageStep.eq_of_tiles {m : Nat} (h : ImageStep (m * 12) packets s t) :
    t.fb.vTile.val = (s.fb.vTile.val + m) % 18 ∧
      t = { s with fb := { s.fb with canvas := t.fb.canvas, vTile := t.fb.vTile }, buffer := t.buffer } := by
  obtain ⟨hlines, -, huntouched⟩ := h
  simp only [vPosition] at hlines
  have hvOff : t.fb.vOff = s.fb.vOff := by omega
  refine ⟨by omega, ?_⟩
  obtain ⟨⟨⟩⟩ := t
  cases hvOff
  cases huntouched
  rfl

end

section
variable (P : Params) (s : State)

theorem drawImageTile_imageStep (image : List (List Nat)) (k c : Nat) :
    ImageStep 0 1 s (drawImageTile P image k s c) where
  lines := (vPosition_mod s.fb).symm
  packets := issue_buffer_length P _ (by simp [(reducedRows_ok _).1]) s
  untouched := rfl

theorem padSlots_imageStep (n : Nat) : ImageStep 0 n s (padSlots P n s) := by
  induction n generalizing s with
  | zero => exact .refl
  | succ n ih =>
    have hissue : ImageStep 0 1 s (issue P Config.NOOP [] s) :=
      ⟨(vPosition_mod s.fb).symm, issue_buffer_length P _ (p := []) (by decide) s, rfl⟩
    rw [padSlots, Nat.add_comm n]
    exact hissue.trans (ih _)

/-- A smooth scroll up touches no horizontal field. -/
theorem smoothFields_up (h v : Nat) : ∃ vc vo, smoothFields .up h v = (0, h, vc, vo) := by
  rw [smoothFields]
  split
  · exact ⟨_, _, rfl⟩
  · exact ⟨_, _, rfl⟩

theorem smoothScroll_up_imageStep : ImageStep 1 1 s (smoothScroll P .up s) where
  lines := (smoothScroll_scrolledBy P .up s).lines
  packets := issue_buffer_length P _ (by simp [scrollBytes]) s
  untouched := by
    obtain ⟨vc, vo, hfields⟩ := smoothFields_up s.fb.hOff.val s.fb.vOff.val
    obtain ⟨hhc, hho, hvc, hvo⟩ := smoothFields_bounds hfields s.fb.hOff.isLt s.fb.vOff.isLt
    rw [smoothScroll_frame hfields hhc hho hvc hvo]
    rfl

/-- A scroll line takes `max speed 1` slots, the scroll's own among them. -/
theorem scrollLines_imageStep (speed n : Nat) : ImageStep n (n * max speed 1) s (scrollLines P speed n s) := by
  induction n generalizing s with
  | zero =>
    rw [Nat.zero_mul]
    exact .refl
  | succ n ih =>
    have hslots : 1 + (max speed 1 - 1) + n * max speed 1 = (n + 1) * max speed 1 := by
      rw [Nat.add_sub_cancel' (Nat.le_max_right _ _), Nat.succ_mul, Nat.add_comm]
    rw [scrollLines, ← hslots, Nat.add_comm n 1]
    exact ((smoothScroll_up_imageStep P s).trans (padSlots_imageStep P _ _)).trans (ih _)

theorem showImageRow_imageStep (image : List (List Nat)) (speed k : Nat) :
    ImageStep 12 (50 + 12 * max speed 1) s (showImageRow P image speed s k) := by
  have htiles := ImageStep.foldl (fun s c => drawImageTile_imageStep P s image k c) (List.range 50) s
  exact htiles.trans (scrollLines_imageStep P _ speed 12)

end

/-- Settles O40: the script performs the same loop, each turn of which moves up by one tile row. -/
theorem scrollImageRule : Obligations.ScrollImageRule := by
  refine fun image speed s => ⟨fun _ _ _ _ => rfl, fun h => ?_, fun hpos hmod hlines => ⟨fun h => ?_, fun h => ?_⟩⟩
  · rw [exec_scrollImageUp, scrollImageUp, checkImage_shape h]
    rfl
  · rw [exec_scrollImageUp, scrollImageUp, checkImage_pixel hpos hmod hlines h]
    rfl
  · have hstep := ImageStep.foldl (fun s k => showImageRow_imageStep Config.live s image speed k)
      (List.range (image.length / 12)) s
    rw [List.length_range] at hstep
    obtain ⟨hvTile, hframe⟩ := hstep.eq_of_tiles
    rw [exec_scrollImageUp, scrollImageUp, checkImage_ok hpos hmod hlines h]
    refine ⟨_, rfl, ?_, hstep.packets, hvTile, congrArg (State.setResult · (some .ok)) hframe⟩
    have hscript : (imageScript image speed).isEmpty = false :=
      List.isEmpty_eq_false_iff.2 (imageScript_ne_nil speed (by omega))
    exact (performs_imageScript image speed s s.result).trans (by rw [hscript]; rfl)

end Sys2Proof.Machine
end

section
/-! The stream family (spec/44_stream.md R109 to R112): delays, the buffer read whole and a new session. -/

namespace Sys2Proof.Machine

/-! ### Delays (R111, R112) -/

/-- A delay appends its no-op packets and nothing else, for `Pad(n)` does (R67, R111). -/
theorem exec_delayTicks_eq (n : Nat) (s : State) :
    exec (.delayTicks n) s = .next ((s.setBuffer
      (s.buffer ++ (List.replicate n (emitted Config.NOOP [])).flatten)).setResult (some .ok)) := by
  rw [exec_delayTicks, answer_ok, padSlots_eq]
  rfl

/-- A second is 150 ticks (R112). -/
theorem exec_delaySeconds_eq_delayTicks (seconds : Nat) (s : State) :
    exec (.delaySeconds seconds) s = exec (.delayTicks (150 * seconds)) s := by
  rw [exec_delaySeconds, exec_delayTicks, Config.TICKS_PER_SECOND, Nat.mul_comm]

/-- Settles O43: the law of `delayTicks`, and a second as 150 ticks of it. -/
theorem delayRule : Obligations.DelayRule := fun n s =>
  ⟨exec_delayTicks_eq n s, (exec_delaySeconds_eq_delayTicks n s).trans (exec_delayTicks_eq (150 * n) s)⟩

/-! ### The buffer read whole (R110) -/

/-- `BufRead(0, len(S.buffer))` is the whole buffer (R32). -/
theorem bufRead_all (s : State) : bufRead s 0 s.buffer.length = s.buffer := by
  rw [bufRead, List.drop_zero, List.take_length]

theorem exec_getBuffer_eq (s : State) : exec .getBuffer s = .next (s.setResult (some (.bytes s.buffer))) := by
  rw [exec_getBuffer, answerBytes_ok, bufRead_all]

/-- Settles O42: the read of the whole buffer gives all its bytes, and the answer writes the result alone. -/
theorem getBufferRule : Obligations.GetBufferRule := exec_getBuffer_eq

/-! ### A new session (R109) -/

theorem exec_newBuffer_eq (s : State) : exec .newBuffer s = .next ((newSession s).setResult (some .ok)) := by
  rw [exec_newBuffer, answer_ok]

/-- A new session depends only on what the outside still asks, so a second one in a row is the same (R109). -/
theorem newSession_setResult_newSession (s : State) (r : Option Result) :
    newSession ((newSession s).setResult r) = newSession s := rfl

/-- Settles O41: `newBuffer` keeps what is pending alone, so a second one gives the same state, and its buffer is
empty. -/
theorem newBufferRule : Obligations.NewBufferRule := by
  intro s
  have hnew := exec_newBuffer_eq s
  refine ⟨hnew, ?_, ?_⟩
  · rw [runAll_cons hnew, runAll_cons (exec_newBuffer_eq _), newSession_setResult_newSession, hnew]
    rfl
  · rw [runAll_cons hnew, runAll_cons (exec_getBuffer_eq _)]
    exact ⟨_, rfl, rfl⟩

end Sys2Proof.Machine
end

section
/-! The exceptions family (spec/60_exceptions.md): a command that raises an error changes nothing, the slots each command
takes, and that sessions share nothing. -/

namespace Sys2Proof.Machine

/-! ### Errors (R115) -/

/-- Settles O45, by the ways an instruction can end: the one that answers an error wrote the result alone. -/
theorem errorsLeaveStateUnchanged : Obligations.ErrorsLeaveStateUnchanged := by
  intro i s t e hi h he
  cases exec_cases h with
  | packet fb hp => exact absurd hp (by simp [hi])
  | raised e' _ =>
    cases he
    rfl
  | session _ => cases he
  | returned b _ => cases he
  | emitted u _ _ => cases he

/-! ### The packets an operation appends -/

/-- The buffer grows by `n` packets (R25). -/
def AppendsPackets (n : Nat) (s t : State) : Prop := t.buffer.length = s.buffer.length + 24 * n

section
variable {m n : Nat} {s t u : State}

theorem AppendsPackets.of_buffer_eq (h : t.buffer = s.buffer) : AppendsPackets 0 s t := congrArg List.length h

theorem AppendsPackets.trans (h : AppendsPackets m s t) (h' : AppendsPackets n t u) : AppendsPackets (m + n) s u := by
  unfold AppendsPackets at h h' ⊢
  omega

/-- A slot is a packet of the buffer, whatever bytes it held before (R122). -/
theorem AppendsPackets.elapsedTicks (h : AppendsPackets n s t) : elapsedTicks t = elapsedTicks s + n := by
  unfold AppendsPackets at h
  unfold Machine.elapsedTicks
  omega

end

theorem issue_appends (P : Params) (code : BitVec 6) {p : List Byte} (hp : p.length ≤ 16) (s : State) :
    AppendsPackets 1 s (issue P code p s) := issue_buffer_length P code hp s

theorem issueScroll_appends (P : Params) (code : BitVec 6) (color hc ho vc vo : Nat) (s : State) :
    AppendsPackets 1 s (issue P code (scrollBytes color hc ho vc vo) s) := issue_appends P code (by simp [scrollBytes]) s

theorem drawTile_appends (P : Params) (row col a b : Nat) {px : List Nat} (h : px.length = 12) (xor : Bool) (s : State) :
    AppendsPackets 1 s (drawTile P row col a b px xor s) := issue_appends P _ (by simp [h]) s

theorem issueColors_appends (P : Params) (code : BitVec 6) {colors : List Nat} (h : colors.length = 8) (s : State) :
    AppendsPackets 1 s (issue P code (packColors colors) s) := issue_appends P code (by rw [packColors_length, h]) s

/-! ### Text: one packet a glyph, and one for each scroll -/

section
variable (P : Params) (s : State)

theorem newLine_appends : AppendsPackets (if s.cursorRow.val = 16 then 1 else 0) s (newLine P s) := by
  by_cases hrow : s.cursorRow.val = 16
  · rw [newLine_last_row P hrow, if_pos hrow]
    exact issueScroll_appends ..
  · rw [newLine_next_row P (by omega), if_neg hrow]
    exact .of_buffer_eq rfl

theorem newLine_cursor : (newLine P s).cursorCol.val = 0 ∧
    (newLine P s).cursorRow.val = if s.cursorRow.val = 16 then 16 else s.cursorRow.val + 1 := by
  by_cases hrow : s.cursorRow.val = 16
  · rw [newLine_last_row P hrow, if_pos hrow]
    exact ⟨rfl, hrow⟩
  · rw [newLine_next_row P (by omega), if_neg hrow]
    exact ⟨rfl, rfl⟩

theorem advanceCursor_appends :
    AppendsPackets (if s.cursorCol.val = 48 ∧ s.cursorRow.val = 16 then 1 else 0) s (advanceCursor P s) := by
  by_cases hcol : s.cursorCol.val = 48
  · simpa only [hcol, true_and, advanceCursor_at_row_end P hcol] using newLine_appends P s
  · rw [advanceCursor_within_row P (by omega), if_neg fun h => hcol h.1]
    exact .of_buffer_eq rfl

theorem drawGlyph_appends (ch x y : Nat) (xor : Bool) : AppendsPackets 1 s (drawGlyph P ch x y xor s) :=
  drawTile_appends P _ _ _ _ (glyphRows_ok P ch).1 xor s

@[simp] theorem drawGlyph_cursorCol (ch x y : Nat) (xor : Bool) :
    (drawGlyph P ch x y xor s).cursorCol = s.cursorCol := rfl
@[simp] theorem drawGlyph_cursorRow (ch x y : Nat) (xor : Bool) :
    (drawGlyph P ch x y xor s).cursorRow = s.cursorRow := rfl

/-- What a text scrolls after a line break, read at the cursor that `NewLine()` leaves (R88, R92). -/
theorem textScrolls_newLine {ch col : Nat} (h : ch = 0x0A ∨ col = 48) (rest : List Nat) :
    textScrolls col s.cursorRow.val (ch :: rest) = (if s.cursorRow.val = 16 then 1 else 0) +
      textScrolls (newLine P s).cursorCol.val (newLine P s).cursorRow.val rest := by
  obtain ⟨hcol, hrow⟩ := newLine_cursor P s
  rw [hcol, hrow, textScrolls, if_pos h]
  by_cases h16 : s.cursorRow.val = 16
  · simp only [if_pos h16]
  · simp only [if_neg h16, Nat.zero_add]

/-- The slots of a character: its glyph unless it is a newline, and the scroll it causes; the rest of the text goes on
from the cursor it leaves (R92). -/
theorem printChar_appends (xor : Bool) (ch : Nat) : ∃ scrolls,
    AppendsPackets ((if ch ≠ 0x0A then 1 else 0) + scrolls) s (printChar P xor s ch) ∧
    ∀ rest, textScrolls s.cursorCol.val s.cursorRow.val (ch :: rest) =
      scrolls + textScrolls (printChar P xor s ch).cursorCol.val (printChar P xor s ch).cursorRow.val rest := by
  by_cases hch : ch = 0x0A
  · subst hch
    refine ⟨_, ?_, textScrolls_newLine P s (.inl rfl)⟩
    rw [if_neg (by simp), Nat.zero_add]
    exact newLine_appends P s
  · rw [printChar_glyph P xor s hch, if_pos hch]
    refine ⟨_, (drawGlyph_appends P s ..).trans (advanceCursor_appends P _), fun rest => ?_⟩
    by_cases hcol : s.cursorCol.val = 48
    · rw [advanceCursor_at_row_end P (s := drawGlyph ..) hcol]
      simpa [hcol] using
        textScrolls_newLine P (drawGlyph P ch s.cursorCol.val s.cursorRow.val xor s) (ch := ch) (.inr hcol) rest
    · rw [advanceCursor_within_row P (s := drawGlyph ..) (show s.cursorCol.val + 1 < 49 by omega), textScrolls,
        if_neg (by simp [hch, hcol]), if_neg fun h => hcol h.1, Nat.zero_add]
      rfl

theorem foldl_printChar_appends (xor : Bool) (text : List Nat) :
    AppendsPackets ((text.filter fun ch => decide (ch ≠ 0x0A)).length +
      textScrolls s.cursorCol.val s.cursorRow.val text) s (text.foldl (printChar P xor) s) := by
  induction text generalizing s with
  | nil => exact .of_buffer_eq rfl
  | cons ch rest ih =>
    obtain ⟨scrolls, happ, hrest⟩ := printChar_appends P s xor ch
    have hglyphs : ((ch :: rest).filter fun c => decide (c ≠ 0x0A)).length =
        (if ch ≠ 0x0A then 1 else 0) + (rest.filter fun c => decide (c ≠ 0x0A)).length := by
      rw [← List.countP_eq_length_filter, ← List.countP_eq_length_filter, List.countP_cons, Nat.add_comm]
      simp
    rw [hglyphs, hrest, Nat.add_add_add_comm]
    exact happ.trans (ih _)

end

/-! ### The slots of a command that succeeds (R135) -/

/-- The command raises an error or appends `n` packets. -/
def CommandTakes (n : Nat) (s : State) (r : Except CommandError State) : Prop := ∀ u, r = .ok u → AppendsPackets n s u

section
variable {n : Nat} {s t : State}

theorem CommandTakes.ok {u : State} (h : AppendsPackets n s u) : CommandTakes n s (.ok u) := by
  rintro _ ⟨⟩
  exact h

theorem CommandTakes.error (e : CommandError) : CommandTakes n s (.error e) := by
  rintro _ ⟨⟩

theorem answer_appends {r : Except CommandError State} (hr : CommandTakes n s r) (h : answer s r = .next t)
    (hok : ∀ e, t.result ≠ some (.error e)) : AppendsPackets n s t := by
  obtain ⟨u, hu, rfl⟩ | ⟨e, _, rfl⟩ := answer_cases h
  · exact hr u hu
  · exact absurd rfl (hok e)

theorem answerBytes_appends {r : Except CommandError (List Byte)} (h : answerBytes s r = .next t) :
    AppendsPackets 0 s t := by
  obtain ⟨b, _, rfl⟩ | ⟨e, _, rfl⟩ := answerBytes_cases h
  · exact .of_buffer_eq rfl
  · exact .of_buffer_eq rfl

end

section
variable (P : Params) (s : State)

theorem setScreenColor_takes (index : Nat) : CommandTakes 1 s (setScreenColor P index s) := by
  unfold setScreenColor
  split
  · exact .error _
  · exact .ok (issue_appends P _ (by simp) s)

theorem setBorderColor_takes (index : Nat) : CommandTakes 1 s (setBorderColor P index s) := by
  unfold setBorderColor
  split
  · exact .error _
  · exact .ok (issue_appends P _ (by simp) s)

theorem writeTile_takes (row col a b : Nat) (px : List Nat) (xor : Bool) :
    CommandTakes 1 s (writeTile P row col a b px xor s) := by
  unfold writeTile
  split
  · exact .error _
  next hcheck =>
    obtain ⟨-, -, -, -, hlen, -⟩ := checkTile_inv hcheck
    exact .ok (drawTile_appends P row col a b hlen xor s)

theorem setCursor_takes (x y : Nat) : CommandTakes 0 s (setCursor x y s) := by
  unfold setCursor
  split
  · exact .error _
  · exact .ok (.of_buffer_eq rfl)

theorem textTile_takes (ch x y : Nat) (xor : Bool) : CommandTakes 1 s (textTile P ch x y xor s) := by
  unfold textTile
  split
  · exact .error _
  · exact writeTile_takes P s _ _ _ _ _ xor

theorem printScreen_takes (text : List Nat) (xor : Bool) :
    CommandTakes (slotsTaken s (.printScreen text xor)) s (printScreen P text xor s) := by
  unfold printScreen
  split
  · exact .error _
  · exact .ok (foldl_printChar_appends P s xor text)

theorem scroll_takes (d : Direction) (color : Nat) (step : Option Nat) (wrap : Bool) :
    CommandTakes 1 s (scroll P d color step wrap s) := by
  unfold scroll
  split
  · exact .error _
  split
  · exact .ok (issueScroll_appends P ..)
  split
  · split
    · exact .error _
    · exact .ok (issueScroll_appends P ..)
  · split
    · exact .error _
    · exact .ok (issueScroll_appends P ..)

theorem paletteLow_takes (palette : List Nat) (dup : Bool) : CommandTakes 1 s (paletteLow P palette dup s) := by
  unfold paletteLow
  split
  · exact .error _
  next hslots => exact .ok (issueColors_appends P _ (halfSlots_inv hslots).1 s)

theorem paletteHigh_takes (palette : List Nat) (dup : Bool) : CommandTakes 1 s (paletteHigh P palette dup s) := by
  unfold paletteHigh
  split
  · exact .error _
  next hslots => exact .ok (issueColors_appends P _ (halfSlots_inv hslots).1 s)

theorem fade_takes {levels : List Nat} (hlev : ∀ k ∈ levels, k ≤ 15) (speed : Nat) (palette : List Nat) :
    CommandTakes (levels.length * max speed 2) s (fade Config.live levels speed palette s) := by
  unfold fade
  split
  · exact .error _
  next hcheck =>
    obtain ⟨hlen, -⟩ := checkFade_inv hcheck
    refine .ok ?_
    rw [AppendsPackets, fadeThrough_eq speed hlen hlev, List.length_append, fadeBytes_length speed hlen]

theorem scrollImageUp_takes (image : List (List Nat)) (speed : Nat) :
    CommandTakes (image.length / 12 * (50 + 12 * max speed 1)) s (scrollImageUp P image speed s) := by
  unfold scrollImageUp
  split
  · exact .error _
  · have hrows := ImageStep.foldl (fun s k => showImageRow_imageStep P s image speed k) (List.range (image.length / 12)) s
    rw [List.length_range] at hrows
    exact .ok hrows.packets

theorem padSlots_takes (n : Nat) : CommandTakes n s (.ok (padSlots P n s)) := .ok (padSlots_imageStep P s n).packets

end

/-- A command that succeeds takes the slots of its row of R135's table. -/
theorem exec_appends {i : Instr} {s t : State} (h : exec i s = .next t) (hi : i.isPacket = false) (hn : i ≠ .newBuffer)
    (hok : ∀ e, t.result ≠ some (.error e)) : AppendsPackets (slotsTaken s i) s t := by
  cases i with
  | noop | memoryPreset | borderPreset | tileNormal | scrollPreset | scrollCopy | loadClutLow | loadClutHigh | tileXor =>
    cases hi
  | newBuffer => exact absurd rfl hn
  | encodePacket instr payload => exact answerBytes_appends h
  | getBuffer => exact answerBytes_appends (r := .ok (bufRead s 0 s.buffer.length)) h
  | setScreenColor index => exact answer_appends (setScreenColor_takes _ s index) h hok
  | setBorderColor index => exact answer_appends (setBorderColor_takes _ s index) h hok
  | writeTile row col a b px xor => exact answer_appends (writeTile_takes _ s row col a b px xor) h hok
  | tileBlit row col a b px => exact answer_appends (writeTile_takes _ s row col a b px false) h hok
  | xorBlit row col a b px => exact answer_appends (writeTile_takes _ s row col a b px true) h hok
  | setCursor x y => exact answer_appends (setCursor_takes s x y) h hok
  | advanceCursor => exact answer_appends (.ok (advanceCursor_appends Config.live s)) h hok
  | textTile ch x y xor => exact answer_appends (textTile_takes _ s ch x y xor) h hok
  | printScreen text xor => exact answer_appends (printScreen_takes _ s text xor) h hok
  | scroll d color step wrap => exact answer_appends (scroll_takes _ s d color step wrap) h hok
  | smoothScroll d => exact answer_appends (r := .ok (smoothScroll Config.live d s)) (.ok (issueScroll_appends ..)) h hok
  | paletteLow palette dup => exact answer_appends (paletteLow_takes _ s palette dup) h hok
  | paletteHigh palette dup => exact answer_appends (paletteHigh_takes _ s palette dup) h hok
  | fadeIn speed palette => exact answer_appends (fade_takes s fadeLevels_le.1 speed palette) h hok
  | fadeOut speed palette => exact answer_appends (fade_takes s fadeLevels_le.2 speed palette) h hok
  | scrollImageUp image speed => exact answer_appends (scrollImageUp_takes _ s image speed) h hok
  | delayTicks n => exact answer_appends (padSlots_takes _ s n) h hok
  | delaySeconds seconds =>
    rw [exec_delaySeconds_eq_delayTicks] at h
    exact answer_appends (padSlots_takes _ s (150 * seconds)) h hok

/-- Settles O55: the packets a success appends, and that an error leaves the buffer as it was (R115). -/
theorem slotCounts : Obligations.SlotCounts := by
  refine fun i s t h hi hn => ⟨fun hok => (exec_appends h hi hn hok).elapsedTicks, fun ⟨e, he⟩ => ?_⟩
  rw [errorsLeaveStateUnchanged i s t e hi h he]
  rfl

/-! ### Sessions (R124) -/

/-- A step of a session in the list replaces that session by its own next state, and nothing else. -/
theorem stepSession_cases {k : Nat} {sessions after : List State} {s : State} (hk : sessions[k]? = some s)
    (h : stepSession k sessions = .next after) : ∃ t, step s = .next t ∧ after = sessions.set k t := by
  simp only [stepSession, hk] at h
  split at h
  next t ht =>
    cases h
    exact ⟨t, ht, rfl⟩
  · cases h
  · cases h

/-- Settles O60: a list with entry k replaced reads the new state at k, and elsewhere as it did. -/
theorem sessionsShareNothing : Obligations.SessionsShareNothing := by
  intro k sessions after s hk h
  obtain ⟨t, ht, rfl⟩ := stepSession_cases hk h
  obtain ⟨hlt, -⟩ := List.getElem?_eq_some_iff.1 hk
  exact ⟨⟨t, ht, List.getElem?_set_self hlt⟩, fun j hj => List.getElem?_set_ne hj.symm⟩

end Sys2Proof.Machine
end

section
/-! The reset and hazards family (spec/70_reset_and_hazards.md): a normal tile draw hides an earlier draw of its tile,
and the boot commands define every field that has an `undef`. -/

namespace Sys2Proof.Machine

/-- A command that always issues one and the same packet, as a script of its own. -/
theorem performs_issue {i : Instr} {code : BitVec 6} {p : List Byte}
    (h : ∀ s, exec i s = .next ((issue Config.live code p s).setResult (some .ok))) :
    Performs [i] (issue Config.live code p) :=
  .single fun s r => h (s.setResult r)

/-! ### The XOR order hazard (R131) -/

section
variable {row col a b : Nat} {px : List Nat} (hr : row ≤ 17) (hc : col ≤ 49) (hl : px.length = 12)
include hr hc hl

/-- A tile command whose operands pass their checks draws its tile (R83). -/
theorem exec_tileCommands_ok (ha : a ≤ 15) (hb : b ≤ 15) (hpx : ∀ v ∈ px, v ≤ 63) {xor : Bool} {i : Instr}
    (hi : i ∈ tileCommands row col a b px xor) (s : State) :
    exec i s = .next ((drawTile Config.live row col a b px xor s).setResult (some .ok)) := by
  rw [exec_tileCommands hi, writeTile_ok _ (checkTile_ok hr hc ha hb hl hpx), answer_ok]

/-- A normal draw makes equal any two canvases that agree outside its tile (R70). -/
theorem drawTile_normal_canvas_eq (P : Params) {s t : State}
    (h : ∀ y x, y < 216 → x < 300 → ¬ (y / 12 = row ∧ x / 6 = col) →
      pixelAt t.fb.canvas y x = pixelAt s.fb.canvas y x) :
    (drawTile P row col a b px false t).fb.canvas = (drawTile P row col a b px false s).fb.canvas := by
  refine canvas_ext fun y x hy hx => ?_
  rw [pixelAt_drawTile hr hc hl _ _ _ _ _ hy hx, pixelAt_drawTile hr hc hl _ _ _ _ _ hy hx]
  split_ifs with htile
  · rfl
  · exact h y x hy hx htile

end

theorem drawTile_fb (P : Params) (row col a b : Nat) (px : List Nat) (xor : Bool) (s : State) :
    (drawTile P row col a b px xor s).fb = { s.fb with canvas := (drawTile P row col a b px xor s).fb.canvas } :=
  congrArg State.fb (drawTile_frame P row col a b px xor s)

/-- A normal draw hides whatever draw of the same tile came just before it. -/
theorem drawTile_normal_hides_drawTile (P : Params) {row col : Nat} (hr : row ≤ 17) (hc : col ≤ 49) (a b a' b' : Nat)
    {px px' : List Nat} (hl : px.length = 12) (hl' : px'.length = 12) (xor : Bool) (s : State) :
    (drawTile P row col a' b' px' false (drawTile P row col a b px xor s)).fb =
      (drawTile P row col a' b' px' false s).fb := by
  have hcanvas := drawTile_normal_canvas_eq (a := a') (b := b') hr hc hl' P (s := s)
    (t := drawTile P row col a b px xor s) fun y x hy hx htile => by
      rw [pixelAt_drawTile hr hc hl _ _ _ _ _ hy hx, if_neg htile]
  rw [drawTile_fb, hcanvas, drawTile_fb, ← drawTile_fb]

/-- Settles O27: the two runs draw the tile normally over canvases that differ inside it only. -/
theorem normalDrawHidesXor : Obligations.NormalDrawHidesXor := by
  intro row col a b a' b' px px' s hr hc ha hb hl hpx ha' hb' hl' hpx'
  have hxor := exec_tileCommands_ok hr hc hl ha hb hpx (xor := true) (i := .xorBlit row col a b px)
    (by simp [tileCommands])
  have hnormal := exec_tileCommands_ok hr hc hl' ha' hb' hpx' (xor := false) (i := .tileBlit row col a' b' px')
    (by simp [tileCommands])
  exact ⟨_, _, (performs_issue hxor).append (performs_issue hnormal) s s.result, hnormal s,
    drawTile_normal_hides_drawTile Config.live hr hc a b a' b' hl hl' true s⟩

/-! ### Boot (R128) -/

theorem performs_setScreenColor {index : Nat} (h : index ≤ 15) :
    Performs [.setScreenColor index] (issue Config.live Config.MEMORY_PRESET [BitVec.ofNat 8 index, 0]) :=
  performs_issue fun s => by rw [exec_setScreenColor, setScreenColor_ok _ h, answer_ok]

theorem performs_setBorderColor {index : Nat} (h : index ≤ 15) :
    Performs [.setBorderColor index] (issue Config.live Config.BORDER_PRESET [BitVec.ofNat 8 index]) :=
  performs_issue fun s => by rw [exec_setBorderColor, setBorderColor_ok _ h, answer_ok]

/-- Eight colours need no slot of the palette before them. -/
theorem halfSlots_eight (pal : Palette) {colors : List Nat} (hl : colors.length = 8) (h : ∀ v ∈ colors, v ≤ 0xFFF)
    (dup : Bool) (base : Nat) : halfSlots pal colors dup base = .ok colors := by
  rw [halfSlots, if_neg (by omega), if_pos (by simpa using h), if_pos hl]

theorem performs_paletteHalf (high dup : Bool) {colors : List Nat} (hl : colors.length = 8)
    (h : ∀ v ∈ colors, v ≤ 0xFFF) : Performs [if high then .paletteHigh colors dup else .paletteLow colors dup]
      (issue Config.live (halfCode high) (packColors colors)) :=
  performs_issue fun s => by
    rw [exec_paletteHalf, halfSlots_eight _ hl h]
    rfl

/-- The state after the packets of the first two boot commands, which set the colours. -/
def presetState (P : Params) (screen border : Nat) (s : State) : State :=
  issue P Config.BORDER_PRESET [BitVec.ofNat 8 border] (issue P Config.MEMORY_PRESET [BitVec.ofNat 8 screen, 0] s)

theorem presetState_fb (P : Params) (screen border : Nat) (s : State) : (presetState P screen border s).fb =
    applyBorderPreset (BitVec.ofNat 4 border) (applyMemoryPreset (BitVec.ofNat 4 screen) 0 s.fb) := by
  rw [presetState, issue_fb, issue_fb, applyPayload_borderColorBytes, applyPayload_screenColorBytes]

theorem presetState_appends (P : Params) (screen border : Nat) (s : State) :
    AppendsPackets 2 s (presetState P screen border s) :=
  (issue_appends P Config.MEMORY_PRESET (by simp) s).trans (issue_appends P Config.BORDER_PRESET (by simp) _)

/-- The state after the packets of all four boot commands. -/
def bootState (P : Params) (screen border : Nat) (low high : List Nat) (s : State) : State :=
  issue P (halfCode true) (packColors high) (issue P (halfCode false) (packColors low) (presetState P screen border s))

section
variable {screen border : Nat} {low high : List Nat} (hlow : low.length = 8) (hhigh : high.length = 8)
include hlow hhigh

theorem bootState_appends (P : Params) (s : State) : AppendsPackets 4 s (bootState P screen border low high s) :=
  ((presetState_appends P screen border s).trans (issueColors_appends P _ hlow _)).trans
    (issueColors_appends P _ hhigh _)

variable (hl : ∀ v ∈ low, v ≤ 0xFFF) (hh : ∀ v ∈ high, v ≤ 0xFFF)
include hl hh

theorem performs_boot (hs : screen ≤ 15) (hb : border ≤ 15) :
    Performs [.setScreenColor screen, .setBorderColor border, .paletteLow low false, .paletteHigh high false]
      (bootState Config.live screen border low high) :=
  (performs_setScreenColor hs).append ((performs_setBorderColor hb).append
    ((performs_paletteHalf false false hlow hl).append (performs_paletteHalf true false hhigh hh)))

/-- The palette loads leave the presets' work alone (R68, R69, R75, R76). -/
theorem bootState_fb (P : Params) (s : State) : (bootState P screen border low high s).fb =
    { applyBorderPreset (BitVec.ofNat 4 border) (applyMemoryPreset (BitVec.ofNat 4 screen) 0 s.fb) with
      palette := (bootState P screen border low high s).fb.palette } := by
  rw [bootState, issue_halfCode P true hhigh hh, issue_halfCode P false hlow hl, presetState_fb]

/-- Each half of the palette holds its own eight colours: the later load is of the other half. -/
theorem entryOf_bootState (P : Params) (s : State) {k : Nat} (hk : k < 8) :
    entryOf (bootState P screen border low high s) k = some (BitVec.ofNat 12 (low.getD k 0)) ∧
      entryOf (bootState P screen border low high s) (8 + k) = some (BitVec.ofNat 12 (high.getD k 0)) := by
  obtain ⟨hhighLoaded, hlowKept⟩ := entryOf_issue_halfCode P true hhigh hh
    (issue P (halfCode false) (packColors low) (presetState P screen border s)) hk
  obtain ⟨hlowLoaded, -⟩ := entryOf_issue_halfCode P false hlow hl (presetState P screen border s) hk
  simp only [halfBase, if_true, Nat.sub_self, Nat.zero_add, Bool.false_eq_true, if_false] at hlowKept hlowLoaded
  exact ⟨hlowKept.trans hlowLoaded, hhighLoaded⟩

end

/-- Settles O59: the four commands run to the boot state, whose every field is the operands'. -/
theorem bootDefinesEverything : Obligations.BootDefinesEverything := by
  intro screen border low high s hs hb hlow hhigh hl hh
  have hfb := bootState_fb (screen := screen) (border := border) hlow hhigh hl hh Config.live s
  refine ⟨_, performs_boot hlow hhigh hl hh hs hb s s.result, fun y x hy hx => ?_, ?_, ?_, fun k hk =>
    entryOf_bootState hlow hhigh hl hh Config.live s hk, (bootState_appends hlow hhigh Config.live s).elapsedTicks⟩
  · rw [setResult_fb, hfb]
    exact pixelAt_applyMemoryPreset _ 0 s.fb hy hx
  · rw [setResult_fb, hfb]
    rfl
  · rw [setResult_fb, hfb]
    rfl

end Sys2Proof.Machine
end
